-- ==== Sys2Proof/Word.lean ====
section
/-! DEFINITION. The word types of the block: bytes of a buffer, 16-bit coefficient elements and 32-bit
registers, command words and bus data (00_scope.md R4, R5). -/

namespace Sys2Proof

/-- One byte of a buffer. -/
abbrev Byte := BitVec 8

/-- A 16-bit coefficient element as stored (20_memory.md R53). -/
abbrev Half := BitVec 16

/-- A 32-bit register value, command word or bus data word. -/
abbrev Word := BitVec 32

/-- An offset in the instance's 0x40000-byte window: the low 18 address bits (20_memory.md R50). -/
abbrev Offset := BitVec 18

end Sys2Proof
end

