-- ==== Sys2Proof/Config.lean ====
section
/-! DEFINITION. What an implementation or platform fixes (00_scope.md R4) and the values the spec leaves
free (93_implementation_defined.md U1 to U3, U11). Nothing here is state. -/

namespace Sys2Proof.Config

/-- A pixel (R, G, B, A) of 8-bit channels (10_state.md R37). -/
structure Pixel where
  r : Byte
  g : Byte
  b : Byte
  a : Byte
deriving DecidableEq, Repr

/-- The four non-negative factors of COLOR_MATRIX, scaled by 2^16 (43_color.md R162). -/
structure ColorMatrix where
  crR : Nat
  crG : Nat
  cbG : Nat
  cbB : Nat
deriving DecidableEq, Repr

/-- The parameters of 00_scope.md R4. The meanings, `Machine.execWith`, `Machine.stepWith` and the platform take them as
an argument; `Machine.params` holds the spec's defaults, with which `exec` and `step` run (log 9). -/
structure Params where
  /-- IN_BYTES, the capacity of IN in bytes. -/
  inBytes : Nat
  /-- LIFT_NX: 1-D inverse lifting of the non-extrapolated layout, from (low, high) samples. -/
  liftNx : List Int → List Int → List Int
  /-- LIFT_X: 1-D inverse lifting of the extrapolated layout, from (low, high) samples. -/
  liftX : List Int → List Int → List Int
  /-- COLOR_MATRIX. -/
  colorMatrix : ColorMatrix
  /-- YCOCG_FN: the pixel of the three elements and CLL. -/
  ycocgFn : Int → Int → Int → Nat → Pixel
  /-- N_INST, the number of instances on the platform (60_exceptions.md R202, log 17). -/
  nInst : Nat
  /-- The upper 14 bits of INST_BASE[k], so that every base is aligned to 0x40000 (20_memory.md R50, log 18). -/
  instIndex : Nat → BitVec 14

/-- INST_BASE[k] (R4, 20_memory.md R50). -/
def Params.instBase (P : Params) (k : Nat) : Word := P.instIndex k ++ 0#18

/-- What R4, R131, R133 and R168 ask of the parameters: 1 ≤ IN_BYTES ≤ 65536; a lifting maps nL low and nH high
samples to nL + nH samples, each within 16 bits, for the band counts its layout uses (R135, R139); the YCoCg function
gives opaque pixels. -/
structure Params.Legal (P : Params) : Prop where
  inBytes_pos : 1 ≤ P.inBytes
  inBytes_le : P.inBytes ≤ 65536
  liftNx_length : ∀ lo hi : List Int, 0 < lo.length → lo.length = hi.length →
    (P.liftNx lo hi).length = lo.length + hi.length
  liftX_length : ∀ lo hi : List Int, 0 < hi.length →
    (lo.length = hi.length + 1 ∨ lo.length = hi.length + 2) →
    (P.liftX lo hi).length = lo.length + hi.length
  liftNx_range : ∀ lo hi : List Int, ∀ v ∈ P.liftNx lo hi, -32768 ≤ v ∧ v ≤ 32767
  liftX_range : ∀ lo hi : List Int, ∀ v ∈ P.liftX lo hi, -32768 ≤ v ∧ v ≤ 32767
  ycocgFn_opaque : ∀ (e0 e1 e2 : Int) (cll : Nat), (P.ycocgFn e0 e1 e2 cll).a = 255#8

/-! Free values. Each is an opaque function of the stream that an instance draws from, `State.stream`, and of the number
of the draw, `State.fresh`; nothing can be proved of its value. That it is a function of the two is the model's choice:
two draws with the same stream and number are provably equal, which the spec does not say (log 25). After `platformReset`
each instance has a stream of its own, so the draws of two instances are unrelated (60_exceptions.md R202). -/

/-- What a poisoned byte reads as, at `draw` of `stream` (40_host_bus.md R91, 93 U1, log 3, log 25). -/
opaque freeByte (stream draw : Nat) : Byte

/-- RLGR_BITS.BITS after a decode that read a poisoned byte (70_reset_and_hazards.md R211, 93 U2, log 5, log 25). -/
opaque freeBits (stream draw : Nat) : BitVec 20

/-- RLGR_EMIT.EMIT after a decode that read a poisoned byte (R211, log 5, log 25). -/
opaque freeEmit (stream draw : Nat) : BitVec 13

/-- RLGR_KSTATE.KR after a decode that read a poisoned byte (R211, log 5, log 25). -/
opaque freeKr (stream draw : Nat) : BitVec 4

/-- RLGR_KSTATE.KGR after a decode that read a poisoned byte (R211, log 5, log 25). -/
opaque freeKgr (stream draw : Nat) : BitVec 4

/-- Element `j` of TEMP where the spec leaves TEMP unspecified (10_state.md R38, 93 U3, log 8, log 25). -/
opaque freeTemp (stream draw j : Nat) : Half

/-- The default INST_BASE, open in the spec: its upper 14 bits (R4, 93 U11, log 18). -/
opaque instIndex : Nat → BitVec 14

end Sys2Proof.Config
end

