-- ==== Sys2Proof/Machine/Arith.lean ====
section
/-! DEFINITION. Exact integer arithmetic, saturation and byte order (00_scope.md R6, R11 to R13;
20_memory.md R52 to R54). -/

namespace Sys2Proof.Machine

open Sys2Proof.Config (Pixel)

/-- Arithmetic right shift, floor(v / 2^n) (R12). -/
def asr (v : Int) (n : Nat) : Int := v / 2 ^ n

/-- v / 2 rounded toward zero (R12). -/
def div2t (v : Int) : Int := v.tdiv 2

/-- The largest e with 2^e ≤ v, for v ≥ 1 (R12). -/
def floorLog2 (v : Nat) : Nat := v.log2

/-- Saturation to the signed 16-bit range (R13). -/
def sat16 (v : Int) : Int := if v < -32768 then -32768 else if v > 32767 then 32767 else v

/-- Saturation to 0..255 (R13). -/
def clip8 (v : Int) : Int := if v < 0 then 0 else if v > 255 then 255 else v

/-- An 8-bit channel holding `v`, 0 ≤ v ≤ 255. -/
def channel (v : Int) : Byte := BitVec.ofInt 8 v

/-- zext_8(v): the low 8 bits of `v` as an unsigned number (R11). -/
def zext8 (v : Int) : Int := v % 256

/-- sext_8(v): the low 8 bits of `v` as an 8-bit two's-complement number (R11). -/
def sext8 (v : Int) : Int := (BitVec.ofInt 8 v).toInt

/-- The element whose bytes are `lo` (bits 7:0) and `hi` (bits 15:8), sext_16 of the two (20_memory.md R53). -/
def elementOf (lo hi : Byte) : Int := (hi ++ lo : Half).toInt

/-- The bytes of an element holding `v`, low byte first: zext_16(v) in little-endian order (R53). -/
def elementBytes (v : Int) : List Byte :=
  let h : Half := BitVec.ofInt 16 v
  [h.extractLsb' 0 8, h.extractLsb' 8 8]

/-- The elements stored in a byte image (R53). -/
def elementsOf : List Byte → List Int
  | lo :: hi :: rest => elementOf lo hi :: elementsOf rest
  | _ => []

/-- The byte image of a list of elements (R53). -/
def elementsBytes (vs : List Int) : List Byte := vs.flatMap elementBytes

/-- The bytes of a pixel in the order R, G, B, A (20_memory.md R54). -/
def pixelBytes (p : Pixel) : List Byte := [p.r, p.g, p.b, p.a]

/-- The byte image of a list of pixels (R54). -/
def pixelsBytes (ps : List Pixel) : List Byte := ps.flatMap pixelBytes

/-- The bus data word of some bytes, the first byte least significant (40_host_bus.md R91). -/
def busWord : List Byte → Word
  | [] => 0#32
  | b :: bs => b.setWidth 32 ||| busWord bs <<< 8

/-- The low `n` bytes of a bus data word, the least significant first (40_host_bus.md R92). -/
def busBytes : Nat → Word → List Byte
  | 0, _ => []
  | n + 1, v => v.setWidth 8 :: busBytes n (v >>> 8)

end Sys2Proof.Machine
end

