-- ==== Sys2Proof/Syntax.lean ====
section
/-! DEFINITION. The operations of the block: the eight commands and the ILLEGAL command word of
30_encoding.md R72, R73, and the two host bus operations of 40_host_bus.md R91, R92. One constructor per row of
spec/opcode_table.json. -/

namespace Sys2Proof

/-- One operation. A command operand has the width of its field in the command word (30_encoding.md R71), so the
field values that R75 calls illegal (CH = 3, COUNT > 4096, CLL = 0) are operands too: their words decode to their
command, which then completes with an error. -/
inductive Instr where
  /-- NOP (44_control.md R182). -/
  | nop
  /-- RLGR_DECODE with CH and COUNT (41_rlgr.md R100). -/
  | rlgrDecode (ch : BitVec 2) (count : BitVec 13)
  /-- DWT_INV_NX with CH (42_dwt.md R137). -/
  | dwtInvNx (ch : BitVec 2)
  /-- DWT_INV_X with CH (42_dwt.md R143). -/
  | dwtInvX (ch : BitVec 2)
  /-- YCBCR2RGB (43_color.md R164). -/
  | ycbcr2rgb
  /-- YCOCG2RGB with CLL (43_color.md R167). -/
  | ycocg2rgb (cll : BitVec 3)
  /-- CLEAR with CH (44_control.md R183). -/
  | clear (ch : BitVec 2)
  /-- SOFT_RESET (44_control.md R184). -/
  | softReset
  /-- A reserved command word `w` (30_encoding.md R73, R74; 44_control.md R185). -/
  | illegal (w : Word)
  /-- A host read of `n` bytes at window offset `off` (40_host_bus.md R91). -/
  | hostRead (off : Offset) (n : Nat)
  /-- A host write of the low `n` bytes of `v` at window offset `off` (40_host_bus.md R92). -/
  | hostWrite (off : Offset) (n : Nat) (v : Word)
deriving DecidableEq, Repr

/-- A bus transaction: how a host access, which has no command word, reaches the block (40_host_bus.md R91, R92;
00_scope.md R8). `v` is the data of a write and 0 in a read. -/
structure BusAccess where
  write : Bool
  off : Offset
  n : Nat
  v : Word
deriving DecidableEq, Repr

/-- How an operation is encoded: a command word, or a bus transaction. -/
inductive Encoding where
  | command (w : Word)
  | access (t : BusAccess)
deriving DecidableEq, Repr

end Sys2Proof
end

