-- ==== Sys2Proof/Machine/State.lean ====
section
/-! DEFINITION. The state of one instance (10_state.md R20) as plain data, with the outside of the block (the turns
still to come and the last bus response) and the counter of free values, and the state after hard reset
(70_reset_and_hazards.md R210). -/

namespace Sys2Proof.Machine

/-- The causes of a command error (60_exceptions.md R191). -/
inductive CmdError where
  /-- The word decodes to ILLEGAL. -/
  | illegalCmd
  /-- CH = 3. -/
  | badChannel
  /-- COUNT > 4096. -/
  | badCount
  /-- IN_LEN.LEN > IN_BYTES. -/
  | badLen
  /-- CLL = 0. -/
  | badParam
deriving DecidableEq, Repr

/-- The causes of a bus error (60_exceptions.md R194). -/
inductive BusCause where
  | unmapped
  | width
  | misaligned
  | busy
  | readOnly
deriving DecidableEq, Repr

/-- What the bus returns to the host for an access (00_scope.md R8, 40_host_bus.md R91 to R93). -/
inductive BusResponse where
  /-- No access has been answered yet. -/
  | none
  /-- The data of a read, zero-extended to 32 bits. -/
  | data (v : Word)
  /-- A write that was performed. -/
  | done
  /-- BUSERR with its cause; no data. -/
  | busErr (cause : BusCause)
deriving DecidableEq, Repr

/-- One turn of the schedule (00_scope.md R15, 60_exceptions.md R206). -/
inductive Turn where
  /-- The host issues one access. -/
  | access (t : BusAccess)
  /-- The engine is given the chance to take its completion step (44_control.md R181). -/
  | engine
  /-- The platform asserts hard reset (70_reset_and_hazards.md R210, R212). -/
  | hardReset
deriving DecidableEq, Repr

/-- Why a step stops. -/
inductive Fault where
  /-- STATUS.BUSY = 1 while ENG is empty, so there is no command to complete (44_control.md R181). Raised by `step`
  only, in a state that no run from reset reaches (log 16). Safe: the machine stops where the spec has no such state. -/
  | engineEmpty
deriving DecidableEq, Repr

/-- Why an operation is refused. -/
inductive Refusal where
  /-- No meaning for the instruction. Raised by an arm of `exec` only; no arm raises it now. Safe. -/
  | notModelled (mnemonic : String)
deriving DecidableEq, Repr

/-- The state of one instance, R20, and the model's own fields `turns`, `resp`, `fresh` and `stream`. A register's reserved bits
read 0 and ignore writes (R23), so only its fields are held; ID is hard-wired (R24) and CMD reads 0 (R25). -/
structure State where
  /-- STATUS.BUSY (R26). -/
  busy : Bool
  /-- STATUS.DONE (R26). -/
  done : Bool
  /-- STATUS.ERR (R26). -/
  err : Bool
  /-- STATUS.LASTOP (R26). -/
  lastop : BitVec 4
  /-- STATUS.ERRCODE (R26). -/
  errcode : BitVec 8
  /-- IN_LEN.LEN (R27). -/
  inLen : BitVec 17
  /-- RLGR_BITS.BITS (R28). -/
  rlgrBits : BitVec 20
  /-- RLGR_EMIT.EMIT (R29). -/
  rlgrEmit : BitVec 13
  /-- RLGR_KSTATE.KR (R30). -/
  rlgrKr : BitVec 4
  /-- RLGR_KSTATE.KGR (R30). -/
  rlgrKgr : BitVec 4
  /-- IRQ_EN.DONE_IE (R31). -/
  doneIe : Bool
  /-- IRQ_STAT.DONE_IP (R32). -/
  doneIp : Bool
  /-- KINIT.KR_INIT (R33). -/
  krInit : BitVec 4
  /-- KINIT.KGR_INIT (R33). -/
  kgrInit : BitVec 4
  /-- IN, COEF and PIX, keyed by window offset (20_memory.md R51); an unlisted byte is poisoned (R211, log 3). -/
  mem : List Host.Cell
  /-- TEMP (R38). -/
  temp : List Half
  /-- ENG, the engine latch (R39). -/
  eng : Option Word
  /-- The irq wire (R40). -/
  irq : Bool
  /-- The model's own: the turns still to come (log 1, log 2). -/
  turns : List Turn
  /-- The model's own: the response of the last host access (log 12). -/
  resp : BusResponse
  /-- The model's own: the number of the next free value. -/
  fresh : Nat
  /-- The model's own: the stream of free values the instance draws from (log 25). -/
  stream : Nat
deriving DecidableEq, Repr

/-- The state after hard reset, R210: the registers at the values of R24 to R33, ENG empty, irq 0, every buffer byte
poisoned. TEMP is unspecified there: all 0 is the model's choice (log 8); `turns`, `resp`, `fresh`, `stream` are the model's (log 13, log 25). -/
def State.reset : State where
  busy := false
  done := false
  err := false
  lastop := 0#4
  errcode := 0#8
  inLen := 0#17
  rlgrBits := 0#20
  rlgrEmit := 0#13
  rlgrKr := 0#4
  rlgrKgr := 0#4
  doneIe := false
  doneIp := false
  krInit := 1#4
  kgrInit := 1#4
  mem := []
  temp := List.replicate 4096 0#16
  eng := none
  irq := false
  turns := []
  resp := .none
  fresh := 0
  stream := 0

end Sys2Proof.Machine
end

