-- ==== Sys2Proof/Machine/Flags.lean ====
section
/-! DEFINITION. The status flags (10_state.md R26, R41), the error codes (60_exceptions.md R191) and the interrupt
wire (10_state.md R40, 60_exceptions.md R197). The block has no condition codes (R41). -/

namespace Sys2Proof.Machine

/-- The code recorded in STATUS.ERRCODE (R191). -/
def errorCode : CmdError → BitVec 8
  | .illegalCmd => 1#8
  | .badChannel => 2#8
  | .badCount => 3#8
  | .badLen => 4#8
  | .badParam => 5#8

/-- The 32-bit value of STATUS, its reserved bits 0 (R26). -/
def statusWord (s : State) : Word :=
  0#16 ++ s.errcode ++ s.lastop ++ 0#1 ++ BitVec.ofBool s.err ++ BitVec.ofBool s.done ++ BitVec.ofBool s.busy

/-- irq <- IRQ_EN.DONE_IE and IRQ_STAT.DONE_IP (R40, R92, R181, R197). -/
def refreshIrq (s : State) : State := { s with irq := s.doneIe && s.doneIp }

end Sys2Proof.Machine
end

