-- ==== Sys2Proof/Machine/Ops.lean ====
section
/-! DEFINITION. The operations on buffer memory, and the shared events of a command's life: soft and hard reset,
acceptance, completion with and without a command error, and the bus error response. -/

namespace Sys2Proof.Machine

/-! Buffer memory: (window offset, byte) pairs, offsets strictly rising; an unlisted byte is poisoned (log 3). -/

/-- The byte at `a`, or none where it is poisoned (70_reset_and_hazards.md R211). -/
def readByte : List Host.Cell → Nat → Option Byte
  | [], _ => none
  | (b, v) :: m, a => if b = a then some v else readByte m a

/-- The `n` bytes from `a` on, or none if one of them is poisoned (R211). It walks a canonical memory once. -/
def readRange : List Host.Cell → Nat → Nat → Option (List Byte)
  | _, _, 0 => some []
  | [], _, _ + 1 => none
  | (b, v) :: m, a, n + 1 =>
    if b < a then readRange m a (n + 1)
    else if b = a then (readRange m (a + 1) n).map (v :: ·)
    else none

/-- The cells below offset `a`. -/
def cellsBelow (m : List Host.Cell) (a : Nat) : List Host.Cell := m.filter fun c => decide (c.1 < a)

/-- The cells from offset `a` on. -/
def cellsFrom (m : List Host.Cell) (a : Nat) : List Host.Cell := m.filter fun c => decide (a ≤ c.1)

/-- The cells that hold the bytes `vs` from offset `a` on. -/
def cellsAt : Nat → List Byte → List Host.Cell
  | _, [] => []
  | a, v :: vs => (a, v) :: cellsAt (a + 1) vs

/-- Write the bytes `vs` from offset `a` on; each becomes defined (R211). -/
def writeRange (m : List Host.Cell) (a : Nat) (vs : List Byte) : List Host.Cell :=
  cellsBelow m a ++ cellsAt a vs ++ cellsFrom m (a + vs.length)

/-- Poison the `n` bytes from offset `a` on (R211). -/
def poisonRange (m : List Host.Cell) (a n : Nat) : List Host.Cell :=
  cellsBelow m a ++ cellsFrom m (a + n)

/-- Strictly rising offsets. -/
def strictlyRising : List Host.Cell → Bool
  | [] => true
  | [_] => true
  | c :: d :: m => decide (c.1 < d.1) && strictlyRising (d :: m)

/-- The canonical form of a memory: its offsets rise strictly. An unlisted byte reads as no value at all, so no entry
can equal what an unlisted byte reads as. -/
def Memory.wf (m : List Host.Cell) : Bool := strictlyRising m

/-! Buffers by element (20_memory.md R51, R53 to R55, R66). -/

/-- Window offset of IN (R51, R55). -/
def inBase : Nat := 0x10000

/-- Window offset of COEF[c] (R51, R53). -/
def coefBase (c : Nat) : Nat := 0x20000 + 0x2000 * c

/-- Window offset of PIX (R51, R54). -/
def pixBase : Nat := 0x30000

/-- IN[k], or none where it is poisoned (R55). -/
def inAt (m : List Host.Cell) (k : Nat) : Option Byte := readByte m (inBase + k)

/-- COEF[c][i], or none where a byte of it is poisoned (R53, 40_host_bus.md R92). -/
def coefAt (m : List Host.Cell) (c i : Nat) : Option Int :=
  match readByte m (coefBase c + 2 * i), readByte m (coefBase c + 2 * i + 1) with
  | some lo, some hi => some (elementOf lo hi)
  | _, _ => none

/-- PIX[i], or none where a byte of it is poisoned (R54). -/
def pixAt (m : List Host.Cell) (i : Nat) : Option Config.Pixel :=
  match readByte m (pixBase + 4 * i), readByte m (pixBase + 4 * i + 1),
    readByte m (pixBase + 4 * i + 2), readByte m (pixBase + 4 * i + 3) with
  | some r, some g, some b, some a => some ⟨r, g, b, a⟩
  | _, _, _, _ => none

/-- IN[0..len-1], or none if a byte of it is poisoned. -/
def loadIn (m : List Host.Cell) (len : Nat) : Option (List Byte) := readRange m inBase len

/-- The 4096 elements of COEF[c], or none if one of them is poisoned. -/
def loadCoefs (m : List Host.Cell) (c : Nat) : Option (List Int) :=
  (readRange m (coefBase c) 8192).map elementsOf

/-- COEF[c][0..] <- vs. -/
def storeCoefs (m : List Host.Cell) (c : Nat) (vs : List Int) : List Host.Cell :=
  writeRange m (coefBase c) (elementsBytes vs)

/-- Poison COEF[c][0..n-1]. -/
def poisonCoefs (m : List Host.Cell) (c n : Nat) : List Host.Cell := poisonRange m (coefBase c) (2 * n)

/-- PIX[0..] <- ps. -/
def storePixels (m : List Host.Cell) (ps : List Config.Pixel) : List Host.Cell :=
  writeRange m pixBase (pixelsBytes ps)

/-- Poison all of PIX. -/
def poisonPixels (m : List Host.Cell) : List Host.Cell := poisonRange m pixBase 16384

/-! Events of the block. -/

/-- TEMP where the spec leaves it unspecified: 4096 free elements (10_state.md R38, log 8). -/
def freeTemp (stream draw : Nat) : List Half := (List.range 4096).map (Config.freeTemp stream draw)

/-- SOFT_RESET (44_control.md R184, 70_reset_and_hazards.md R213): every register at its reset value, ENG empty,
irq 0; IN, COEF, PIX and their marks unchanged; TEMP unspecified. -/
def softReset (s : State) : State :=
  { State.reset with
    mem := s.mem, temp := freeTemp s.stream s.fresh
    turns := s.turns, resp := s.resp, fresh := s.fresh + 1, stream := s.stream }

/-- Hard reset (R210, R212, R213): as SOFT_RESET, with every buffer byte poisoned (log 19). -/
def hardReset (s : State) : State := { softReset s with mem := [] }

/-- Acceptance of a command word (44_control.md R180). -/
def accept (w : Word) (s : State) : State :=
  if w = 7#32 then softReset s
  else
    { s with
      eng := some w
      busy := true, done := false, err := false, errcode := 0#8
      lastop := w.extractLsb' 0 4 }

/-- The end of every completion (R181): BUSY 0, DONE 1, DONE_IP 1, ENG empty, irq recomputed. ERR and ERRCODE
stay as they are: acceptance cleared them. -/
def finish (s : State) : State :=
  refreshIrq { s with busy := false, done := true, doneIp := true, eng := none }

/-- A command error taken (60_exceptions.md R191, R193; 44_control.md R181): completion with ERR = 1 and the code, and
no other effect. -/
def raiseCmdError (e : CmdError) (s : State) : State :=
  finish { s with err := true, errcode := errorCode e }

/-- The host's end of an interrupt: DONE_IP cleared (60_exceptions.md R198, R200; 10_state.md R32). -/
def acknowledge (s : State) : State := { s with doneIp := false }

/-- A bus error taken (60_exceptions.md R195, 40_host_bus.md R93): the BUSERR response and no change of the block. -/
def raiseBusError (c : BusCause) (s : State) : State := { s with resp := .busErr c }

end Sys2Proof.Machine
end

