-- ==== Sys2Proof/Machine/ColorFn.lean ====
section
/-! DEFINITION. The pixel functions of the colour conversions (43_color.md R162, R163, R166, R168;
93_implementation_defined.md G4 to G6; log 11). -/

namespace Sys2Proof.Machine

open Sys2Proof.Config (Pixel ColorMatrix)

/-- A pixel with full opacity: A = 255 (R168). -/
def fullOpacity (p : Pixel) : Pixel := { p with a := 255#8 }

/-- The pixel with the given channel values, each clipped, and A = 255 (R13, R168). -/
def opaquePixel (r g b : Int) : Pixel := ⟨channel (clip8 r), channel (clip8 g), channel (clip8 b), 255#8⟩

/-- The default COLOR_MATRIX (R162). -/
def defaultMatrix : ColorMatrix := ⟨91915, 46818, 22526, 115992⟩

/-- YCBCR with the matrix `M`: exact products and sums, one floor shift by 21, then clip8 (R163). -/
def ycbcr (M : ColorMatrix) (y cb cr : Int) : Pixel :=
  let yv := (y + 4096) * 65536
  opaquePixel
    (asr (yv + M.crR * cr) 21)
    (asr (yv - M.cbG * cb - M.crG * cr) 21)
    (asr (yv + M.cbB * cb) 21)

/-- The chroma value of an element: its low byte shifted left by CLL − 1 and read as a signed byte (R165, R166). -/
def chroma (e : Int) (cll : Nat) : Int := sext8 (zext8 e * 2 ^ (cll - 1))

/-- YCOCG, the default YCOCG_FN (R166). -/
def ycocg (e0 e1 e2 : Int) (cll : Nat) : Pixel :=
  let y := zext8 e0
  let co := chroma e1 cll
  let cg := chroma e2 cll
  opaquePixel (y + co - cg) (y + cg) (y - co - cg)

end Sys2Proof.Machine
end

