-- ==== Sys2Proof/Machine/Lifting.lean ====
section
/-! DEFINITION. The default 1-D inverse liftings (42_dwt.md R131, R134, R141; 93_implementation_defined.md G2, G3;
log 10). Every produced or named value is `sat16` of an exact expression (R131). -/

namespace Sys2Proof.Machine

/-- The even samples of LIFT_NX: out[2n] from lo[n], hi[n-1] and hi[n], with `hprev` for hi[n-1] (R134). -/
def nxEvens : Int → List Int → List Int → List Int
  | hprev, l :: lo, h :: hi => sat16 (l - asr (hprev + h + 1) 1) :: nxEvens h lo hi
  | _, _, _ => []

/-- The odd samples of LIFT_NX put between the even ones: out[2n+1] from hi[n], out[2n] and out[2n+2], the last odd
sample from hi[s-1] and out[2s-2] alone (R134). -/
def nxInterleave : List Int → List Int → List Int
  | e :: f :: evens, h :: hi =>
    e :: sat16 (h * 2 + asr (e + f) 1) :: nxInterleave (f :: evens) hi
  | [e], h :: _ => [e, sat16 (h * 2 + e)]
  | _, _ => []

/-- LIFT_NX, the inverse 5/3 lifting with symmetric extension: for n = 0, hi[n-1] is hi[0] (R134). -/
def liftNx (lo hi : List Int) : List Int :=
  match hi with
  | [] => []
  | h0 :: _ => nxInterleave (nxEvens h0 lo hi) hi

/-- LIFT_X from a running even sample `x0` and high sample `h0` on, with the low and high samples still to come: the
loop of R141, then its tail for nL = nH + 1 or nL = nH + 2. -/
def xSamples : Int → Int → List Int → List Int → List Int
  | x0, h0, l :: lo, h1 :: hi =>
    let x2 := sat16 (l - div2t (h0 + h1))
    let x1 := sat16 (div2t (x0 + x2) + 2 * h0)
    x0 :: x1 :: xSamples x2 h1 lo hi
  | x2, h0, [l], [] =>
    let x0 := sat16 (l - h0)
    [x2, sat16 (div2t (x0 + x2) + 2 * h0), x0]
  | x2, h0, [l, m], [] =>
    let x0 := sat16 (l - div2t h0)
    [x2, sat16 (div2t (x0 + x2) + 2 * h0), x0, sat16 (div2t (x0 + m))]
  | _, _, _, _ => []

/-- LIFT_X, the inverse lifting with extrapolated boundary (R141). -/
def liftX (lo hi : List Int) : List Int :=
  match lo, hi with
  | l0 :: lo, h0 :: hi => xSamples (sat16 (l0 - h0)) h0 lo hi
  | _, _ => []

end Sys2Proof.Machine
end

