-- ==== Sys2Proof/Machine/Params.lean ====
section
/-! DEFINITION. The parameter values the machine runs with: the defaults of 00_scope.md R4 (log 9). -/

namespace Sys2Proof.Machine

/-- The defaults of R4: IN_BYTES 65536, LIFT_NX of R134, LIFT_X of R141, COLOR_MATRIX of R162, YCOCG_FN of R166,
N_INST 4; INST_BASE has none and is the opaque `Config.instIndex` (log 18). -/
def params : Config.Params where
  inBytes := 65536
  liftNx := liftNx
  liftX := liftX
  colorMatrix := defaultMatrix
  ycocgFn := ycocg
  nInst := 4
  instIndex := Config.instIndex

end Sys2Proof.Machine
end

