-- ==== Sys2Proof/Machine/Bus.lean ====
section
/-! DEFINITION. The host bus accesses HOST_READ and HOST_WRITE (40_host_bus.md R90 to R93; 20_memory.md R50 to R60;
10_state.md R23 to R34; 60_exceptions.md R194 to R196). -/

namespace Sys2Proof.Machine

/-- The ten control registers (10_state.md R23). -/
inductive Reg where
  | id | cmd | status | inLen | rlgrBits | rlgrEmit | rlgrKstate | irqEn | irqStat | kinit
deriving DecidableEq, Repr

/-- The mapped regions of the window (20_memory.md R51). -/
inductive Region where
  | regs
  | inBuf
  | coef (c : Nat)
  | pix
deriving DecidableEq, Repr

/-- What an access reaches: a register, or the bytes of a buffer at its offset. -/
inductive Target where
  | reg (r : Reg)
  | buffer
deriving DecidableEq, Repr

/-- The region that holds an offset; none for an unmapped one (R51, R59; 10_state.md R34). -/
def regionOf (P : Config.Params) (off : Nat) : Option Region :=
  if off < 0x28 then some .regs
  else if 0x10000 ≤ off ∧ off < 0x10000 + P.inBytes then some .inBuf
  else if 0x20000 ≤ off ∧ off < 0x22000 then some (.coef 0)
  else if 0x22000 ≤ off ∧ off < 0x24000 then some (.coef 1)
  else if 0x24000 ≤ off ∧ off < 0x26000 then some (.coef 2)
  else if 0x30000 ≤ off ∧ off < 0x34000 then some .pix
  else none

/-- The register at a 4-byte-aligned offset of the register region (R23). -/
def regAt (off : Nat) : Reg :=
  match off with
  | 0x000 => .id
  | 0x004 => .cmd
  | 0x008 => .status
  | 0x00C => .inLen
  | 0x010 => .rlgrBits
  | 0x014 => .rlgrEmit
  | 0x018 => .rlgrKstate
  | 0x01C => .irqEn
  | 0x020 => .irqStat
  | _ => .kinit

/-- What an offset of a region reaches. -/
def targetOf (rg : Region) (off : Nat) : Target :=
  match rg with
  | .regs => .reg (regAt off)
  | _ => .buffer

/-- The targets the host may access while BUSY = 1 (20_memory.md R60). -/
def accessibleWhileBusy : Target → Bool
  | .reg .id => true
  | .reg .status => true
  | .reg .irqEn => true
  | .reg .irqStat => true
  | _ => false

/-- The read-only registers (R23, R90). -/
def isReadOnly : Target → Bool
  | .reg .id => true
  | .reg .status => true
  | .reg .rlgrBits => true
  | .reg .rlgrEmit => true
  | .reg .rlgrKstate => true
  | _ => false

/-- The address decoding of R90, its tests in the order of the bus error priority (60_exceptions.md R196). -/
def classify (P : Config.Params) (s : State) (off n : Nat) (write : Bool) : Except BusCause Target :=
  match regionOf P off with
  | none => .error .unmapped
  | some rg =>
    if off < 0x10000 ∧ n ≠ 4 then .error .width
    else if n ≠ 1 ∧ n ≠ 2 ∧ n ≠ 4 then .error .width
    else if off % n ≠ 0 then .error .misaligned
    else if regionOf P (off + n - 1) ≠ some rg then .error .unmapped
    else if s.busy = true ∧ accessibleWhileBusy (targetOf rg off) = false then .error .busy
    else if write = true ∧ isReadOnly (targetOf rg off) = true then .error .readOnly
    else .ok (targetOf rg off)

/-- The 32-bit value of a register, its reserved bits 0; ID is hard-wired, CMD reads 0 (R24 to R33, R91). -/
def readReg (s : State) : Reg → Word
  | .id => 0x52460001#32
  | .cmd => 0#32
  | .status => statusWord s
  | .inLen => 0#15 ++ s.inLen
  | .rlgrBits => 0#12 ++ s.rlgrBits
  | .rlgrEmit => 0#19 ++ s.rlgrEmit
  | .rlgrKstate => 0#20 ++ s.rlgrKgr ++ 0#4 ++ s.rlgrKr
  | .irqEn => 0#31 ++ BitVec.ofBool s.doneIe
  | .irqStat => 0#31 ++ BitVec.ofBool s.doneIp
  | .kinit => 0#20 ++ s.kgrInit ++ 0#4 ++ s.krInit

/-- The effect of a write of `v` to a register (R92): CMD accepts, IRQ_STAT is cleared by a 1, the RW registers take
their fields. `classify` lets no write reach a read-only register; such a write would change nothing. -/
def writeReg (r : Reg) (v : Word) (s : State) : State :=
  match r with
  | .cmd => accept v s
  | .irqStat => if v.getLsbD 0 then acknowledge s else s
  | .irqEn => { s with doneIe := v.getLsbD 0 }
  | .inLen => { s with inLen := v.extractLsb' 0 17 }
  | .kinit => { s with krInit := v.extractLsb' 0 4, kgrInit := v.extractLsb' 8 4 }
  | .id => s
  | .status => s
  | .rlgrBits => s
  | .rlgrEmit => s
  | .rlgrKstate => s

/-- The byte a host read sees at `a`: a poisoned byte is the free byte of draw `k` of `stream` (R91, R211, log 3,
log 4, log 25). -/
def observeByte (m : List Host.Cell) (stream a k : Nat) : Byte :=
  (readByte m a).getD (Config.freeByte stream k)

/-- The `n` bytes a host read sees from `a` on, from draw `k` on. -/
def observeBytes (m : List Host.Cell) (stream : Nat) : Nat → Nat → Nat → List Byte
  | _, _, 0 => []
  | a, k, n + 1 => observeByte m stream a k :: observeBytes m stream (a + 1) (k + 1) n

/-- HOST_READ with the parameters `P` (R91): the data of the target, or BUSERR. Nothing of the block changes (R58). -/
def hostReadWith (P : Config.Params) (off : Offset) (n : Nat) (s : State) : State :=
  match classify P s off.toNat n false with
  | .error cause => raiseBusError cause s
  | .ok (.reg r) => { s with resp := .data (readReg s r) }
  | .ok .buffer =>
    { s with
      resp := .data (busWord (observeBytes s.mem s.stream off.toNat s.fresh n))
      fresh := s.fresh + n }

/-- HOST_WRITE with the parameters `P` (R92): the effect on the target and irq recomputed, or BUSERR. -/
def hostWriteWith (P : Config.Params) (off : Offset) (n : Nat) (v : Word) (s : State) : State :=
  match classify P s off.toNat n true with
  | .error cause => raiseBusError cause s
  | .ok (.reg r) => { refreshIrq (writeReg r v s) with resp := .done }
  | .ok .buffer =>
    { refreshIrq { s with mem := writeRange s.mem off.toNat (busBytes n v) } with resp := .done }

/-- HOST_READ (R91). -/
def execHostRead (off : Offset) (n : Nat) (s : State) : Host.Outcome State Fault Refusal :=
  .next (hostReadWith params off n s)

/-- HOST_WRITE (R92). -/
def execHostWrite (off : Offset) (n : Nat) (v : Word) (s : State) : Host.Outcome State Fault Refusal :=
  .next (hostWriteWith params off n v s)

end Sys2Proof.Machine
end

