-- ==== Sys2Proof/Machine/Operands.lean ====
section
/-! DEFINITION. What a command's operand fields and the registers it reads stand for (30_encoding.md R71, R75;
10_state.md R27, R33). -/

namespace Sys2Proof.Machine

/-- The channel buffer a CH field selects; CH = 3 is BAD_CHANNEL (R71, R75). -/
def channelOf (ch : BitVec 2) : Except CmdError Nat :=
  if ch = 3#2 then .error .badChannel else .ok ch.toNat

/-- The target coefficient count of a COUNT field; above 4096 is BAD_COUNT (R71, R75). -/
def countOf (count : BitVec 13) : Except CmdError Nat :=
  if 4096 < count.toNat then .error .badCount else .ok count.toNat

/-- The colour-loss level of a CLL field; 0 is BAD_PARAM (R71, R75; 43_color.md R165). -/
def cllOf (cll : BitVec 3) : Except CmdError Nat :=
  if cll = 0#3 then .error .badParam else .ok cll.toNat

/-- IN_LEN.LEN as an input length; above IN_BYTES is BAD_LEN (10_state.md R27, 41_rlgr.md R101). -/
def inputLength (P : Config.Params) (s : State) : Except CmdError Nat :=
  if P.inBytes < s.inLen.toNat then .error .badLen else .ok s.inLen.toNat

/-- The command's next state: its effect where its operands are legal, the command error where they are not
(44_control.md R181, 60_exceptions.md R193). -/
def runChecked {α : Type} (operands : Except CmdError α) (run : α → State → State) (s : State) :
    Host.Outcome State Fault Refusal :=
  match operands with
  | .error e => .next (raiseCmdError e s)
  | .ok x => .next (finish (run x s))

end Sys2Proof.Machine
end

