-- ==== Sys2Proof/Machine/Color.lean ====
section
/-! DEFINITION. YCBCR2RGB and YCOCG2RGB (43_color.md R160 to R169). -/

namespace Sys2Proof.Machine

/-- The pixels of three planes, element by element (R161), each with A = 255 whatever the pixel function gives: no command
writes any other alpha (R168). -/
def convertPlanes (fn : Int → Int → Int → Config.Pixel) : List Int → List Int → List Int → List Config.Pixel
  | a :: as, b :: bs, c :: cs => fullOpacity (fn a b c) :: convertPlanes fn as bs cs
  | _, _, _ => []

/-- The effect of a colour command on PIX: all 4096 pixels from COEF[0..2], or all of PIX poisoned where one element
of the three channels is (R160, R161, R211, log 7). -/
def colorEffect (fn : Int → Int → Int → Config.Pixel) (s : State) : State :=
  { s with
    mem :=
      match loadCoefs s.mem 0, loadCoefs s.mem 1, loadCoefs s.mem 2 with
      | some a, some b, some c => storePixels s.mem (convertPlanes fn a b c)
      | _, _, _ => poisonPixels s.mem }

/-- YCBCR2RGB with the parameters `P` (R164): no operand, no error. -/
def ycbcr2rgbWith (P : Config.Params) (s : State) : Host.Outcome State Fault Refusal :=
  .next (finish (colorEffect (ycbcr P.colorMatrix) s))

/-- YCOCG2RGB with the parameters `P` (R167). -/
def ycocg2rgbWith (P : Config.Params) (cll : BitVec 3) (s : State) : Host.Outcome State Fault Refusal :=
  runChecked (cllOf cll) (fun level s => colorEffect (fun e0 e1 e2 => P.ycocgFn e0 e1 e2 level) s) s

/-- YCBCR2RGB (R164). -/
def execYcbcr2rgb (s : State) : Host.Outcome State Fault Refusal := ycbcr2rgbWith params s

/-- YCOCG2RGB (R167). -/
def execYcocg2rgb (cll : BitVec 3) (s : State) : Host.Outcome State Fault Refusal := ycocg2rgbWith params cll s

end Sys2Proof.Machine
end

