-- ==== Sys2Proof/Machine/Control.lean ====
section
/-! DEFINITION. NOP, CLEAR, SOFT_RESET and the reserved words (44_control.md R182 to R185). -/

namespace Sys2Proof.Machine

/-- NOP: completion alone (R182). -/
def execNop (s : State) : Host.Outcome State Fault Refusal := .next (finish s)

/-- The effect of CLEAR: every element of COEF[c] is 0 and unpoisoned (R183). -/
def clearEffect (c : Nat) (s : State) : State :=
  { s with mem := storeCoefs s.mem c (List.replicate 4096 0) }

/-- CLEAR (R183). -/
def execClear (ch : BitVec 2) (s : State) : Host.Outcome State Fault Refusal :=
  runChecked (channelOf ch) clearEffect s

/-- SOFT_RESET (R184): no completion, DONE and DONE_IP are not set. -/
def execSoftReset (s : State) : Host.Outcome State Fault Refusal := .next (softReset s)

/-- A reserved word: completion with ILLEGAL_CMD (R185, 30_encoding.md R74). -/
def execIllegal (s : State) : Host.Outcome State Fault Refusal := .next (raiseCmdError .illegalCmd s)

end Sys2Proof.Machine
end

