-- ==== Sys2Proof/Machine/Dwt.lean ====
section
/-! DEFINITION. DWT_INV_NX and DWT_INV_X (42_dwt.md R130 to R145). -/

namespace Sys2Proof.Machine

/-- `count` consecutive rows of `width` elements each, row-major (R132). -/
def rowsOf (width : Nat) : Nat → List Int → List (List Int)
  | 0, _ => []
  | count + 1, vs => vs.take width :: rowsOf width count (vs.drop width)

/-- Column `x` of some rows. -/
def columnOf (x : Nat) (rows : List (List Int)) : List Int := rows.map fun r => r.getD x 0

/-- The horizontal pass of a level on the subbands HL, LH, HH, LL that lie one after another in `blk`: the rows of
TEMP (R133). -/
def horizontalPass (f : List Int → List Int → List Int) (nL nH : Nat) (blk : List Int) : List (List Int) :=
  let hl := rowsOf nH nL blk
  let lh := rowsOf nL nH (blk.drop (nH * nL))
  let hh := rowsOf nH nH (blk.drop (2 * nH * nL))
  let ll := rowsOf nL nL (blk.drop (2 * nH * nL + nH * nH))
  List.zipWith f ll hl ++ List.zipWith f lh hh

/-- The vertical pass of a level, column by column of TEMP: the columns of the level's output (R133). -/
def verticalPass (f : List Int → List Int → List Int) (nL nH : Nat) (temp : List (List Int)) : List (List Int) :=
  (List.range (nL + nH)).map fun x =>
    let col := columnOf x temp
    f (col.take nL) (col.drop nL)

/-- The 2-D level step LEVEL(b, nL, nH, f): the t×t output, t = nL + nH, row-major from b on; the rest of B is
untouched (R133). -/
def level (f : List Int → List Int → List Int) (b nL nH : Nat) (B : List Int) : List Int :=
  let cols := verticalPass f nL nH (horizontalPass f nL nH (B.drop b))
  let t := nL + nH
  B.take b ++ (List.range t).flatMap (fun y => columnOf y cols) ++ B.drop (b + t * t)

/-- DWT_NX: the levels 3, 2, 1 of the non-extrapolated layout (R135, R136). -/
def dwtNx (f : List Int → List Int → List Int) (B : List Int) : List Int :=
  level f 0 32 32 (level f 3072 16 16 (level f 3840 8 8 B))

/-- DWT_X: the levels 3, 2, 1 of the extrapolated layout (R138, R139, R142). -/
def dwtX (f : List Int → List Int → List Int) (B : List Int) : List Int :=
  level f 0 33 31 (level f 3007 17 16 (level f 3807 9 8 B))

/-- The effect of a DWT command on channel `c`: COEF[c] transformed in place, or poisoned whole where one of its
elements is (R130, R145, R211); TEMP left unspecified (R137, R143, log 8). -/
def dwtEffect (transform : List Int → List Int) (c : Nat) (s : State) : State :=
  { s with
    mem :=
      match loadCoefs s.mem c with
      | none => poisonCoefs s.mem c 4096
      | some B => storeCoefs s.mem c (transform B)
    temp := freeTemp s.stream s.fresh
    fresh := s.fresh + 1 }

/-- DWT_INV_NX with the parameters `P` (R137). -/
def dwtInvNxWith (P : Config.Params) (ch : BitVec 2) (s : State) : Host.Outcome State Fault Refusal :=
  runChecked (channelOf ch) (dwtEffect (dwtNx P.liftNx)) s

/-- DWT_INV_X with the parameters `P` (R143). -/
def dwtInvXWith (P : Config.Params) (ch : BitVec 2) (s : State) : Host.Outcome State Fault Refusal :=
  runChecked (channelOf ch) (dwtEffect (dwtX P.liftX)) s

/-- DWT_INV_NX (R137). -/
def execDwtInvNx (ch : BitVec 2) (s : State) : Host.Outcome State Fault Refusal := dwtInvNxWith params ch s

/-- DWT_INV_X (R143). -/
def execDwtInvX (ch : BitVec 2) (s : State) : Host.Outcome State Fault Refusal := dwtInvXWith params ch s

end Sys2Proof.Machine
end

