-- ==== Sys2Proof/Machine/Rlgr.lean ====
section
/-! DEFINITION. RLGR_DECODE (41_rlgr.md R100 to R116). -/

namespace Sys2Proof.Machine

/-- The bits of a byte in stream order, bit 7 first (R103). -/
def bitsOfByte (b : Byte) : List Bool :=
  [b.getLsbD 7, b.getLsbD 6, b.getLsbD 5, b.getLsbD 4, b.getLsbD 3, b.getLsbD 2, b.getLsbD 1, b.getLsbD 0]

/-- The input stream bit(0) … bit(8L − 1) of the bytes IN[0..L−1] (R102, R103). -/
def streamBits (bytes : List Byte) : List Bool := bytes.flatMap bitsOfByte

/-- A unary quotient: the number of 0-bits before the first 1-bit, and the stream after that bit; none where the
stream ends first (R105). -/
def readUnary : List Bool → Option (Nat × List Bool)
  | [] => none
  | true :: rest => some (0, rest)
  | false :: rest =>
    match readUnary rest with
    | some (q, rest') => some (q + 1, rest')
    | none => none

/-- readbits(n): `n` bits read as an unsigned number, the first bit most significant, and the stream after them; none
where the stream is shorter (00_scope.md R10). -/
def readBits : Nat → List Bool → Option (Nat × List Bool)
  | 0, bits => some (0, bits)
  | _ + 1, [] => none
  | n + 1, b :: rest =>
    match readBits n rest with
    | some (v, rest') => some (b.toNat * 2 ^ n + v, rest')
    | none => none

/-- A complete symbol (R104): what it stands for, the number of stream bits it took, and the stream after it. -/
inductive Symbol where
  /-- A run of `run` zero coefficients (R106). -/
  | zeroRun (run : Nat)
  /-- One nonzero coefficient of magnitude `mag + 1`, negative if `neg` (R107). -/
  | value (mag : Nat) (neg : Bool)
deriving DecidableEq, Repr

/-- The next symbol with the parameters kR and kGR, its length in bits and the rest of the stream; none where the
stream ends before the symbol is complete (R105 to R107, R111). -/
def readSymbol (kR kGR : Nat) (bits : List Bool) : Option (Symbol × Nat × List Bool) :=
  match readUnary bits with
  | none => none
  | some (0, rest) =>
    match readBits kR rest with
    | none => none
    | some (v, rest') => some (.zeroRun (v + 1), 1 + kR, rest')
  | some (q + 1, rest) =>
    match readBits kGR rest with
    | none => none
    | some (rem, rest') =>
      match rest' with
      | [] => none
      | sign :: rest'' => some (.value (q * 2 ^ kGR + rem) sign, q + 2 + kGR + 1, rest'')

/-- The coefficients a symbol emits when `room` output slots are left (R106, R107, R113). -/
def emitted (room : Nat) : Symbol → List Int
  | .zeroRun run => List.replicate (min run room) 0
  | .value mag neg => [sat16 (if neg then -(mag + 1 : Int) else (mag + 1 : Int))]

/-- kR after a symbol: up by 1, at most 15, after a zero run and after a nonzero value (R109). -/
def nextKr (kR : Nat) : Symbol → Nat
  | .zeroRun _ => min (kR + 1) 15
  | .value _ _ => min (kR + 1) 15

/-- kGR after a symbol: unchanged by a zero run, down by floor_log2(mag + 1), at least 0, after a value (R108). -/
def nextKgr (kGR : Nat) : Symbol → Nat
  | .zeroRun _ => kGR
  | .value mag _ => kGR - floorLog2 (mag + 1)

/-- What the symbols of a stream give: the coefficients they emit, the stream position after the last complete symbol
and the parameters after it (R114). -/
structure Decoded where
  coefs : List Int
  pos : Nat
  kR : Nat
  kGR : Nat
deriving DecidableEq, Repr

/-- The symbols' loop of R104 with `room` output slots left. Every symbol fills at least one slot, so `fuel = room`
is enough. -/
def decodeSymbols : Nat → Nat → Nat → Nat → Nat → List Bool → Decoded
  | 0, _, pos, kR, kGR, _ => ⟨[], pos, kR, kGR⟩
  | fuel + 1, room, pos, kR, kGR, bits =>
    if room = 0 then ⟨[], pos, kR, kGR⟩
    else
      match readSymbol kR kGR bits with
      | none => ⟨[], pos, kR, kGR⟩
      | some (sym, len, rest) =>
        let out := emitted room sym
        let d := decodeSymbols fuel (room - out.length) (pos + len) (nextKr kR sym) (nextKgr kGR sym) rest
        { d with coefs := out ++ d.coefs }

/-- The decode of `count` coefficients from the bytes, starting at kR and kGR (R104). -/
def decodeStream (count kR kGR : Nat) (bytes : List Byte) : Decoded :=
  decodeSymbols count count 0 kR kGR (streamBits bytes)

/-- The coefficients with the slots that no symbol filled at 0 (R112). -/
def zeroFill (count : Nat) (coefs : List Int) : List Int :=
  coefs ++ List.replicate (count - coefs.length) 0

/-- The operands of RLGR_DECODE checked in the order of R101: the channel, the count, the input length. -/
def rlgrOperands (P : Config.Params) (ch : BitVec 2) (count : BitVec 13) (s : State) :
    Except CmdError (Nat × Nat × Nat) := do
  let c ← channelOf ch
  let n ← countOf count
  let len ← inputLength P s
  return (c, n, len)

/-- The effect of RLGR_DECODE on checked operands: COEF[c][0..n−1] and the result registers (R104, R112 to R114).
Where a byte of IN[0..len−1] is poisoned, the elements are poisoned and the registers free (R211, log 5, log 6). -/
def rlgrEffect (x : Nat × Nat × Nat) (s : State) : State :=
  match x with
  | (c, n, len) =>
    match loadIn s.mem len with
    | none =>
      { s with
        mem := poisonCoefs s.mem c n
        rlgrBits := Config.freeBits s.stream s.fresh, rlgrEmit := Config.freeEmit s.stream s.fresh
        rlgrKr := Config.freeKr s.stream s.fresh, rlgrKgr := Config.freeKgr s.stream s.fresh
        fresh := s.fresh + 1 }
    | some bytes =>
      let d := decodeStream n s.krInit.toNat s.kgrInit.toNat bytes
      { s with
        mem := storeCoefs s.mem c (zeroFill n d.coefs)
        rlgrBits := BitVec.ofNat 20 d.pos, rlgrEmit := BitVec.ofNat 13 d.coefs.length
        rlgrKr := BitVec.ofNat 4 d.kR, rlgrKgr := BitVec.ofNat 4 d.kGR }

/-- RLGR_DECODE with the parameters `P` (R100). -/
def rlgrDecodeWith (P : Config.Params) (ch : BitVec 2) (count : BitVec 13) (s : State) :
    Host.Outcome State Fault Refusal :=
  runChecked (rlgrOperands P ch count s) rlgrEffect s

/-- RLGR_DECODE (R100). -/
def execRlgrDecode (ch : BitVec 2) (count : BitVec 13) (s : State) : Host.Outcome State Fault Refusal :=
  rlgrDecodeWith params ch count s

end Sys2Proof.Machine
end

