-- ==== Sys2Proof/Machine/Dispatch.lean ====
section
/-! DEFINITION. The meaning of every operation of spec/opcode_table.json: a command's completion step
(44_control.md R181), SOFT_RESET as performed at acceptance (R180), a host access (40_host_bus.md R91, R92). -/

namespace Sys2Proof.Machine

def exec (i : Instr) (s : State) : Host.Outcome State Fault Refusal :=
  match i with
  | .nop => Sys2Proof.Machine.execNop s
  | .rlgrDecode ch count => Sys2Proof.Machine.execRlgrDecode ch count s
  | .dwtInvNx ch => Sys2Proof.Machine.execDwtInvNx ch s
  | .dwtInvX ch => Sys2Proof.Machine.execDwtInvX ch s
  | .ycbcr2rgb => Sys2Proof.Machine.execYcbcr2rgb s
  | .ycocg2rgb cll => Sys2Proof.Machine.execYcocg2rgb cll s
  | .clear ch => Sys2Proof.Machine.execClear ch s
  | .softReset => Sys2Proof.Machine.execSoftReset s
  | .illegal _ => Sys2Proof.Machine.execIllegal s
  | .hostRead off n => Sys2Proof.Machine.execHostRead off n s
  | .hostWrite off n v => Sys2Proof.Machine.execHostWrite off n v s

end Sys2Proof.Machine
end

