-- ==== Sys2Proof/WellFormed.lean ====
section
/-! DEFINITION. Which terms of `Instr` stand for an operation of the spec: a reserved word must be reserved by the
match and mask table of 30_encoding.md R72, and a host access has one of the widths of 00_scope.md R8. -/

namespace Sys2Proof

/-- A row of the match and mask table of R72: `w` selects it when `w &&& mask = value`. -/
structure CommandRow where
  mask : Word
  value : Word
deriving DecidableEq, Repr

/-- The eight rows of R72, in the order of their opcodes. -/
def commandRows : List CommandRow :=
  [ ⟨0xFFFFFFFF#32, 0x00000000#32⟩,
    ⟨0xE000FFCF#32, 0x00000001#32⟩,
    ⟨0xFFFFFFCF#32, 0x00000002#32⟩,
    ⟨0xFFFFFFCF#32, 0x00000003#32⟩,
    ⟨0xFFFFFFFF#32, 0x00000004#32⟩,
    ⟨0xFFFFF8FF#32, 0x00000005#32⟩,
    ⟨0xFFFFFFCF#32, 0x00000006#32⟩,
    ⟨0xFFFFFFFF#32, 0x00000007#32⟩ ]

/-- `w` selects the row (R72). -/
def CommandRow.selects (r : CommandRow) (w : Word) : Bool := w &&& r.mask == r.value

/-- No row of R72 selects `w`: the reserved words of R74. -/
def isReserved (w : Word) : Bool := commandRows.all fun r => !(r.selects w)

/-- The access widths of 00_scope.md R8. -/
def isWidth (n : Nat) : Bool := n == 1 || n == 2 || n == 4

/-- The check of one term. A command's operands have their fields' widths, so every command term is well formed,
also with a field value that completes with an error (30_encoding.md R75). -/
def Instr.wellFormed : Instr → Bool
  | .nop => true
  | .rlgrDecode _ _ => true
  | .dwtInvNx _ => true
  | .dwtInvX _ => true
  | .ycbcr2rgb => true
  | .ycocg2rgb _ => true
  | .clear _ => true
  | .softReset => true
  | .illegal w => isReserved w
  | .hostRead _ n => isWidth n
  | .hostWrite _ n _ => isWidth n

end Sys2Proof
end

