-- ==== Sys2Proof/Decode.lean ====
section
/-! DEFINITION. Decoding of command words and bus transactions (30_encoding.md R71 to R74; 40_host_bus.md R91,
R92), the byte form of a command word (20_memory.md R52), and the encoder. -/

namespace Sys2Proof

/-! Fields of a command word (R71). -/

/-- OP, w[3:0]. -/
def fieldOp (w : Word) : BitVec 4 := w.extractLsb' 0 4

/-- CH, w[5:4]. -/
def fieldCh (w : Word) : BitVec 2 := w.extractLsb' 4 2

/-- CLL, w[10:8]. -/
def fieldCll (w : Word) : BitVec 3 := w.extractLsb' 8 3

/-- COUNT, w[28:16]. -/
def fieldCount (w : Word) : BitVec 13 := w.extractLsb' 16 13

/-- Decode of a command word, total on every 32-bit word: the procedure of R73, opcode by opcode with the fields
that must be 0. -/
def decodeWord (w : Word) : Instr :=
  match (fieldOp w).toNat with
  | 0 => if w.extractLsb' 4 28 = 0#28 then .nop else .illegal w
  | 1 =>
    if w.extractLsb' 6 2 = 0#2 ∧ w.extractLsb' 8 8 = 0#8 ∧ w.extractLsb' 29 3 = 0#3 then
      .rlgrDecode (fieldCh w) (fieldCount w)
    else .illegal w
  | 2 => if w.extractLsb' 6 26 = 0#26 then .dwtInvNx (fieldCh w) else .illegal w
  | 3 => if w.extractLsb' 6 26 = 0#26 then .dwtInvX (fieldCh w) else .illegal w
  | 4 => if w.extractLsb' 4 28 = 0#28 then .ycbcr2rgb else .illegal w
  | 5 =>
    if w.extractLsb' 4 4 = 0#4 ∧ w.extractLsb' 11 21 = 0#21 then .ycocg2rgb (fieldCll w)
    else .illegal w
  | 6 => if w.extractLsb' 6 26 = 0#26 then .clear (fieldCh w) else .illegal w
  | 7 => if w.extractLsb' 4 28 = 0#28 then .softReset else .illegal w
  | _ => .illegal w

/-- Decode of a bus transaction: a read or a write (40_host_bus.md R91, R92). -/
def decodeAccess (t : BusAccess) : Instr :=
  if t.write then .hostWrite t.off t.n t.v else .hostRead t.off t.n

/-- Decode of either form. -/
def decode : Encoding → Instr
  | .command w => decodeWord w
  | .access t => decodeAccess t

/-- Why a byte sequence is no command word. -/
inductive DecodeError where
  /-- A command word is always four bytes (R70). -/
  | notFourBytes
deriving DecidableEq, Repr

/-- The word whose four bytes are given, the byte at the lowest offset least significant (20_memory.md R52). -/
def wordOfBytes (b0 b1 b2 b3 : Byte) : Word := b3 ++ b2 ++ b1 ++ b0

/-- Decode of a command word's bytes as the host stores them, total on any bytes. -/
def decodeBytes : List Byte → Except DecodeError Instr
  | [b0, b1, b2, b3] => .ok (decodeWord (wordOfBytes b0 b1 b2 b3))
  | _ => .error .notFourBytes

/-- The first `k` bytes of `w`, the least significant first (R52). -/
def littleEndian : Nat → Nat → List Byte
  | 0, _ => []
  | k + 1, w => BitVec.ofNat 8 w :: littleEndian k (w / 256)

/-- The instruction the decoder reads from a word of `nbits` bits with value `w`: its bytes, at least the four of a
command word, given to `decodeBytes`. -/
def decodeTableWord (nbits w : Nat) : Option Instr :=
  match decodeBytes (littleEndian (max 4 ((nbits + 7) / 8)) (w % 2 ^ nbits)) with
  | .ok i => some i
  | .error _ => none

/-! The encoder (R71, R72, R77). -/

/-- The command word with the given fields and every reserved field 0 (R71). -/
def commandWord (op : BitVec 4) (ch : BitVec 2) (cll : BitVec 3) (count : BitVec 13) : Word :=
  0#3 ++ count ++ 0#5 ++ cll ++ 0#2 ++ ch ++ op

/-- The encoding of an operation: a command's word from its opcode and operands (R72), a reserved word as it is,
a host access as its transaction. -/
def encode : Instr → Encoding
  | .nop => .command (commandWord 0#4 0#2 0#3 0#13)
  | .rlgrDecode ch count => .command (commandWord 1#4 ch 0#3 count)
  | .dwtInvNx ch => .command (commandWord 2#4 ch 0#3 0#13)
  | .dwtInvX ch => .command (commandWord 3#4 ch 0#3 0#13)
  | .ycbcr2rgb => .command (commandWord 4#4 0#2 0#3 0#13)
  | .ycocg2rgb cll => .command (commandWord 5#4 0#2 cll 0#13)
  | .clear ch => .command (commandWord 6#4 ch 0#3 0#13)
  | .softReset => .command (commandWord 7#4 0#2 0#3 0#13)
  | .illegal w => .command w
  | .hostRead off n => .access ⟨false, off, n, 0#32⟩
  | .hostWrite off n v => .access ⟨true, off, n, v⟩

end Sys2Proof
end

