-- ==== Sys2Proof/Machine/Schedule.lean ====
section
/-! DEFINITION. One step over any meaning of the operations: the next turn of the schedule (00_scope.md R15, R16;
20_memory.md R61; 60_exceptions.md R206; 70_reset_and_hazards.md R223; log 1, log 2). -/

namespace Sys2Proof.Machine

/-- What the operations mean in a state. -/
abbrev Meaning := Instr → State → Host.Outcome State Fault Refusal

/-- The engine's completion step of R181: the latched word decoded and performed. -/
def engineStepBy (meaning : Meaning) (s : State) : Host.Outcome State Fault Refusal :=
  match s.eng with
  | none => .fault .engineEmpty
  | some w => meaning (decodeWord w) s

/-- One step: the host access, engine turn or hard reset that `turns` names next. An engine turn does nothing while
BUSY = 0, where the engine has no enabled step (R223). With no turn left the engine completes a command that is
outstanding (weak fairness, R15, R16), and an idle block stays as it is (R223). -/
def stepBy (meaning : Meaning) (s : State) : Host.Outcome State Fault Refusal :=
  match s.turns with
  | [] => if s.busy then engineStepBy meaning s else .next s
  | .access t :: rest => meaning (decodeAccess t) { s with turns := rest }
  | .engine :: rest =>
    if s.busy then engineStepBy meaning { s with turns := rest } else .next { s with turns := rest }
  | .hardReset :: rest => .next (hardReset { s with turns := rest })

/-- The bus transaction of `wr32 CMD, w` (30_encoding.md R70, R77). -/
def commandWrite (w : Word) : BusAccess := ⟨true, 0x004#18, 4, w⟩

/-- `s` made ready so that the very next step performs the command word `w`: the word accepted and the engine's turn
next; for SOFT_RESET, which is performed at acceptance (44_control.md R180, R184), an idle block and the host's CMD
write next (log 1). -/
def placeCommand (w : Word) (s : State) : State :=
  if w = 7#32 then { s with busy := false, eng := none, turns := .access (commandWrite w) :: s.turns }
  else { accept w s with turns := .engine :: s.turns }

end Sys2Proof.Machine
end

