-- ==== Sys2Proof/Machine/Step.lean ====
section
/-! DEFINITION. One step of an instance with the parameters' defaults, and the state in which a given command word is
performed next (log 1, log 2, log 9). -/

namespace Sys2Proof.Machine

/-- One step: the next turn of the schedule, its operation performed by `exec`. -/
def step (s : State) : Host.Outcome State Fault Refusal := stepBy exec s

/-- `s` made ready so that the very next step performs the command word of the low `nbits` bits of `w`. -/
def State.withFetchWord (s : State) (nbits w : Nat) : State := placeCommand (BitVec.ofNat 32 (w % 2 ^ nbits)) s

end Sys2Proof.Machine
end

