-- ==== Sys2Proof/Machine/Parametric.lean ====
section
/-! DEFINITION. The machine with any values of the parameters of 00_scope.md R4 (93_implementation_defined.md U12 to U14;
log 9). `exec` and `step` are this machine at the defaults. -/

namespace Sys2Proof.Machine

/-- The meaning of every operation with the parameters `P`. -/
def execWith (P : Config.Params) (i : Instr) (s : State) : Host.Outcome State Fault Refusal :=
  match i with
  | .nop => execNop s
  | .rlgrDecode ch count => rlgrDecodeWith P ch count s
  | .dwtInvNx ch => dwtInvNxWith P ch s
  | .dwtInvX ch => dwtInvXWith P ch s
  | .ycbcr2rgb => ycbcr2rgbWith P s
  | .ycocg2rgb cll => ycocg2rgbWith P cll s
  | .clear ch => execClear ch s
  | .softReset => execSoftReset s
  | .illegal _ => execIllegal s
  | .hostRead off n => .next (hostReadWith P off n s)
  | .hostWrite off n v => .next (hostWriteWith P off n v s)

/-- One step with the parameters `P`. -/
def stepWith (P : Config.Params) (s : State) : Host.Outcome State Fault Refusal := stepBy (execWith P) s

/-- The machine with the parameters `P`. -/
def machineWith (P : Config.Params) : Host.Core where
  State := State
  Fault := Fault
  Refusal := Refusal
  step := stepWith P
  reset := State.reset

end Sys2Proof.Machine
end

