-- ==== Sys2Proof/Machine/Platform.lean ====
section
/-! DEFINITION. The platform around one instance: N_INST independent instances in the host's 32-bit address space, for any
values of the parameters (00_scope.md R4, R8; 20_memory.md R50; 60_exceptions.md R202; log 17, log 18). -/

namespace Sys2Proof.Machine

/-- The instances 0, 1, … of the platform. They share no state (R202). -/
abbrev Platform := List State

/-- The platform after reset: N_INST instances, each as R210 leaves it, each with a stream of free values of its own
(log 25). -/
def platformReset (P : Config.Params) : Platform :=
  (List.range P.nInst).map fun k => { State.reset with stream := k }

/-- The instance in whose window a host byte address lies, and the offset in it; none for an address in no window,
which is no access to the block (R50). -/
def selectInstance (P : Config.Params) (addr : Word) : Option (Nat × Offset) :=
  ((List.range P.nInst).find? fun k => P.instIndex k == addr.extractLsb' 18 14).map
    fun k => (k, addr.extractLsb' 0 18)

/-- A turn put last on the schedule of instance `k`. -/
def schedule (k : Nat) (t : Turn) (p : Platform) : Platform :=
  p.modify k fun s => { s with turns := s.turns ++ [t] }

/-- MemRead(addr, n) of R8, issued to the instance that `addr` selects. -/
def memRead (P : Config.Params) (addr : Word) (n : Nat) (p : Platform) : Platform :=
  match selectInstance P addr with
  | none => p
  | some (k, off) => schedule k (.access ⟨false, off, n, 0#32⟩) p

/-- MemWrite(addr, n, v) of R8, issued to the instance that `addr` selects. -/
def memWrite (P : Config.Params) (addr : Word) (n : Nat) (v : Word) (p : Platform) : Platform :=
  match selectInstance P addr with
  | none => p
  | some (k, off) => schedule k (.access ⟨true, off, n, v⟩) p

/-- One step of instance `k`. -/
def stepInstance (P : Config.Params) (k : Nat) (p : Platform) : Host.Outcome Platform Fault Refusal :=
  match p[k]? with
  | none => .next p
  | some s =>
    match stepWith P s with
    | .next t => .next (p.set k t)
    | .fault f => .fault f
    | .refused r => .refused r

/-- The irq wire of instance `k` (R202, 60_exceptions.md R197). -/
def irqWire (k : Nat) (p : Platform) : Bool :=
  match p[k]? with
  | none => false
  | some s => s.irq

end Sys2Proof.Machine
end

