-- ==== Sys2Proof/Machine/HostProgram.lean ====
section
/-! DEFINITION. The lines of a host program and what they expand to (30_encoding.md R76 to R78): accesses relative to an
instance's base, as turns of that instance's schedule or issued to the platform. Text, comments and names are the
assembler's (log 21). -/

namespace Sys2Proof.Machine

/-- One line of a host program. An offset is any number: R76 adds it to INST_BASE. A `wait` says how many reads of STATUS
still see BUSY = 1 before the engine completes: the scheduler's choice (R78, 93_implementation_defined.md U9). -/
inductive HostOp where
  /-- `rd8`, `rd16`, `rd32` by the width `n` (R76). -/
  | rd (n off : Nat)
  /-- `wr8`, `wr16`, `wr32` by the width `n` (R76). -/
  | wr (n off : Nat) (v : Word)
  /-- `.cmd WORD` and every command mnemonic (R77). -/
  | cmd (w : Word)
  /-- `wait` (R78). -/
  | wait (polls : Nat)
  /-- `ack` (R78). -/
  | ack
  /-- `run X` of the command word of X (R78). -/
  | run (w : Word) (polls : Nat)
  /-- `check`: the read of STATUS whose bit 2 the host's program then asserts to be 0 (R78). -/
  | check
  /-- `fill32 OFF, K, VAL` (R78). -/
  | fill32 (off k : Nat) (v : Word)
  /-- `fill16 OFF, K, VAL` (R78). -/
  | fill16 (off k : Nat) (v : Word)
deriving DecidableEq, Repr

/-- What happens at a line: a bus access of the host at an offset from the base, or the completion a `wait` waits for. -/
inductive HostEvent where
  /-- `rd OFF` of `n` bytes. -/
  | read (n off : Nat)
  /-- `wr OFF, v` of `n` bytes. -/
  | write (n off : Nat) (v : Word)
  /-- The engine's turn. -/
  | engine
deriving DecidableEq, Repr

/-- The events of `wait`: `polls` reads of STATUS while BUSY = 1, then the engine's completion, then the read that sees
BUSY = 0 (R78). -/
def waitEvents (polls : Nat) : List HostEvent :=
  List.replicate polls (.read 4 0x008) ++ [.engine, .read 4 0x008]

/-- What a line expands to (R76 to R78). -/
def HostOp.events : HostOp → List HostEvent
  | .rd n off => [.read n off]
  | .wr n off v => [.write n off v]
  | .cmd w => [.write 4 0x004 w]
  | .wait polls => waitEvents polls
  | .ack => [.write 4 0x020 1#32]
  | .run w polls => .write 4 0x004 w :: waitEvents polls
  | .check => [.read 4 0x008]
  | .fill32 off k v => (List.range k).map fun j => .write 4 (off + 4 * j) v
  | .fill16 off k v => (List.range k).map fun j => .write 2 (off + 2 * j) v

/-- An event as a turn of the instance whose base the offsets are relative to; none for an offset outside its window,
which is no access to it (20_memory.md R50; 95_test_vectors.md B5). -/
def HostEvent.turn : HostEvent → Option Turn
  | .read n off => if off < 0x40000 then some (.access ⟨false, BitVec.ofNat 18 off, n, 0#32⟩) else none
  | .write n off v => if off < 0x40000 then some (.access ⟨true, BitVec.ofNat 18 off, n, v⟩) else none
  | .engine => some .engine

/-- The turns a line puts on the schedule of the instance it is written for. -/
def HostOp.turns (op : HostOp) : List Turn := op.events.filterMap HostEvent.turn

/-- An event issued to the platform by the host of instance `k`: an access goes to the address INST_BASE[k] + OFF (R76),
which can lie in the window of another instance or of none; an address past the host's 32 bits is no access (log 21). -/
def HostEvent.issue (P : Config.Params) (k : Nat) (p : Platform) : HostEvent → Platform
  | .read n off =>
    let addr := (P.instBase k).toNat + off
    if addr < 2 ^ 32 then memRead P (BitVec.ofNat 32 addr) n p else p
  | .write n off v =>
    let addr := (P.instBase k).toNat + off
    if addr < 2 ^ 32 then memWrite P (BitVec.ofNat 32 addr) n v p else p
  | .engine => schedule k .engine p

/-- A line issued to the platform by the host of instance `k`. -/
def HostOp.issue (P : Config.Params) (k : Nat) (op : HostOp) (p : Platform) : Platform :=
  op.events.foldl (HostEvent.issue P k) p

/-- `rlgr.dec ch=C, n=N`: the word, or a rejection where an operand does not fit its field (R77). -/
def asmRlgrDec (c n : Nat) : Option Word :=
  if c ≤ 3 ∧ n ≤ 8191 then some (commandWord 1#4 (BitVec.ofNat 2 c) 0#3 (BitVec.ofNat 13 n)) else none

/-- `dwt.inv.nx ch=C` (R77). -/
def asmDwtInvNx (c : Nat) : Option Word :=
  if c ≤ 3 then some (commandWord 2#4 (BitVec.ofNat 2 c) 0#3 0#13) else none

/-- `dwt.inv.x ch=C` (R77). -/
def asmDwtInvX (c : Nat) : Option Word :=
  if c ≤ 3 then some (commandWord 3#4 (BitVec.ofNat 2 c) 0#3 0#13) else none

/-- `ycocg2rgb cll=L` (R77). -/
def asmYcocg2rgb (l : Nat) : Option Word :=
  if l ≤ 7 then some (commandWord 5#4 0#2 (BitVec.ofNat 3 l) 0#13) else none

/-- `clear ch=C` (R77). -/
def asmClear (c : Nat) : Option Word :=
  if c ≤ 3 then some (commandWord 6#4 (BitVec.ofNat 2 c) 0#3 0#13) else none

end Sys2Proof.Machine
end

