-- ==== Sys2Proof/Safety.lean ====
section
/-! DEFINITION. Runs, and what every reachable state of an instance satisfies, in the terms the statements use. -/

namespace Sys2Proof.Machine

/-- `k` steps from `s`, stopping at the first fault or refusal. -/
def runSteps : Nat → State → Host.Outcome State Fault Refusal
  | 0, s => .next s
  | k + 1, s =>
    match step s with
    | .next t => runSteps k t
    | .fault f => .fault f
    | .refused r => .refused r

/-- A run never stops: every number of steps gives a next state. -/
def NeverStops (s : State) : Prop := ∀ k, ∃ t, runSteps k s = .next t

/-- The window offsets that hold a byte of IN, COEF or PIX, with the parameters `P` (20_memory.md R51). -/
def isBufferByte (P : Config.Params) (a : Nat) : Bool :=
  decide (0x10000 ≤ a ∧ a < 0x10000 + P.inBytes) || decide (0x20000 ≤ a ∧ a < 0x26000)
    || decide (0x30000 ≤ a ∧ a < 0x34000)

/-- The legal combinations of STATUS.BUSY, DONE and ERR (10_state.md R26). -/
def legalStatus (busy done err : Bool) : Bool :=
  match busy, done, err with
  | false, false, false => true
  | true, false, false => true
  | false, true, false => true
  | false, true, true => true
  | _, _, _ => false

/-- What holds of every state a run from reset reaches, with the parameters `P`. -/
structure BlockInv (P : Config.Params) (s : State) : Prop where
  /-- The memory keeps its canonical form. -/
  memory : Memory.wf s.mem = true
  /-- It lists bytes of the buffers only (R51). -/
  buffers : ∀ c ∈ s.mem, isBufferByte P c.1 = true
  /-- irq = IRQ_EN.DONE_IE ∧ IRQ_STAT.DONE_IP (10_state.md R40). -/
  irq : s.irq = (s.doneIe && s.doneIp)
  /-- ENG holds a command word exactly while BUSY = 1 (10_state.md R39). -/
  engine : s.busy = s.eng.isSome
  /-- SOFT_RESET never reaches completion (44_control.md R180). -/
  notSoftReset : s.eng ≠ some 7#32
  /-- LASTOP is bits [3:0] of the last accepted word (R26, R180). -/
  lastop : ∀ w, s.eng = some w → s.lastop = w.extractLsb' 0 4
  /-- The combination of BUSY, DONE and ERR is legal (R26). -/
  status : legalStatus s.busy s.done s.err = true
  /-- ERRCODE is 0 without an error (R26) and one of the codes 1 to 5 with one (60_exceptions.md R191). -/
  errcode : if s.err then 1 ≤ s.errcode.toNat ∧ s.errcode.toNat ≤ 5 else s.errcode = 0#8
  /-- TEMP has its 4096 elements (10_state.md R38). -/
  temp : s.temp.length = 4096

end Sys2Proof.Machine
end

