-- ==== Sys2Proof/Certificates/Slice0/Obligations.lean ====
section
/-! DEFINITION. The statements about the block, each a `def Obligations.<Name> : Prop`, and the few terms they use that
the machine does not: next states written out field by field, and an RLGR bit writer for the decoder's round trip. -/

namespace Sys2Proof.Terms

open Sys2Proof.Machine

/-- Every byte outside the `n` bytes from `a` on reads as before, poisoned or not. -/
def SameBytesOutside (m m' : List Host.Cell) (a n : Nat) : Prop :=
  ∀ x, ¬ (a ≤ x ∧ x < a + n) → readByte m' x = readByte m x

/-- `s` after a completion without error whose only other effect is the memory `m` (44_control.md R181). -/
def completedWith (m : List Host.Cell) (s : State) : State :=
  { s with mem := m, busy := false, done := true, doneIp := true, eng := none, irq := s.doneIe }

/-- `s` after a completion with the error code `code` (60_exceptions.md R193). -/
def erroredWith (code : BitVec 8) (s : State) : State :=
  { s with
    busy := false, done := true, err := true, errcode := code, doneIp := true, eng := none
    irq := s.doneIe }

/-- `s` after a BUSERR response with cause `c` (40_host_bus.md R93). -/
def busErrored (c : BusCause) (s : State) : State := { s with resp := .busErr c }

/-- The operations a host access can be: the read and the write at an offset. -/
def accessesAt (off : Offset) (n : Nat) (v : Word) : List Instr := [.hostRead off n, .hostWrite off n v]

/-- An offset in a mapped range of 20_memory.md R51. -/
def Mapped (off : Nat) : Prop :=
  off < 0x28 ∨ (0x10000 ≤ off ∧ off < 0x10000 + params.inBytes) ∨ (0x20000 ≤ off ∧ off < 0x26000)
    ∨ (0x30000 ≤ off ∧ off < 0x34000)

/-- A width the bus accepts at a mapped offset (20_memory.md R56). -/
def WidthAccepted (off n : Nat) : Prop := n = 4 ∨ (0x10000 ≤ off ∧ (n = 1 ∨ n = 2))

/-- The offsets of ID, STATUS, IRQ_EN and IRQ_STAT (20_memory.md R60). -/
def OpenWhileBusy (off : Nat) : Prop := off = 0x000 ∨ off = 0x008 ∨ off = 0x01C ∨ off = 0x020

/-- The offsets of the read-only registers (10_state.md R23). -/
def ReadOnlyOffset (off : Nat) : Prop :=
  off = 0x000 ∨ off = 0x008 ∨ off = 0x010 ∨ off = 0x014 ∨ off = 0x018

/-- Every element of the channel is defined. -/
def ChannelDefined (m : List Host.Cell) (c : Nat) : Prop := ∀ i < 4096, (coefAt m c i).isSome = true

/-- `v` limited to the signed 16-bit range (00_scope.md R13). -/
def saturated (v : Int) : Int := max (-32768) (min 32767 v)

/-- `v` as `n` bits, the most significant first (00_scope.md R10). -/
def msbBits : Nat → Nat → List Bool
  | 0, _ => []
  | n + 1, v => v.testBit n :: msbBits n v

/-- A zero run can be written with kR bits: 1 ≤ run ≤ 2^kR; a value always can. -/
def Fits (kR : Nat) : Symbol → Prop
  | .zeroRun run => 1 ≤ run ∧ run ≤ 2 ^ kR
  | .value _ _ => True

/-- The stream bits of a symbol, read off 41_rlgr.md R105 to R107: the unary quotient and its 1-bit; then run − 1 in kR
bits, or the remainder in kGR bits and the sign. -/
def symbolBits (kR kGR : Nat) : Symbol → List Bool
  | .zeroRun run => true :: msbBits kR (run - 1)
  | .value mag neg =>
    List.replicate (mag / 2 ^ kGR + 1) false ++ true :: (msbBits kGR (mag % 2 ^ kGR) ++ [neg])

/-- kGR after a symbol (41_rlgr.md R108). -/
def kgrAfter (kGR : Nat) : Symbol → Nat
  | .zeroRun _ => kGR
  | .value mag _ => kGR - (mag + 1).log2

/-- The stream of a list of symbols, with kR and kGR adapted after each (R108, R109). -/
def writeSymbols : Nat → Nat → List Symbol → List Bool
  | _, _, [] => []
  | kR, kGR, sym :: syms => symbolBits kR kGR sym ++ writeSymbols (min (kR + 1) 15) (kgrAfter kGR sym) syms

/-- Each symbol of the list can be written with the kR it meets. -/
def AllFit : Nat → List Symbol → Prop
  | _, [] => True
  | kR, sym :: syms => Fits kR sym ∧ AllFit (min (kR + 1) 15) syms

/-- The coefficients a symbol stands for (R106, R107, R113). -/
def coefsOf : Symbol → List Int
  | .zeroRun run => List.replicate run 0
  | .value mag true => [max (-32768) (-(mag + 1 : Int))]
  | .value mag false => [min 32767 (mag + 1 : Int)]

end Sys2Proof.Terms

open Sys2Proof Sys2Proof.Machine Sys2Proof.Terms

/-! ## Encoding -/

/-- Decode of an encoded well-formed operation is that operation, for every operand value the encoding admits
(30_encoding.md R71 to R73). -/
def Obligations.DecodeOfEncodeIsIdentity : Prop :=
  ∀ i : Instr, i.wellFormed = true → decode (encode i) = i

/-- Encoding what a command word decodes to gives the word back: no bit of a word is dropped (R71 to R74). -/
def Obligations.EncodeOfDecodedWordIsWord : Prop :=
  ∀ w : Word, encode (decodeWord w) = .command w

/-- The decode procedure of R73 selects exactly the words of the match and mask pairs of R72, with the operands of R71,
and is ILLEGAL on every other word. -/
def Obligations.DecodeFollowsMatchAndMask : Prop :=
  ∀ w : Word,
    (decodeWord w = .nop ↔ w &&& 0xFFFFFFFF#32 = 0x00000000#32) ∧
    (decodeWord w = .rlgrDecode (w.extractLsb' 4 2) (w.extractLsb' 16 13) ↔
      w &&& 0xE000FFCF#32 = 0x00000001#32) ∧
    (decodeWord w = .dwtInvNx (w.extractLsb' 4 2) ↔ w &&& 0xFFFFFFCF#32 = 0x00000002#32) ∧
    (decodeWord w = .dwtInvX (w.extractLsb' 4 2) ↔ w &&& 0xFFFFFFCF#32 = 0x00000003#32) ∧
    (decodeWord w = .ycbcr2rgb ↔ w &&& 0xFFFFFFFF#32 = 0x00000004#32) ∧
    (decodeWord w = .ycocg2rgb (w.extractLsb' 8 3) ↔ w &&& 0xFFFFF8FF#32 = 0x00000005#32) ∧
    (decodeWord w = .clear (w.extractLsb' 4 2) ↔ w &&& 0xFFFFFFCF#32 = 0x00000006#32) ∧
    (decodeWord w = .softReset ↔ w &&& 0xFFFFFFFF#32 = 0x00000007#32) ∧
    (decodeWord w = .illegal w ↔ isReserved w = true)

/-- Words written out from the spec's encodings decode to the operations they stand for (95_test_vectors.md 2.4). -/
def Obligations.SampleWordsDecode : Prop :=
  decodeWord 0x00000000#32 = .nop ∧
  decodeWord 0x00080011#32 = .rlgrDecode 1#2 8#13 ∧
  decodeWord 0x10010001#32 = .rlgrDecode 0#2 4097#13 ∧
  decodeWord 0x00000022#32 = .dwtInvNx 2#2 ∧
  decodeWord 0x00000013#32 = .dwtInvX 1#2 ∧
  decodeWord 0x00000004#32 = .ycbcr2rgb ∧
  decodeWord 0x00000705#32 = .ycocg2rgb 7#3 ∧
  decodeWord 0x00000016#32 = .clear 1#2 ∧
  decodeWord 0x00000007#32 = .softReset ∧
  decodeWord 0x00000017#32 = .illegal 0x00000017#32 ∧
  decodeWord 0x20000001#32 = .illegal 0x20000001#32

/-- A command word's four bytes, bits [7:0] first and bits [31:24] last, decode to what the word decodes to, and no other
number of bytes is a command word (R70, 20_memory.md R52). -/
def Obligations.CommandBytesDecodeAsWord : Prop :=
  (∀ w : Word, decodeBytes [w.extractLsb' 0 8, w.extractLsb' 8 8, w.extractLsb' 16 8, w.extractLsb' 24 8] =
    .ok (decodeWord w)) ∧
  (∀ w : Word, decodeTableWord 32 w.toNat = some (decodeWord w)) ∧
  (∀ bs : List Byte, bs.length ≠ 4 → decodeBytes bs = .error .notFourBytes)

/-- The assembler's words are the formulas of 30_encoding.md R77, and it rejects an operand that does not fit. `fill32` and
`fill16` are the writes of R78 at OFF, OFF + 4, … and OFF, OFF + 2, …; a line at or past 0x40000 is no access to the
instance (20_memory.md R50; that it is then no turn of the instance is log 21). -/
def Obligations.AssemblerWordsAndRejections : Prop :=
  (∀ c n, c ≤ 3 → n ≤ 8191 →
    asmRlgrDec c n = some (0x1#32 ||| BitVec.ofNat 32 c <<< 4 ||| BitVec.ofNat 32 n <<< 16)) ∧
  (∀ c n, 3 < c ∨ 8191 < n → asmRlgrDec c n = none) ∧
  (∀ c, c ≤ 3 →
    asmDwtInvNx c = some (0x2#32 ||| BitVec.ofNat 32 c <<< 4) ∧
    asmDwtInvX c = some (0x3#32 ||| BitVec.ofNat 32 c <<< 4) ∧
    asmClear c = some (0x6#32 ||| BitVec.ofNat 32 c <<< 4)) ∧
  (∀ c, 3 < c → asmDwtInvNx c = none ∧ asmDwtInvX c = none ∧ asmClear c = none) ∧
  (∀ l, l ≤ 7 → asmYcocg2rgb l = some (0x5#32 ||| BitVec.ofNat 32 l <<< 8)) ∧
  (∀ l, 7 < l → asmYcocg2rgb l = none) ∧
  (∀ off k v, (HostOp.fill32 off k v).turns =
    ((List.range k).filter fun j => off + 4 * j < 0x40000).map fun j =>
      .access ⟨true, BitVec.ofNat 18 (off + 4 * j), 4, v⟩) ∧
  (∀ off k v, (HostOp.fill16 off k v).turns =
    ((List.range k).filter fun j => off + 2 * j < 0x40000).map fun j =>
      .access ⟨true, BitVec.ofNat 18 (off + 2 * j), 2, v⟩)

/-! ## Steps and runs -/

/-- A step runs the decoded operation: the engine's turn (named, or because no turn is left) runs the operation that the
latched word decodes to, a host's turn the operation its transaction decodes to; the turn is consumed. The schedule
`turns` is the model's way to hold the order of R206 (log 1, log 2). -/
def Obligations.StepRunsDecodedInstruction : Prop :=
  ∀ (s : State) (i : Instr), i.wellFormed = true →
    (∀ w rest, s.busy = true → s.eng = some w → decode (.command w) = i → s.turns = .engine :: rest →
      step s = exec i { s with turns := rest }) ∧
    (∀ w, s.busy = true → s.eng = some w → decode (.command w) = i → s.turns = [] → step s = exec i s) ∧
    (∀ t rest, decode (.access t) = i → s.turns = .access t :: rest → step s = exec i { s with turns := rest })

/-- A word other than SOFT_RESET's that the host writes to CMD while BUSY = 0 is accepted in the first step (R180), and
the engine's turn then performs what it decodes to on the accepted state (R181). The order of the turns is the model's
schedule (log 2). -/
def Obligations.WrittenCommandIsAcceptedThenPerformed : Prop :=
  ∀ (s : State) (w : Word) (rest : List Turn), s.busy = false → w ≠ 7#32 →
    s.turns = .access (commandWrite w) :: .engine :: rest →
    step s = .next
      { s with
        eng := some w, busy := true, done := false, err := false, errcode := 0#8
        lastop := w.extractLsb' 0 4, irq := s.doneIe && s.doneIp
        resp := .done, turns := .engine :: rest } ∧
    runSteps 2 s = exec (decodeWord w)
      { s with
        eng := some w, busy := true, done := false, err := false, errcode := 0#8
        lastop := w.extractLsb' 0 4, irq := s.doneIe && s.doneIp
        resp := .done, turns := rest }

/-- An idle block changes only through host accesses and reset (R223): with BUSY = 0 an engine turn changes nothing
but the schedule, and with no turn left any number of steps changes nothing. That a step is taken at all while nothing
is enabled is the model's choice (log 2). -/
def Obligations.IdleBlockIsQuiescent : Prop :=
  ∀ s : State, s.busy = false →
    (∀ rest, s.turns = .engine :: rest → step s = .next { s with turns := rest }) ∧
    (s.turns = [] → ∀ k, runSteps k s = .next s)

/-- Every accepted command completes: from a state with BUSY = 1, after at most one step more than there are turns left,
BUSY is 0, and DONE is 1 unless a hard reset comes before the first engine turn (00_scope.md R15, R16). The bound is in steps of the model's
schedule, whose end stands for the fairness of R15 (log 2). -/
def Obligations.AcceptedCommandCompletes : Prop :=
  ∀ s : State, BlockInv params s → s.busy = true →
    ∃ k t, k ≤ s.turns.length + 1 ∧ runSteps k s = .next t ∧ t.busy = false ∧
      (Turn.hardReset ∉ s.turns.takeWhile (· ≠ .engine) → t.done = true)

/-- The invariant of reachable states holds after reset. Its clause on TEMP's size rests on the model's reset value of TEMP
(log 8). -/
def Obligations.InvariantHoldsAtReset : Prop := BlockInv params State.reset

/-- Every step from a state with the invariant that gives a next state keeps the invariant: the memory's canonical form
and its extent, irq, the engine latch, LASTOP, the legal status combinations and error codes, TEMP's size; so does every
step of the machine with any parameters, for the buffers of those parameters (00_scope.md R4, log 9). The clause on TEMP's size
is the model's choice (log 8). -/
def Obligations.StepKeepsInvariant : Prop :=
  (∀ s t : State, BlockInv params s → step s = .next t → BlockInv params t) ∧
  (∀ (P : Config.Params) (s t : State), BlockInv P s → stepWith P s = .next t → BlockInv P t)

/-- No run from a state with the invariant stops: neither error class stops the block (60_exceptions.md R190). -/
def Obligations.RunsNeverStop : Prop := ∀ s : State, BlockInv params s → NeverStops s

/-- `run X` of a host program (30_encoding.md R78), for a word other than SOFT_RESET's: whatever the number of reads of
STATUS that still see BUSY = 1, the run ends with BUSY = 0 and DONE = 1, and the last read of STATUS returned the final
STATUS (20_memory.md R62). The number of such reads is the scheduler's choice, here a parameter (log 21). -/
def Obligations.RunOfCommandEndsAtCompletion : Prop :=
  ∀ (s : State) (w : Word) (polls : Nat), s.busy = false → w ≠ 7#32 → s.turns = (HostOp.run w polls).turns →
    ∃ t, runSteps (polls + 3) s = .next t ∧ t.busy = false ∧ t.done = true ∧ t.turns = [] ∧
      t.lastop = w.extractLsb' 0 4 ∧ t.resp = .data (statusWord t)

/-- While BUSY = 1 no host access changes what the command reads or writes, or the command itself: buffers, IN_LEN, KINIT,
the result registers, TEMP, STATUS and ENG stay (20_memory.md R60, R61; 70_reset_and_hazards.md R221). -/
def Obligations.BusyBlockIsUndisturbed : Prop :=
  ∀ (s t : State) (a : BusAccess) (rest : List Turn), s.busy = true → s.turns = .access a :: rest →
    step s = .next t →
    t = { s with
      turns := rest, resp := t.resp, fresh := t.fresh
      doneIe := t.doneIe, doneIp := t.doneIp, irq := t.irq }

/-! ## Control commands, acceptance and reset -/

/-- NOP completes and changes nothing else (44_control.md R182). That TEMP too keeps its value is the model's choice, unsafe,
since R38 leaves it unspecified after a command (log 8). -/
def Obligations.NopOnlyCompletes : Prop :=
  ∀ s : State, exec .nop s = .next (completedWith s.mem s)

/-- A reserved word completes with ERR = 1 and ERRCODE = ILLEGAL_CMD and changes nothing but STATUS, DONE_IP and irq; it
is accepted like any other word (44_control.md R185). -/
def Obligations.ReservedWordCompletesWithIllegalCmd : Prop :=
  (∀ (w : Word) (s : State), exec (.illegal w) s = .next (erroredWith 1#8 s)) ∧
  (∀ (w : Word) (s : State) (rest : List Turn), isReserved w = true → s.busy = false →
    s.turns = .access (commandWrite w) :: .engine :: rest →
    runSteps 2 s = .next
      { erroredWith 1#8 s with lastop := w.extractLsb' 0 4, resp := .done, turns := rest })

/-- SOFT_RESET puts every register at its reset value, empties ENG, drops irq, leaves the buffers and their marks as they
are and TEMP unspecified; written to CMD of an idle block it does so within that write (44_control.md R184). The schedule
and the last response are the model's and stay (log 19). That TEMP has exactly 4096 elements is the model's choice (log 8;
R38 says at least that, R184 unspecified). -/
def Obligations.SoftResetEffect : Prop :=
  (∀ s : State, ∃ T k, T.length = 4096 ∧
    exec .softReset s = .next
      { busy := false, done := false, err := false, lastop := 0#4, errcode := 0#8, inLen := 0#17
        rlgrBits := 0#20, rlgrEmit := 0#13, rlgrKr := 0#4, rlgrKgr := 0#4, doneIe := false, doneIp := false
        krInit := 1#4, kgrInit := 1#4, mem := s.mem, temp := T, eng := none, irq := false
        turns := s.turns, resp := s.resp, fresh := k, stream := s.stream }) ∧
  (∀ (s : State) (rest : List Turn), s.busy = false → s.turns = .access (commandWrite 7#32) :: rest →
    ∃ t, exec .softReset s = .next t ∧ step s = .next { t with turns := rest, resp := .done })

/-- Hard reset, also while BUSY = 1, puts the block in the state of 70_reset_and_hazards.md R210: every register at its
reset value, and read so by the host, ENG empty and its command dropped, irq 0, every buffer byte poisoned. Nothing is
said of TEMP but its size, nor of the model's own fields. The model's choices here: a hard reset is one turn, asserted and
released in one step (log 19), and TEMP has exactly 4096 elements (log 8; R38 says at least that, R210 unspecified). -/
def Obligations.HardResetEffect : Prop :=
  ∀ (s : State) (rest : List Turn), s.turns = .hardReset :: rest →
    ∃ t, step s = .next t ∧
      t = { busy := false, done := false, err := false, lastop := 0#4, errcode := 0#8, inLen := 0#17
            rlgrBits := 0#20, rlgrEmit := 0#13, rlgrKr := 0#4, rlgrKgr := 0#4, doneIe := false, doneIp := false
            krInit := 1#4, kgrInit := 1#4, mem := t.mem, temp := t.temp, eng := none, irq := false
            turns := t.turns, resp := t.resp, fresh := t.fresh, stream := t.stream } ∧
      (∀ a, readByte t.mem a = none) ∧ t.temp.length = 4096 ∧
      [0x000#18, 0x004#18, 0x008#18, 0x00C#18, 0x010#18, 0x014#18, 0x018#18, 0x01C#18, 0x020#18, 0x024#18].map
          (fun off => (hostReadWith params off 4 t).resp) =
        [.data 0x52460001#32, .data 0#32, .data 0#32, .data 0#32, .data 0#32, .data 0#32, .data 0#32, .data 0#32,
          .data 0#32, .data 0x00000101#32]

/-- What the host reads in the ten registers after reset (10_state.md R23; 95_test_vectors.md 2.8 R1), and that every
byte of IN, COEF and PIX is poisoned. `State.reset` is the model's machine before any step (log 13). -/
def Obligations.RegistersAfterReset : Prop :=
  ([0x000#18, 0x004#18, 0x008#18, 0x00C#18, 0x010#18, 0x014#18, 0x018#18, 0x01C#18, 0x020#18, 0x024#18].map
      fun off => (hostReadWith params off 4 State.reset).resp) =
    [.data 0x52460001#32, .data 0#32, .data 0#32, .data 0#32, .data 0#32, .data 0#32, .data 0#32, .data 0#32,
      .data 0#32, .data 0x00000101#32] ∧
  ∀ a, readByte State.reset.mem a = none

/-- CLEAR zeroes and unpoisons every element of its channel and changes no other byte; CH = 3 is BAD_CHANNEL
(44_control.md R183). TEMP unchanged by the zeroing is the model's choice, unsafe (10_state.md R38, log 8). -/
def Obligations.ClearEffect : Prop :=
  (∀ (ch : BitVec 2) (s : State), ch ≠ 3#2 →
    ∃ m, exec (.clear ch) s = .next (completedWith m s) ∧
      (∀ i < 4096, coefAt m ch.toNat i = some 0) ∧
      SameBytesOutside s.mem m (0x20000 + 0x2000 * ch.toNat) 8192) ∧
  (∀ s : State, exec (.clear 3#2) s = .next (erroredWith 2#8 s))

/-- A command whose checks fail completes with the first error in the order ILLEGAL_CMD, BAD_CHANNEL, BAD_COUNT, BAD_LEN,
BAD_PARAM, and with no other effect: STATUS, DONE_IP, ENG and irq alone change (60_exceptions.md R192, R193). The word
of the rule's example decodes to RLGR_DECODE with CH = 3 and COUNT = 4097. -/
def Obligations.CommandErrorsInOrderAndPrecise : Prop :=
  decodeWord 0x10010031#32 = .rlgrDecode 3#2 4097#13 ∧
  ∀ s : State,
    (∀ w, exec (.illegal w) s = .next (erroredWith 1#8 s)) ∧
    (∀ count, exec (.rlgrDecode 3#2 count) s = .next (erroredWith 2#8 s)) ∧
    exec (.dwtInvNx 3#2) s = .next (erroredWith 2#8 s) ∧
    exec (.dwtInvX 3#2) s = .next (erroredWith 2#8 s) ∧
    exec (.clear 3#2) s = .next (erroredWith 2#8 s) ∧
    (∀ ch count, ch ≠ 3#2 → 4096 < count.toNat →
      exec (.rlgrDecode ch count) s = .next (erroredWith 3#8 s)) ∧
    (∀ ch count, ch ≠ 3#2 → count.toNat ≤ 4096 → params.inBytes < s.inLen.toNat →
      exec (.rlgrDecode ch count) s = .next (erroredWith 4#8 s)) ∧
    exec (.ycocg2rgb 0#3) s = .next (erroredWith 5#8 s)

/-! ## RLGR -/

/-- RLGR_DECODE with legal operands on defined input: the elements that symbols fill, then zeros up to COUNT, the result
registers, completion; nothing else changes, and the elements from COUNT on keep theirs, poisoned or not
(41_rlgr.md R112). TEMP unchanged is the model's choice, unsafe (10_state.md R38, log 8). -/
def Obligations.RlgrDecodeEffect : Prop :=
  ∀ (ch : BitVec 2) (count : BitVec 13) (s : State) (bytes : List Byte),
    ch ≠ 3#2 → count.toNat ≤ 4096 → s.inLen.toNat ≤ params.inBytes → Memory.wf s.mem = true →
    bytes.length = s.inLen.toNat → (∀ k < s.inLen.toNat, inAt s.mem k = bytes[k]?) →
    ∃ t, exec (.rlgrDecode ch count) s = .next t ∧
      t = { completedWith t.mem s with
        rlgrBits := t.rlgrBits, rlgrEmit := t.rlgrEmit, rlgrKr := t.rlgrKr, rlgrKgr := t.rlgrKgr } ∧
      t.rlgrBits.toNat = (decodeStream count.toNat s.krInit.toNat s.kgrInit.toNat bytes).pos ∧
      t.rlgrEmit.toNat = (decodeStream count.toNat s.krInit.toNat s.kgrInit.toNat bytes).coefs.length ∧
      t.rlgrKr.toNat = (decodeStream count.toNat s.krInit.toNat s.kgrInit.toNat bytes).kR ∧
      t.rlgrKgr.toNat = (decodeStream count.toNat s.krInit.toNat s.kgrInit.toNat bytes).kGR ∧
      (∀ i < count.toNat, coefAt t.mem ch.toNat i =
        some ((decodeStream count.toNat s.krInit.toNat s.kgrInit.toNat bytes).coefs.getD i 0)) ∧
      SameBytesOutside s.mem t.mem (0x20000 + 0x2000 * ch.toNat) (2 * count.toNat)

/-- RLGR_DECODE with legal operands and a poisoned byte among IN[0..L−1] still completes without error; it poisons the
elements it writes and leaves any values in the result registers (70_reset_and_hazards.md R211; log 5 for their range,
log 6 for COUNT = 0, which are the model's choices). TEMP unchanged is the model's choice too, unsafe (10_state.md R38,
log 8). -/
def Obligations.RlgrDecodeOfPoisonedInput : Prop :=
  ∀ (ch : BitVec 2) (count : BitVec 13) (s : State) (k : Nat),
    ch ≠ 3#2 → count.toNat ≤ 4096 → s.inLen.toNat ≤ params.inBytes → Memory.wf s.mem = true →
    k < s.inLen.toNat → inAt s.mem k = none →
    ∃ t, exec (.rlgrDecode ch count) s = .next t ∧
      t = { completedWith t.mem s with
        rlgrBits := t.rlgrBits, rlgrEmit := t.rlgrEmit, rlgrKr := t.rlgrKr, rlgrKgr := t.rlgrKgr
        fresh := t.fresh } ∧
      (∀ i < count.toNat, coefAt t.mem ch.toNat i = none) ∧
      SameBytesOutside s.mem t.mem (0x20000 + 0x2000 * ch.toNat) (2 * count.toNat)

/-- An empty input is a defined fallback: COUNT zeros, BITS = 0, EMIT = 0, KSTATE = KINIT (41_rlgr.md R115).
TEMP unchanged is the model's choice, unsafe (10_state.md R38, log 8). -/
def Obligations.RlgrDecodeOfEmptyInput : Prop :=
  ∀ (ch : BitVec 2) (count : BitVec 13) (s : State), ch ≠ 3#2 → count.toNat ≤ 4096 → s.inLen = 0#17 →
    ∃ m, exec (.rlgrDecode ch count) s = .next
        { completedWith m s with rlgrBits := 0#20, rlgrEmit := 0#13, rlgrKr := s.krInit, rlgrKgr := s.kgrInit } ∧
      (∀ i < count.toNat, coefAt m ch.toNat i = some 0) ∧
      SameBytesOutside s.mem m (0x20000 + 0x2000 * ch.toNat) (2 * count.toNat)

/-- The bit order of the stream (41_rlgr.md R103): bit p is bit 7 − (p mod 8) of byte p div 8, for the 8·L bits of L
bytes, and readbits(n) takes its first stream bit as its most significant bit. -/
def Obligations.StreamIsMostSignificantBitFirst : Prop :=
  (∀ bytes : List Byte, (streamBits bytes).length = 8 * bytes.length ∧
    ∀ p b, bytes[p / 8]? = some b → (streamBits bytes)[p]? = some (b.getLsbD (7 - p % 8))) ∧
  (∀ n v rest, v < 2 ^ n → readBits n (msbBits n v ++ rest) = some (v, rest))

/-- A complete symbol at the head of a stream is read as R105 to R107 say, whatever follows it: q 0-bits and a 1-bit; for
q = 0 the run − 1 in kR bits, else the remainder in kGR bits and the sign. -/
def Obligations.SymbolsAreReadAsStated : Prop :=
  (∀ kR kGR v rest, v < 2 ^ kR →
    readSymbol kR kGR (true :: (msbBits kR v ++ rest)) = some (.zeroRun (v + 1), 1 + kR, rest)) ∧
  (∀ kR kGR q rem sign rest, 1 ≤ q → rem < 2 ^ kGR →
    readSymbol kR kGR (List.replicate q false ++ true :: (msbBits kGR rem ++ sign :: rest)) =
      some (.value ((q - 1) * 2 ^ kGR + rem) sign, q + 1 + kGR + 1, rest))

/-- A stream that ends inside a symbol, at any of its bits, gives no symbol (41_rlgr.md R111). -/
def Obligations.CutOffSymbolIsNotRead : Prop :=
  ∀ (kR kGR : Nat) (sym : Symbol) (n : Nat), Fits kR sym → n < (symbolBits kR kGR sym).length →
    readSymbol kR kGR ((symbolBits kR kGR sym).take n) = none

/-- The decoder inverts the bit writer: a list of symbols that fills at most COUNT slots, written with the adaptation of
R108 and R109 and followed by 0-bits where slots are left (by any bits where none is), decodes to its coefficients, and
the position is the length of what was written (41_rlgr.md R104 to R114). -/
def Obligations.RlgrDecodeInvertsSymbolWriter : Prop :=
  ∀ (syms : List Symbol) (count kR kGR : Nat) (tail : List Bool),
    AllFit kR syms → (syms.flatMap coefsOf).length ≤ count →
    ((syms.flatMap coefsOf).length < count → ∀ b ∈ tail, b = false) →
    (decodeSymbols count count 0 kR kGR (writeSymbols kR kGR syms ++ tail)).coefs = syms.flatMap coefsOf ∧
    (decodeSymbols count count 0 kR kGR (writeSymbols kR kGR syms ++ tail)).pos =
      (writeSymbols kR kGR syms).length ∧
    (decodeSymbols count count 0 kR kGR (writeSymbols kR kGR syms ++ tail)).kR =
      syms.foldl (fun k _ => min (k + 1) 15) kR ∧
    (decodeSymbols count count 0 kR kGR (writeSymbols kR kGR syms ++ tail)).kGR =
      syms.foldl kgrAfter kGR

/-- The bounds of R114, R108 and R109 on every decode: at most COUNT coefficients, a position within the stream, kR and
kGR in 0..15 with kGR never above its start and kR never below, every coefficient in 16 bits, and no more coefficients
than the position allows: a symbol takes at least one bit and stands for at most 2^15 coefficients. -/
def Obligations.RlgrDecodeBounds : Prop :=
  ∀ (count kR kGR : Nat) (bytes : List Byte), kR ≤ 15 → kGR ≤ 15 →
    (decodeStream count kR kGR bytes).coefs.length ≤ count ∧
    (decodeStream count kR kGR bytes).pos ≤ 8 * bytes.length ∧
    kR ≤ (decodeStream count kR kGR bytes).kR ∧ (decodeStream count kR kGR bytes).kR ≤ 15 ∧
    (decodeStream count kR kGR bytes).kGR ≤ kGR ∧
    (decodeStream count kR kGR bytes).coefs.length ≤ 2 ^ 15 * (decodeStream count kR kGR bytes).pos ∧
    ∀ v ∈ (decodeStream count kR kGR bytes).coefs, -32768 ≤ v ∧ v ≤ 32767

/-- No bit at or beyond position 8·L is read (41_rlgr.md R102): two memories that hold the same defined bytes in IN[0..L−1]
give the same result registers and the same elements 0 to COUNT − 1, and two that agree on IN[0..L−1], poisoned or not,
differ after the command in the memory and the result registers alone and give the same elements. -/
def Obligations.RlgrDecodeReadsOnlyItsInput : Prop :=
  ∀ (ch : BitVec 2) (count : BitVec 13) (s : State) (m : List Host.Cell),
    Memory.wf s.mem = true → Memory.wf m = true → ch ≠ 3#2 → count.toNat ≤ 4096 →
    s.inLen.toNat ≤ params.inBytes → (∀ k < s.inLen.toNat, inAt m k = inAt s.mem k) →
    ∃ t u, exec (.rlgrDecode ch count) s = .next t ∧ exec (.rlgrDecode ch count) { s with mem := m } = .next u ∧
      ((∀ k < s.inLen.toNat, (inAt s.mem k).isSome = true) → u = { t with mem := u.mem }) ∧
      u = { t with
        mem := u.mem, rlgrBits := u.rlgrBits, rlgrEmit := u.rlgrEmit, rlgrKr := u.rlgrKr, rlgrKgr := u.rlgrKgr } ∧
      ∀ i < count.toNat, coefAt u.mem ch.toNat i = coefAt t.mem ch.toNat i

/-! ## Wavelet transform -/

/-- A DWT command on a channel whose elements are all defined replaces them by its three level steps of 42_dwt.md R136 or
R142, leaves TEMP unspecified and completes; nothing else changes (R130, R137, R143). That TEMP has exactly 4096 elements is the
model's choice (log 8; R38 says at least that). -/
def Obligations.DwtCommandsEffect : Prop :=
  ∀ (ch : BitVec 2) (s : State) (B : List Int), ch ≠ 3#2 → Memory.wf s.mem = true → B.length = 4096 →
    (∀ i < 4096, coefAt s.mem ch.toNat i = B[i]?) →
    (∃ t, exec (.dwtInvNx ch) s = .next t ∧
      t = { completedWith t.mem s with temp := t.temp, fresh := t.fresh } ∧ t.temp.length = 4096 ∧
      (∀ i < 4096, coefAt t.mem ch.toNat i =
        (level params.liftNx 0 32 32 (level params.liftNx 3072 16 16 (level params.liftNx 3840 8 8 B)))[i]?) ∧
      SameBytesOutside s.mem t.mem (0x20000 + 0x2000 * ch.toNat) 8192) ∧
    (∃ t, exec (.dwtInvX ch) s = .next t ∧
      t = { completedWith t.mem s with temp := t.temp, fresh := t.fresh } ∧ t.temp.length = 4096 ∧
      (∀ i < 4096, coefAt t.mem ch.toNat i =
        (level params.liftX 0 33 31 (level params.liftX 3007 17 16 (level params.liftX 3807 9 8 B)))[i]?) ∧
      SameBytesOutside s.mem t.mem (0x20000 + 0x2000 * ch.toNat) 8192)

/-- A DWT command on a channel with a poisoned element completes without error and poisons the whole channel
(42_dwt.md R145, 70_reset_and_hazards.md R211). TEMP is left free, with exactly 4096 elements, the model's choice of
log 8. -/
def Obligations.DwtOfPoisonedChannel : Prop :=
  ∀ (ch : BitVec 2) (s : State) (j : Nat), ch ≠ 3#2 → Memory.wf s.mem = true → j < 4096 →
    coefAt s.mem ch.toNat j = none →
    ∀ i ∈ [Instr.dwtInvNx ch, Instr.dwtInvX ch],
      ∃ t, exec i s = .next t ∧
        t = { completedWith t.mem s with temp := t.temp, fresh := t.fresh } ∧ t.temp.length = 4096 ∧
        (∀ e < 4096, coefAt t.mem ch.toNat e = none) ∧
        SameBytesOutside s.mem t.mem (0x20000 + 0x2000 * ch.toNat) 8192

/-- LEVEL(b, nL, nH, f) sample by sample (42_dwt.md R133): with t = nL + nH, sample (y, x) of the output at b + y·t + x is
sample y of f applied to column x of TEMP, whose rows are f of the LL and HL rows and of the LH and HH rows at the offsets
of R133; B outside the t·t elements from b on is unchanged. f is any function of nL low and nH high samples to nL + nH
samples, as R131 and R133 have it. -/
def Obligations.LevelStepSamples : Prop :=
  ∀ (f : List Int → List Int → List Int) (b nL nH : Nat) (B : List Int),
    (∀ lo hi : List Int, lo.length = nL → hi.length = nH → (f lo hi).length = nL + nH) →
    b + (nL + nH) * (nL + nH) ≤ B.length →
    (level f b nL nH B).length = B.length ∧
    (∀ i, i < b ∨ b + (nL + nH) * (nL + nH) ≤ i → (level f b nL nH B)[i]? = B[i]?) ∧
    ∀ y x, y < nL + nH → x < nL + nH →
      (level f b nL nH B)[b + y * (nL + nH) + x]? =
        some ((f
          ((List.range nL).map fun r =>
            (f ((List.range nL).map fun u => B.getD (b + 2 * nH * nL + nH * nH + r * nL + u) 0)
              ((List.range nH).map fun u => B.getD (b + r * nH + u) 0)).getD x 0)
          ((List.range nH).map fun r =>
            (f ((List.range nL).map fun u => B.getD (b + nH * nL + r * nL + u) 0)
              ((List.range nH).map fun u => B.getD (b + 2 * nH * nL + r * nH + u) 0)).getD x 0)).getD y 0)

/-- LIFT_NX, sample by sample (42_dwt.md R134), a default that the spec takes from general knowledge (log 10). The shift
is the floor of a half and the saturation is written out (00_scope.md R12, R13). -/
def Obligations.LiftNxSamples : Prop :=
  ∀ (lo hi : List Int) (s : Nat), 0 < s → lo.length = s → hi.length = s →
    (liftNx lo hi).length = 2 * s ∧
    (∀ n < s, (liftNx lo hi).getD (2 * n) 0 = saturated
      (lo.getD n 0 - ((if n = 0 then hi.getD 0 0 else hi.getD (n - 1) 0) + hi.getD n 0 + 1).fdiv 2)) ∧
    (∀ n, n + 1 < s → (liftNx lo hi).getD (2 * n + 1) 0 = saturated
      (hi.getD n 0 * 2 + ((liftNx lo hi).getD (2 * n) 0 + (liftNx lo hi).getD (2 * n + 2) 0).fdiv 2)) ∧
    (liftNx lo hi).getD (2 * s - 1) 0 = saturated (hi.getD (s - 1) 0 * 2 + (liftNx lo hi).getD (2 * s - 2) 0)

/-- LIFT_X, sample by sample (42_dwt.md R141), for nL = nH + 1 and nL = nH + 2; a default that the spec takes from
general knowledge (log 10). The halves are rounded toward zero and the saturation is written out (00_scope.md R12, R13). -/
def Obligations.LiftXSamples : Prop :=
  ∀ (lo hi : List Int) (nL nH : Nat), 0 < nH → hi.length = nH → lo.length = nL →
    (nL = nH + 1 ∨ nL = nH + 2) →
    (liftX lo hi).length = nL + nH ∧
    (liftX lo hi).getD 0 0 = saturated (lo.getD 0 0 - hi.getD 0 0) ∧
    (∀ j, 0 < j → j < nH → (liftX lo hi).getD (2 * j) 0 =
      saturated (lo.getD j 0 - (hi.getD (j - 1) 0 + hi.getD j 0).tdiv 2)) ∧
    (∀ j < nH, (liftX lo hi).getD (2 * j + 1) 0 =
      saturated (((liftX lo hi).getD (2 * j) 0 + (liftX lo hi).getD (2 * j + 2) 0).tdiv 2 + 2 * hi.getD j 0)) ∧
    (nL = nH + 1 → (liftX lo hi).getD (2 * nH) 0 = saturated (lo.getD nH 0 - hi.getD (nH - 1) 0)) ∧
    (nL = nH + 2 → (liftX lo hi).getD (2 * nH) 0 = saturated (lo.getD nH 0 - (hi.getD (nH - 1) 0).tdiv 2) ∧
      (liftX lo hi).getD (2 * nH + 1) 0 = saturated (((liftX lo hi).getD (2 * nH) 0 + lo.getD (nH + 1) 0).tdiv 2))

/-- Zero in gives zero out, for any liftings that map zeros to zeros, and the defaults are such (42_dwt.md R144 (a)). -/
def Obligations.DwtOfZeroIsZero : Prop :=
  (∀ f : List Int → List Int → List Int,
    (∀ s, f (List.replicate s 0) (List.replicate s 0) = List.replicate (2 * s) 0) →
    dwtNx f (List.replicate 4096 0) = List.replicate 4096 0) ∧
  (∀ f : List Int → List Int → List Int,
    (∀ nL nH, 0 < nH → (nL = nH + 1 ∨ nL = nH + 2) →
      f (List.replicate nL 0) (List.replicate nH 0) = List.replicate (nL + nH) 0) →
    dwtX f (List.replicate 4096 0) = List.replicate 4096 0) ∧
  (∀ s, liftNx (List.replicate s 0) (List.replicate s 0) = List.replicate (2 * s) 0) ∧
  (∀ nL nH, 0 < nH → (nL = nH + 1 ∨ nL = nH + 2) →
    liftX (List.replicate nL 0) (List.replicate nH 0) = List.replicate (nL + nH) 0)

/-- With every band zero except a constant LL3 = k, each DWT command outputs k at all 4096 samples (42_dwt.md R144 (b), for
the default liftings, log 9, log 10). -/
def Obligations.DwtOfConstantLl3IsConstant : Prop :=
  ∀ (ch : BitVec 2) (s : State) (k : Int), ch ≠ 3#2 → Memory.wf s.mem = true → -32768 ≤ k → k ≤ 32767 →
    params.liftNx = liftNx → params.liftX = liftX →
    ((∀ i < 4096, coefAt s.mem ch.toNat i = some (if i < 4032 then 0 else k)) →
      ∃ t, exec (.dwtInvNx ch) s = .next t ∧ ∀ i < 4096, coefAt t.mem ch.toNat i = some k) ∧
    ((∀ i < 4096, coefAt s.mem ch.toNat i = some (if i < 4015 then 0 else k)) →
      ∃ t, exec (.dwtInvX ch) s = .next t ∧ ∀ i < 4096, coefAt t.mem ch.toNat i = some k)

/-- No sample of a default lifting, and no output sample of a transform on a whole channel, is outside
[−32768, 32767] (42_dwt.md R131, R144 (d)). -/
def Obligations.DwtStaysInSixteenBits : Prop :=
  (∀ lo hi : List Int, ∀ v ∈ liftNx lo hi ++ liftX lo hi, -32768 ≤ v ∧ v ≤ 32767) ∧
  (∀ B : List Int, B.length = 4096 → ∀ v ∈ dwtNx liftNx B ++ dwtX liftX B, -32768 ≤ v ∧ v ≤ 32767)

/-- TEMP cannot be observed: a state that differs in TEMP alone gives the same outcome of every operation but for TEMP
(10_state.md R38). It compares two runs: where an operation draws free values, the two draws are equal because both states
have the same stream and draw number, which is the model's choice (log 3, log 25). -/
def Obligations.TempIsNotObservable : Prop :=
  ∀ (i : Instr) (s : State) (T : List Half),
    ∃ t u, exec i s = .next t ∧ exec i { s with temp := T } = .next u ∧ { u with temp := t.temp } = t

/-! ## Colour -/

/-- YCBCR2RGB on three defined channels writes every pixel from the elements with its index, and completes; no other byte
changes (43_color.md R160, R161, R164). -/
def Obligations.YcbcrToRgbEffect : Prop :=
  ∀ s : State, Memory.wf s.mem = true → (∀ c < 3, ChannelDefined s.mem c) →
    ∃ t, exec .ycbcr2rgb s = .next t ∧ t = completedWith t.mem s ∧
      (∀ i < 4096, ∀ y cb cr, coefAt s.mem 0 i = some y → coefAt s.mem 1 i = some cb → coefAt s.mem 2 i = some cr →
        pixAt t.mem i = some (ycbcr params.colorMatrix y cb cr)) ∧
      SameBytesOutside s.mem t.mem 0x30000 16384

/-- YCOCG2RGB with a legal CLL on three defined channels does so with the YCoCg function (43_color.md R160, R161, R167). -/
def Obligations.YcocgToRgbEffect : Prop :=
  ∀ (cll : BitVec 3) (s : State), cll ≠ 0#3 → Memory.wf s.mem = true → (∀ c < 3, ChannelDefined s.mem c) →
    ∃ t, exec (.ycocg2rgb cll) s = .next t ∧ t = completedWith t.mem s ∧
      (∀ i < 4096, ∀ y co cg, coefAt s.mem 0 i = some y → coefAt s.mem 1 i = some co → coefAt s.mem 2 i = some cg →
        pixAt t.mem i = some (params.ycocgFn y co cg cll.toNat)) ∧
      SameBytesOutside s.mem t.mem 0x30000 16384

/-- A colour command with a poisoned element in one of the three channels completes without error and poisons all of PIX
(43_color.md R169 (d), 70_reset_and_hazards.md R211). That all pixels are poisoned, and not only those of the poisoned
index, is how the model reads R211 (log 7). -/
def Obligations.ColorOfPoisonedChannel : Prop :=
  ∀ (cll : BitVec 3) (s : State) (c j : Nat), cll ≠ 0#3 → Memory.wf s.mem = true → c < 3 → j < 4096 →
    coefAt s.mem c j = none →
    ∀ i ∈ [Instr.ycbcr2rgb, Instr.ycocg2rgb cll],
      ∃ t, exec i s = .next t ∧ t = completedWith t.mem s ∧
        (∀ a, 0x30000 ≤ a → a < 0x34000 → readByte t.mem a = none) ∧
        SameBytesOutside s.mem t.mem 0x30000 16384

/-- The YCbCr function (43_color.md R163): floor shift by 21 of the exact sums, clipped, alpha 255; with cb = cr = 0 it is
grey at clip8(floor((y + 4096) / 32)). The matrix and the 11.5 convention are general knowledge in the spec (log 11). -/
def Obligations.YcbcrFunction : Prop :=
  ∀ (M : Config.ColorMatrix) (y cb cr : Int),
    ((ycbcr M y cb cr).r.toNat : Int) = max 0 (min 255 (((y + 4096) * 65536 + M.crR * cr) / 2097152)) ∧
    ((ycbcr M y cb cr).g.toNat : Int) =
      max 0 (min 255 (((y + 4096) * 65536 - M.cbG * cb - M.crG * cr) / 2097152)) ∧
    ((ycbcr M y cb cr).b.toNat : Int) = max 0 (min 255 (((y + 4096) * 65536 + M.cbB * cb) / 2097152)) ∧
    (ycbcr M y cb cr).a = 255#8 ∧
    ((ycbcr M y 0 0).r.toNat : Int) = max 0 (min 255 ((y + 4096) / 32)) ∧
    (ycbcr M y 0 0).g = (ycbcr M y 0 0).r ∧ (ycbcr M y 0 0).b = (ycbcr M y 0 0).r

/-- The YCoCg function (43_color.md R166): Y is the low byte; Co and Cg are the low bytes shifted left by CLL − 1 with the
bits above bit 7 discarded, read as signed; the bits [15:8] of the elements are ignored. A default that the spec takes
from general knowledge (log 11). -/
def Obligations.YcocgFunction : Prop :=
  ∀ (e0 e1 e2 : Int) (cll : Nat) (co cg : Int),
    co = Int.bmod (e1 % 256 * 2 ^ (cll - 1)) 256 → cg = Int.bmod (e2 % 256 * 2 ^ (cll - 1)) 256 →
    ((ycocg e0 e1 e2 cll).r.toNat : Int) = max 0 (min 255 (e0 % 256 + co - cg)) ∧
    ((ycocg e0 e1 e2 cll).g.toNat : Int) = max 0 (min 255 (e0 % 256 + cg)) ∧
    ((ycocg e0 e1 e2 cll).b.toNat : Int) = max 0 (min 255 (e0 % 256 - co - cg)) ∧
    (ycocg e0 e1 e2 cll).a = 255#8 ∧
    ∀ a b c : Int, ycocg (e0 + 256 * a) (e1 + 256 * b) (e2 + 256 * c) cll = ycocg e0 e1 e2 cll

/-- Every pixel a conversion writes has A = 255, with any parameters, and exec is the machine at the defaults; an operation
other than a host write leaves an alpha byte as it was, poisons it or makes it 255; a host write to PIX of an idle block
stores any alpha (43_color.md R168; poison 70_reset_and_hazards.md R211). -/
def Obligations.ConvertedPixelsAreOpaque : Prop :=
  (∀ (P : Config.Params) (cll : BitVec 3) (s : State) (i : Instr), i ∈ [Instr.ycbcr2rgb, Instr.ycocg2rgb cll] →
    cll ≠ 0#3 → Memory.wf s.mem = true → (∀ c < 3, ChannelDefined s.mem c) →
    ∃ t, execWith P i s = .next t ∧ ∀ p < 4096, readByte t.mem (0x30000 + 4 * p + 3) = some 255#8) ∧
  (∀ (cll : BitVec 3) (s : State) (i : Instr), i ∈ [Instr.ycbcr2rgb, Instr.ycocg2rgb cll] →
    cll ≠ 0#3 → Memory.wf s.mem = true → (∀ c < 3, ChannelDefined s.mem c) →
    ∃ t, exec i s = .next t ∧ ∀ p < 4096, readByte t.mem (0x30000 + 4 * p + 3) = some 255#8) ∧
  (∀ (P : Config.Params) (s t : State) (i : Instr), Memory.wf s.mem = true → (∀ off n v, i ≠ .hostWrite off n v) →
    execWith P i s = .next t → ∀ p < 4096,
      readByte t.mem (0x30000 + 4 * p + 3) = readByte s.mem (0x30000 + 4 * p + 3) ∨
      readByte t.mem (0x30000 + 4 * p + 3) = none ∨ readByte t.mem (0x30000 + 4 * p + 3) = some 255#8) ∧
  (∀ (s : State) (p : Nat) (alpha : Byte), s.busy = false → p < 4096 →
    ∃ t, exec (.hostWrite (BitVec.ofNat 18 (0x30000 + 4 * p + 3)) 1 (alpha.setWidth 32)) s = .next t ∧
      readByte t.mem (0x30000 + 4 * p + 3) = some alpha)

/-- Converting twice gives the same PIX, and the same state altogether (43_color.md R169 (a)). -/
def Obligations.ConvertingTwiceIsIdempotent : Prop :=
  ∀ (cll : BitVec 3) (s t u : State) (i : Instr), i ∈ [Instr.ycbcr2rgb, Instr.ycocg2rgb cll] → cll ≠ 0#3 →
    Memory.wf s.mem = true → exec i s = .next t → exec i t = .next u → u = t

/-! ## Host bus -/

/-- The bus errors and their priority UNMAPPED, WIDTH, MISALIGNED, BUSY, READONLY (60_exceptions.md R194 to R196): each
gives the BUSERR response with its cause and changes nothing of the block. The widths are any n (R194); the premise on
IN_BYTES keeps a word from straddling its end, and the default meets it (log 22). -/
def Obligations.BusErrorsInPriority : Prop :=
  ∀ (s : State) (off : Offset) (n : Nat) (v : Word), params.inBytes % 4 = 0 → ∀ i ∈ accessesAt off n v,
    (¬ Mapped off.toNat → exec i s = .next (busErrored .unmapped s)) ∧
    (Mapped off.toNat → ¬ WidthAccepted off.toNat n → exec i s = .next (busErrored .width s)) ∧
    (Mapped off.toNat → WidthAccepted off.toNat n → off.toNat % n ≠ 0 →
      exec i s = .next (busErrored .misaligned s)) ∧
    (Mapped off.toNat → WidthAccepted off.toNat n → off.toNat % n = 0 → s.busy = true →
      ¬ OpenWhileBusy off.toNat → exec i s = .next (busErrored .busy s)) ∧
    (n = 4 → ReadOnlyOffset off.toNat → (s.busy = false ∨ OpenWhileBusy off.toNat) →
      exec (.hostWrite off n v) s = .next (busErrored .readOnly s))

/-- Host reads of the registers (10_state.md R24 to R33): the fields at their places with the reserved bits 0, nothing of
the block changed; ID, STATUS, IRQ_EN and IRQ_STAT also while BUSY = 1 (20_memory.md R58, R60). -/
def Obligations.HostReadOfRegisters : Prop :=
  ∀ s : State,
    (exec (.hostRead 0x000#18 4) s = .next { s with resp := .data 0x52460001#32 } ∧
      exec (.hostRead 0x008#18 4) s = .next
        { s with
          resp := .data
            (0#16 ++ s.errcode ++ s.lastop ++ 0#1 ++ BitVec.ofBool s.err ++ BitVec.ofBool s.done ++
              BitVec.ofBool s.busy) } ∧
      exec (.hostRead 0x01C#18 4) s = .next { s with resp := .data (0#31 ++ BitVec.ofBool s.doneIe) } ∧
      exec (.hostRead 0x020#18 4) s = .next { s with resp := .data (0#31 ++ BitVec.ofBool s.doneIp) }) ∧
    (s.busy = false →
      exec (.hostRead 0x004#18 4) s = .next { s with resp := .data 0#32 } ∧
      exec (.hostRead 0x00C#18 4) s = .next { s with resp := .data (0#15 ++ s.inLen) } ∧
      exec (.hostRead 0x010#18 4) s = .next { s with resp := .data (0#12 ++ s.rlgrBits) } ∧
      exec (.hostRead 0x014#18 4) s = .next { s with resp := .data (0#19 ++ s.rlgrEmit) } ∧
      exec (.hostRead 0x018#18 4) s = .next { s with resp := .data (0#20 ++ s.rlgrKgr ++ 0#4 ++ s.rlgrKr) } ∧
      exec (.hostRead 0x024#18 4) s = .next { s with resp := .data (0#20 ++ s.kgrInit ++ 0#4 ++ s.krInit) })

/-- An aligned host read of 1, 2 or 4 buffer bytes of an idle block returns each defined byte at its place, low byte
first, with zeros above, and changes nothing of the block (40_host_bus.md R91, 20_memory.md R52, R58); nothing is said
of a poisoned byte's place. That the defined byte of an element or pixel whose other bytes are poisoned reads back is
DEDUCED, unsafe: R211 speaks of a poisoned element (log 4). -/
def Obligations.HostReadOfBuffers : Prop :=
  ∀ (s : State) (off : Offset) (n : Nat), s.busy = false → (n = 1 ∨ n = 2 ∨ n = 4) → off.toNat % n = 0 →
    isBufferByte params off.toNat = true → params.inBytes % 4 = 0 →
    ∃ v k, exec (.hostRead off n) s = .next { s with resp := .data v, fresh := k } ∧ v.toNat < 2 ^ (8 * n) ∧
      ∀ j < n, ∀ b, readByte s.mem (off.toNat + j) = some b → v.extractLsb' (8 * j) 8 = b

/-- A 32-bit read of COEF returns two elements, the lower-indexed one in bits [15:0] (20_memory.md R53), and a 32-bit read
of PIX returns R | G<<8 | B<<16 | A<<24 (R54). -/
def Obligations.HostReadOfElementsAndPixels : Prop :=
  (∀ (s : State) (c j : Nat) (x y : Int), s.busy = false → c < 3 → j < 2048 →
    coefAt s.mem c (2 * j) = some x → coefAt s.mem c (2 * j + 1) = some y →
    ∃ k, exec (.hostRead (BitVec.ofNat 18 (0x20000 + 0x2000 * c + 4 * j)) 4) s =
      .next { s with resp := .data (BitVec.ofInt 16 y ++ BitVec.ofInt 16 x), fresh := k }) ∧
  (∀ (s : State) (i : Nat) (p : Config.Pixel), s.busy = false → i < 4096 → pixAt s.mem i = some p →
    ∃ k, exec (.hostRead (BitVec.ofNat 18 (0x30000 + 4 * i)) 4) s =
      .next { s with resp := .data (p.a ++ p.b ++ p.g ++ p.r), fresh := k })

/-- An aligned host write of 1, 2 or 4 buffer bytes of an idle block stores the low bytes of the value, low byte first,
unpoisons them, and changes no other byte (40_host_bus.md R92, 20_memory.md R55). -/
def Obligations.HostWriteOfBuffers : Prop :=
  ∀ (s : State) (off : Offset) (n : Nat) (v : Word), s.busy = false → (n = 1 ∨ n = 2 ∨ n = 4) →
    off.toNat % n = 0 → isBufferByte params off.toNat = true → params.inBytes % 4 = 0 →
    ∃ m, exec (.hostWrite off n v) s =
        .next { s with mem := m, resp := .done, irq := s.doneIe && s.doneIp } ∧
      (∀ j < n, readByte m (off.toNat + j) = some (v.extractLsb' (8 * j) 8)) ∧
      SameBytesOutside s.mem m off.toNat n

/-- What was written to a buffer is read back: the low 8n bits of the value (40_host_bus.md R91, R92). For a write of some
bytes of an element or pixel whose other bytes are poisoned this is DEDUCED, unsafe: poison is kept by bytes (log 4). -/
def Obligations.BufferReadAfterWrite : Prop :=
  ∀ (s t : State) (off : Offset) (n : Nat) (v : Word), s.busy = false → (n = 1 ∨ n = 2 ∨ n = 4) →
    off.toNat % n = 0 → isBufferByte params off.toNat = true → params.inBytes % 4 = 0 → exec (.hostWrite off n v) s = .next t →
    ∃ k, exec (.hostRead off n) t =
      .next { t with resp := .data (BitVec.ofNat 32 (v.toNat % 2 ^ (8 * n))), fresh := k }

/-- Host writes of the writable registers (40_host_bus.md R92): IN_LEN and KINIT take their fields while idle; IRQ_EN takes
bit 0 and IRQ_STAT clears DONE_IP on a 1 and leaves it on a 0, also while BUSY = 1; irq follows (10_state.md R27,
R31 to R33, R40). -/
def Obligations.HostWriteOfRegisters : Prop :=
  ∀ (s : State) (v : Word),
    (s.busy = false →
      exec (.hostWrite 0x00C#18 4 v) s = .next
        { s with inLen := v.extractLsb' 0 17, resp := .done, irq := s.doneIe && s.doneIp } ∧
      exec (.hostWrite 0x024#18 4 v) s = .next
        { s with
          krInit := v.extractLsb' 0 4, kgrInit := v.extractLsb' 8 4, resp := .done
          irq := s.doneIe && s.doneIp }) ∧
    exec (.hostWrite 0x01C#18 4 v) s = .next
      { s with doneIe := v.getLsbD 0, resp := .done, irq := v.getLsbD 0 && s.doneIp } ∧
    exec (.hostWrite 0x020#18 4 v) s = .next
      { s with
        doneIp := s.doneIp && !(v.getLsbD 0), resp := .done
        irq := s.doneIe && (s.doneIp && !(v.getLsbD 0)) }

/-- Acceptance within a CMD write of an idle block (44_control.md R180): ENG takes the word, BUSY 1, DONE, ERR and ERRCODE 0,
LASTOP the low four bits; 0x00000007 is the soft reset instead. -/
def Obligations.CmdWriteAccepts : Prop :=
  ∀ (s : State) (w : Word), s.busy = false →
    (w ≠ 7#32 → exec (.hostWrite 0x004#18 4 w) s = .next
      { s with
        eng := some w, busy := true, done := false, err := false, errcode := 0#8
        lastop := w.extractLsb' 0 4, resp := .done, irq := s.doneIe && s.doneIp }) ∧
    (w = 7#32 → ∃ t, exec .softReset s = .next t ∧
      exec (.hostWrite 0x004#18 4 w) s = .next { t with resp := .done })

/-- irq changes only at a completion, at a write of IRQ_EN or IRQ_STAT, at SOFT_RESET and at hard reset
(60_exceptions.md R198). -/
def Obligations.IrqChangesOnlyAtItsEvents : Prop :=
  ∀ s t : State, BlockInv params s → step s = .next t → t.irq ≠ s.irq →
    (s.busy = true ∧ (s.turns = [] ∨ ∃ rest, s.turns = .engine :: rest)) ∨
    (∃ rest, s.turns = .hardReset :: rest) ∨
    (∃ a rest, s.turns = .access a :: rest ∧ a.write = true ∧
      (a.off = 0x01C#18 ∨ a.off = 0x020#18 ∨ (a.off = 0x004#18 ∧ a.v = 7#32)))

/-- Only a successful RLGR_DECODE writes the result registers, but for a soft reset (10_state.md R28 to R30,
41_rlgr.md R114). -/
def Obligations.ResultRegistersWrittenOnlyByRlgr : Prop :=
  ∀ (i : Instr) (s t : State), exec i s = .next t →
    (t.rlgrBits ≠ s.rlgrBits ∨ t.rlgrEmit ≠ s.rlgrEmit ∨ t.rlgrKr ≠ s.rlgrKr ∨ t.rlgrKgr ≠ s.rlgrKgr) →
    (∃ ch count, i = .rlgrDecode ch count ∧ ch ≠ 3#2 ∧ count.toNat ≤ 4096 ∧ s.inLen.toNat ≤ params.inBytes) ∨
    i = .softReset ∨ (∃ n, i = .hostWrite 0x004#18 n 7#32)

/-! ## Platform and parameters -/

/-- Instances are independent (60_exceptions.md R202), for any parameters: a step of instance k is a step of the
one-instance machine on its state, and no step of it and no access issued to it changes another instance. The platform
layer is the model's way to hold several instances (log 17). -/
def Obligations.InstancesAreIndependent : Prop :=
  ∀ P : Config.Params,
    (∀ (p q : Platform) (k : Nat), stepInstance P k p = .next q →
      (∀ j, j ≠ k → q[j]? = p[j]?) ∧
      ∀ s, p[k]? = some s → ∃ t, stepWith P s = .next t ∧ q[k]? = some t) ∧
    (∀ (p : Platform) (addr : Word) (n : Nat) (v : Word) (k : Nat) (off : Offset),
      selectInstance P addr = some (k, off) → ∀ j, j ≠ k →
        (memRead P addr n p)[j]? = p[j]? ∧ (memWrite P addr n v p)[j]? = p[j]?)

/-- Address decoding (20_memory.md R50), for any N_INST and INST_BASE: the address INST_BASE[k] + off, off < 0x40000, is the
offset off of instance k, for the first instance with that base, and an address outside every window is no access.
INST_BASE has no default in the spec (log 18). -/
def Obligations.AddressSelectsInstanceAndOffset : Prop :=
  ∀ P : Config.Params,
    (∀ (k : Nat) (off : Offset), k < P.nInst → (∀ j < k, P.instIndex j ≠ P.instIndex k) →
      selectInstance P (P.instBase k + off.setWidth 32) = some (k, off)) ∧
    (∀ addr : Word, (∀ k < P.nInst, ¬ ((P.instBase k).toNat ≤ addr.toNat ∧ addr.toNat < (P.instBase k).toNat + 0x40000)) →
      selectInstance P addr = none)

/-- The values of the parameters that the machine runs with are the spec's defaults (00_scope.md R4, 43_color.md R162, R166,
42_dwt.md R134, R141), and the operations and the step are those of the parametric machine at these values. That the
block has the defaults is the model's choice (log 9; the liftings log 10, the matrix and the YCoCg function log 11, the
number of instances log 17). -/
def Obligations.MachineRunsTheDefaultParameters : Prop :=
  params.inBytes = 65536 ∧ params.colorMatrix = ⟨91915, 46818, 22526, 115992⟩ ∧ params.ycocgFn = ycocg ∧
  params.liftNx = liftNx ∧ params.liftX = liftX ∧ params.nInst = 4 ∧
  (∀ (i : Instr) (s : State), exec i s = execWith params i s) ∧ (∀ s : State, step s = stepWith params s)
end

