-- ==== Sys2Proof/Laws/Memory.lean ====
section
/-! SUPPORT. What the memory operations do, byte by byte, and that they keep the canonical form. -/

namespace Sys2Proof.Machine

/-! Reading one byte after a write or a poisoning. -/

theorem readByte_append (m k : List Host.Cell) (a : Nat) :
    readByte (m ++ k) a = (readByte m a).or (readByte k a) := by
  induction m with
  | nil => simp [readByte]
  | cons c m ih =>
    obtain ⟨b, v⟩ := c
    by_cases h : b = a <;> simp [readByte, h, ih]

theorem readByte_cellsBelow (m : List Host.Cell) (b a : Nat) :
    readByte (cellsBelow m b) a = if a < b then readByte m a else none := by
  induction m with
  | nil => simp [cellsBelow, readByte]
  | cons c m ih =>
    obtain ⟨x, v⟩ := c
    unfold cellsBelow at ih ⊢
    by_cases hx : x < b
    · rw [List.filter_cons_of_pos (by simpa using hx)]
      by_cases h : x = a
      · subst h; simp [readByte, hx]
      · simp [readByte, h, ih]
    · rw [List.filter_cons_of_neg (by simpa using hx), ih]
      by_cases h : x = a
      · subst h; simp [hx]
      · simp [readByte, h]

theorem readByte_cellsFrom (m : List Host.Cell) (b a : Nat) :
    readByte (cellsFrom m b) a = if b ≤ a then readByte m a else none := by
  induction m with
  | nil => simp [cellsFrom, readByte]
  | cons c m ih =>
    obtain ⟨x, v⟩ := c
    unfold cellsFrom at ih ⊢
    by_cases hx : b ≤ x
    · rw [List.filter_cons_of_pos (by simpa using hx)]
      by_cases h : x = a
      · subst h; simp [readByte, hx]
      · simp [readByte, h, ih]
    · rw [List.filter_cons_of_neg (by simpa using hx), ih]
      by_cases h : x = a
      · subst h; simp [hx]
      · simp [readByte, h]

theorem readByte_cellsAt (b : Nat) (vs : List Byte) (a : Nat) :
    readByte (cellsAt b vs) a = if b ≤ a then vs[a - b]? else none := by
  induction vs generalizing b with
  | nil => simp [cellsAt, readByte]
  | cons v vs ih =>
    simp only [cellsAt, readByte, ih]
    by_cases h : b = a
    · subst h; simp
    · by_cases h2 : b ≤ a
      · have h3 : b + 1 ≤ a := by omega
        have h4 : a - b = (a - (b + 1)) + 1 := by omega
        simp [h, h2, h3, h4]
      · have h3 : ¬ b + 1 ≤ a := by omega
        simp [h, h2, h3]

/-- A byte after a range is written: the written byte inside it, the byte as before outside it. -/
theorem readByte_writeRange (m : List Host.Cell) (b : Nat) (vs : List Byte) (a : Nat) :
    readByte (writeRange m b vs) a =
      if b ≤ a ∧ a < b + vs.length then vs[a - b]? else readByte m a := by
  unfold writeRange
  simp only [readByte_append, readByte_cellsBelow, readByte_cellsFrom, readByte_cellsAt]
  by_cases h1 : a < b
  · have h2 : ¬ b ≤ a := by omega
    have h3 : ¬ b + vs.length ≤ a := by omega
    simp [h1, h2, h3]
  · have h2 : b ≤ a := by omega
    by_cases h3 : a < b + vs.length
    · have h4 : ¬ b + vs.length ≤ a := by omega
      simp [h1, h2, h3, h4]
    · have h4 : b + vs.length ≤ a := by omega
      have h5 : vs[a - b]? = none := by rw [List.getElem?_eq_none_iff]; omega
      simp [h1, h2, h3, h4, h5]

/-- A byte after a range is poisoned: no value inside it, the byte as before outside it. -/
theorem readByte_poisonRange (m : List Host.Cell) (b n a : Nat) :
    readByte (poisonRange m b n) a = if b ≤ a ∧ a < b + n then none else readByte m a := by
  unfold poisonRange
  simp only [readByte_append, readByte_cellsBelow, readByte_cellsFrom]
  by_cases h1 : a < b
  · have h2 : ¬ b ≤ a := by omega
    have h3 : ¬ b + n ≤ a := by omega
    simp [h1, h2, h3]
  · have h2 : b ≤ a := by omega
    by_cases h3 : a < b + n
    · have h4 : ¬ b + n ≤ a := by omega
      simp [h1, h2, h3, h4]
    · have h4 : b + n ≤ a := by omega
      simp [h1, h3, h4]

/-! The canonical form. -/

/-- Strictly rising offsets, as a pairwise relation. -/
theorem strictlyRising_iff (m : List Host.Cell) :
    strictlyRising m = true ↔ m.Pairwise fun c d => c.1 < d.1 := by
  induction m with
  | nil => simp [strictlyRising]
  | cons c m ih =>
    cases m with
    | nil => simp [strictlyRising]
    | cons d m =>
      simp only [strictlyRising, Bool.and_eq_true, decide_eq_true_eq, ih, List.pairwise_cons]
      constructor
      · rintro ⟨h1, h2, h3⟩
        refine ⟨?_, h2, h3⟩
        intro e he
        rcases List.mem_cons.1 he with rfl | he
        · exact h1
        · exact Nat.lt_trans h1 (h2 e he)
      · rintro ⟨h1, h2, h3⟩
        exact ⟨h1 d (by simp), h2, h3⟩

theorem wf_iff (m : List Host.Cell) :
    Memory.wf m = true ↔ m.Pairwise fun c d => c.1 < d.1 := strictlyRising_iff m

theorem mem_cellsAt {b : Nat} {vs : List Byte} {c : Host.Cell} (h : c ∈ cellsAt b vs) :
    b ≤ c.1 ∧ c.1 < b + vs.length := by
  induction vs generalizing b with
  | nil => simp [cellsAt] at h
  | cons v vs ih =>
    simp only [cellsAt, List.mem_cons] at h
    rcases h with rfl | h
    · simp
    · have := ih h
      simp only [List.length_cons]
      omega

theorem cellsAt_pairwise (b : Nat) (vs : List Byte) :
    (cellsAt b vs).Pairwise fun c d => c.1 < d.1 := by
  induction vs generalizing b with
  | nil => simp [cellsAt]
  | cons v vs ih =>
    simp only [cellsAt, List.pairwise_cons]
    exact ⟨fun c hc => (mem_cellsAt hc).1, ih (b + 1)⟩

theorem mem_cellsBelow {m : List Host.Cell} {b : Nat} {c : Host.Cell} :
    c ∈ cellsBelow m b ↔ c ∈ m ∧ c.1 < b := by simp [cellsBelow]

theorem mem_cellsFrom {m : List Host.Cell} {b : Nat} {c : Host.Cell} :
    c ∈ cellsFrom m b ↔ c ∈ m ∧ b ≤ c.1 := by simp [cellsFrom]

/-- Writing keeps the canonical form. -/
theorem wf_writeRange (m : List Host.Cell) (b : Nat) (vs : List Byte) (h : Memory.wf m = true) :
    Memory.wf (writeRange m b vs) = true := by
  rw [wf_iff] at h ⊢
  unfold writeRange
  rw [List.pairwise_append, List.pairwise_append]
  refine ⟨⟨h.filter _, cellsAt_pairwise b vs, ?_⟩, h.filter _, ?_⟩
  · intro c hc d hd
    have := (mem_cellsBelow.1 hc).2
    have := (mem_cellsAt hd).1
    omega
  · intro c hc d hd
    have hd := (mem_cellsFrom.1 hd).2
    rcases List.mem_append.1 hc with hc | hc
    · have := (mem_cellsBelow.1 hc).2
      omega
    · have := (mem_cellsAt hc).2
      omega

/-- Poisoning keeps the canonical form. -/
theorem wf_poisonRange (m : List Host.Cell) (b n : Nat) (h : Memory.wf m = true) :
    Memory.wf (poisonRange m b n) = true := by
  rw [wf_iff] at h ⊢
  unfold poisonRange
  rw [List.pairwise_append]
  refine ⟨h.filter _, h.filter _, ?_⟩
  intro c hc d hd
  have := (mem_cellsBelow.1 hc).2
  have := (mem_cellsFrom.1 hd).2
  omega

/-- Which cells a written memory lists. -/
theorem mem_writeRange {m : List Host.Cell} {b : Nat} {vs : List Byte} {c : Host.Cell}
    (h : c ∈ writeRange m b vs) : c ∈ m ∨ (b ≤ c.1 ∧ c.1 < b + vs.length) := by
  simp only [writeRange, List.mem_append, mem_cellsBelow, mem_cellsFrom] at h
  rcases h with (h | h) | h
  · exact .inl h.1
  · exact .inr (mem_cellsAt h)
  · exact .inl h.1

/-- Which cells a poisoned memory lists. -/
theorem mem_poisonRange {m : List Host.Cell} {b n : Nat} {c : Host.Cell}
    (h : c ∈ poisonRange m b n) : c ∈ m := by
  simp only [poisonRange, List.mem_append, mem_cellsBelow, mem_cellsFrom] at h
  exact h.elim (·.1) (·.1)

/-! Reading a range. -/

theorem readByte_none_of_lt {m : List Host.Cell} {a : Nat} (h : ∀ c ∈ m, a < c.1) :
    readByte m a = none := by
  induction m with
  | nil => rfl
  | cons c m ih =>
    obtain ⟨b, v⟩ := c
    have hb : a < b := h (b, v) (by simp)
    have hne : b ≠ a := by omega
    simp only [readByte, hne, if_false]
    exact ih fun d hd => h d (by simp [hd])

theorem readRange_length {m : List Host.Cell} {a n : Nat} {vs : List Byte}
    (h : readRange m a n = some vs) : vs.length = n := by
  induction m generalizing a n vs with
  | nil => cases n <;> simp_all [readRange]
  | cons c m ih =>
    obtain ⟨b, v⟩ := c
    cases n with
    | zero => simp_all [readRange]
    | succ n =>
      simp only [readRange] at h
      split at h
      · exact ih h
      · split at h
        · simp only [Option.map_eq_some_iff] at h
          obtain ⟨ws, hw, rfl⟩ := h
          simp [ih hw]
        · cases h

/-- On a canonical memory a range reads as its bytes, if all of them are defined. -/
theorem readRange_eq_some_iff {m : List Host.Cell} (hm : Memory.wf m = true) (a n : Nat) (vs : List Byte) :
    readRange m a n = some vs ↔ vs.length = n ∧ ∀ k < n, readByte m (a + k) = vs[k]? := by
  rw [wf_iff] at hm
  induction m generalizing a n vs with
  | nil =>
    cases n with
    | zero => cases vs <;> simp [readRange]
    | succ n =>
      simp only [readRange, reduceCtorEq, false_iff, not_and, readByte]
      intro hl h
      have := h 0 (by omega)
      rw [eq_comm, List.getElem?_eq_none_iff] at this
      omega
  | cons c m ih =>
    obtain ⟨b, v⟩ := c
    rw [List.pairwise_cons] at hm
    have ih := ih hm.2
    cases n with
    | zero => cases vs <;> simp [readRange]
    | succ n =>
      simp only [readRange]
      by_cases h1 : b < a
      · rw [if_pos h1, ih]
        refine and_congr_right fun _ => forall_congr' fun k => imp_congr_right fun _ => ?_
        have : b ≠ a + k := by omega
        simp [readByte, this]
      · rw [if_neg h1]
        by_cases h2 : b = a
        · subst h2
          simp only [if_true, Option.map_eq_some_iff]
          constructor
          · rintro ⟨ws, hw, rfl⟩
            rw [ih] at hw
            refine ⟨by simp [hw.1], fun k hk => ?_⟩
            cases k with
            | zero => simp [readByte]
            | succ k =>
              have h3 := hw.2 k (by omega)
              have h4 : b + (k + 1) = b + 1 + k := by omega
              have h5 : b ≠ b + 1 + k := by omega
              simp [readByte, h4, h5, h3]
          · rintro ⟨hl, h⟩
            cases vs with
            | nil => simp at hl
            | cons w ws =>
              have h0 := h 0 (by omega)
              simp only [readByte, Nat.add_zero, if_true, List.getElem?_cons_zero, Option.some.injEq] at h0
              subst h0
              refine ⟨ws, ?_, rfl⟩
              rw [ih]
              refine ⟨by simpa using hl, fun k hk => ?_⟩
              have h3 := h (k + 1) (by omega)
              have h4 : b + (k + 1) = b + 1 + k := by omega
              have h5 : b ≠ b + 1 + k := by omega
              simpa [readByte, h4, h5] using h3
        · rw [if_neg h2]
          simp only [reduceCtorEq, false_iff, not_and]
          intro hl h
          have h0 := h 0 (by omega)
          have hlt : ∀ c ∈ (b, v) :: m, a < c.1 := by
            intro c hc
            rcases List.mem_cons.1 hc with rfl | hc
            · simp; omega
            · have := hm.1 c hc
              simp at this; omega
          rw [Nat.add_zero, readByte_none_of_lt hlt, eq_comm, List.getElem?_eq_none_iff] at h0
          omega

/-- Canonical memories that read the same at every offset are equal data. -/
theorem eq_of_readByte_eq {m m' : List Host.Cell} (h1 : Memory.wf m = true) (h2 : Memory.wf m' = true)
    (h : ∀ a, readByte m a = readByte m' a) : m = m' := by
  rw [wf_iff] at h1 h2
  induction m generalizing m' with
  | nil =>
    cases m' with
    | nil => rfl
    | cons c m' => have := h c.1; simp [readByte] at this
  | cons c m ih =>
    cases m' with
    | nil => have := h c.1; simp [readByte] at this
    | cons d m' =>
      rw [List.pairwise_cons] at h1 h2
      have hk : c.1 = d.1 := by
        by_contra hne
        rcases Nat.lt_or_gt_of_ne hne with hl | hl
        · have := h c.1
          simp only [readByte, if_true] at this
          rw [if_neg (by omega), readByte_none_of_lt fun e he => by have := h2.1 e he; omega] at this
          cases this
        · have := h d.1
          simp only [readByte, if_true] at this
          rw [if_neg (by omega), readByte_none_of_lt fun e he => by have := h1.1 e he; omega] at this
          cases this
      have hv : c.2 = d.2 := by
        have := h c.1
        simp only [readByte, if_true, hk] at this
        exact Option.some.inj this
      obtain rfl : c = d := Prod.ext hk hv
      congr 1
      refine ih h1.2 h2.2 fun a => ?_
      by_cases ha : c.1 = a
      · subst ha
        rw [readByte_none_of_lt h1.1, readByte_none_of_lt h2.1]
      · simpa [readByte, ha] using h a

end Sys2Proof.Machine
end

