-- ==== Sys2Proof/Laws/Buffers.lean ====
section
/-! SUPPORT. What the element operations on IN, COEF and PIX do, in terms of the elements. -/

namespace Sys2Proof.Machine

/-! Byte images. -/

/-- The element a byte image holds for `v` is the low 16 bits of `v` as a signed number. -/
def wrap16 (v : Int) : Int := (BitVec.ofInt 16 v).toInt

theorem wrap16_of_range {v : Int} (h1 : -32768 ≤ v) (h2 : v ≤ 32767) : wrap16 v = v := by
  unfold wrap16
  rw [BitVec.toInt_ofInt, Int.bmod_eq_of_le (by norm_num; omega) (by norm_num; omega)]

theorem append_extract (h : Half) : (h.extractLsb' 8 8 ++ h.extractLsb' 0 8 : Half) = h := by
  apply BitVec.eq_of_getLsbD_eq
  intro i hi
  simp only [BitVec.getLsbD_append, BitVec.getLsbD_extractLsb']
  by_cases h8 : i < 8
  · simp [h8]
  · have h3 : 8 + (i - 8) = i := by omega
    have h4 : i - 8 < 8 := by omega
    simp [h8, h3, h4]

theorem elementOf_elementBytes (v : Int) :
    elementOf ((BitVec.ofInt 16 v).extractLsb' 0 8) ((BitVec.ofInt 16 v).extractLsb' 8 8) = wrap16 v := by
  unfold elementOf wrap16
  rw [append_extract]

@[simp] theorem elementsBytes_nil : elementsBytes [] = [] := rfl

@[simp] theorem elementsBytes_cons (v : Int) (vs : List Int) :
    elementsBytes (v :: vs) =
      (BitVec.ofInt 16 v).extractLsb' 0 8 :: (BitVec.ofInt 16 v).extractLsb' 8 8 :: elementsBytes vs := rfl

@[simp] theorem elementsBytes_length (vs : List Int) : (elementsBytes vs).length = 2 * vs.length := by
  induction vs with
  | nil => rfl
  | cons v vs ih => simp [ih]; omega

theorem elementsBytes_getElem?_low (vs : List Int) (i : Nat) :
    (elementsBytes vs)[2 * i]? = vs[i]?.map fun v => (BitVec.ofInt 16 v).extractLsb' 0 8 := by
  induction vs generalizing i with
  | nil => simp
  | cons v vs ih =>
    cases i with
    | zero => simp
    | succ i =>
      have h : 2 * (i + 1) = 2 * i + 1 + 1 := by omega
      simp only [h, elementsBytes_cons, List.getElem?_cons_succ, ih]

theorem elementsBytes_getElem?_high (vs : List Int) (i : Nat) :
    (elementsBytes vs)[2 * i + 1]? = vs[i]?.map fun v => (BitVec.ofInt 16 v).extractLsb' 8 8 := by
  induction vs generalizing i with
  | nil => simp
  | cons v vs ih =>
    cases i with
    | zero => simp
    | succ i =>
      have h : 2 * (i + 1) + 1 = 2 * i + 1 + 1 + 1 := by omega
      simp only [h, elementsBytes_cons, List.getElem?_cons_succ, ih]

theorem elementsOf_length (n : Nat) (bs : List Byte) (h : bs.length = 2 * n) :
    (elementsOf bs).length = n := by
  induction n generalizing bs with
  | zero =>
    have : bs = [] := List.eq_nil_of_length_eq_zero (by omega)
    simp [this, elementsOf]
  | succ n ih =>
    match bs, h with
    | lo :: hi :: rest, h => simp [elementsOf, ih rest (by simp at h; omega)]
    | [_], h => simp at h; omega
    | [], h => simp at h

theorem elementsOf_getElem? (n : Nat) (bs : List Byte) (h : bs.length = 2 * n) (i : Nat) (hi : i < n) :
    (elementsOf bs)[i]? =
      match bs[2 * i]?, bs[2 * i + 1]? with
      | some lo, some hi => some (elementOf lo hi)
      | _, _ => none := by
  induction n generalizing bs i with
  | zero => omega
  | succ n ih =>
    match bs, h with
    | lo :: hi' :: rest, h =>
      cases i with
      | zero => simp [elementsOf]
      | succ i =>
        have h2 : 2 * (i + 1) = 2 * i + 1 + 1 := by omega
        simp only [elementsOf, h2, List.getElem?_cons_succ]
        exact ih rest (by simp at h; omega) i (by omega)
    | [_], h => simp at h; omega
    | [], h => simp at h

@[simp] theorem pixelsBytes_nil : pixelsBytes [] = [] := rfl

@[simp] theorem pixelsBytes_cons (p : Config.Pixel) (ps : List Config.Pixel) :
    pixelsBytes (p :: ps) = p.r :: p.g :: p.b :: p.a :: pixelsBytes ps := rfl

@[simp] theorem pixelsBytes_length (ps : List Config.Pixel) : (pixelsBytes ps).length = 4 * ps.length := by
  induction ps with
  | nil => rfl
  | cons p ps ih => simp [ih]; omega

theorem pixelsBytes_getElem? (ps : List Config.Pixel) (i : Nat) :
    (pixelsBytes ps)[4 * i]? = ps[i]?.map (·.r) ∧ (pixelsBytes ps)[4 * i + 1]? = ps[i]?.map (·.g) ∧
      (pixelsBytes ps)[4 * i + 2]? = ps[i]?.map (·.b) ∧ (pixelsBytes ps)[4 * i + 3]? = ps[i]?.map (·.a) := by
  induction ps generalizing i with
  | nil => simp
  | cons p ps ih =>
    cases i with
    | zero => simp
    | succ i =>
      have h : 4 * (i + 1) = 4 * i + 1 + 1 + 1 + 1 := by omega
      have ih := ih i
      simp only [h, pixelsBytes_cons, List.getElem?_cons_succ]
      exact ih

/-! Elements of a written or poisoned buffer. -/

/-- An element of the stored channel after a store. -/
theorem coefAt_storeCoefs (m : List Host.Cell) (c : Nat) (vs : List Int) (i : Nat) (hi : i < vs.length) :
    coefAt (storeCoefs m c vs) c i = vs[i]?.map wrap16 := by
  unfold coefAt storeCoefs
  rw [readByte_writeRange, readByte_writeRange, if_pos (by rw [elementsBytes_length]; omega),
    if_pos (by rw [elementsBytes_length]; omega)]
  have h1 : coefBase c + 2 * i - coefBase c = 2 * i := by omega
  have h2 : coefBase c + 2 * i + 1 - coefBase c = 2 * i + 1 := by omega
  rw [h1, h2, elementsBytes_getElem?_low, elementsBytes_getElem?_high, List.getElem?_eq_getElem hi]
  simp only [Option.map_some, elementOf_elementBytes]

/-- A pixel of PIX after a store. -/
theorem pixAt_storePixels (m : List Host.Cell) (ps : List Config.Pixel) (i : Nat) (hi : i < ps.length) :
    pixAt (storePixels m ps) i = ps[i]? := by
  unfold pixAt storePixels
  rw [readByte_writeRange, readByte_writeRange, readByte_writeRange, readByte_writeRange]
  rw [if_pos (by rw [pixelsBytes_length]; omega), if_pos (by rw [pixelsBytes_length]; omega),
    if_pos (by rw [pixelsBytes_length]; omega), if_pos (by rw [pixelsBytes_length]; omega)]
  have h0 : pixBase + 4 * i - pixBase = 4 * i := by omega
  have h1 : pixBase + 4 * i + 1 - pixBase = 4 * i + 1 := by omega
  have h2 : pixBase + 4 * i + 2 - pixBase = 4 * i + 2 := by omega
  have h3 : pixBase + 4 * i + 3 - pixBase = 4 * i + 3 := by omega
  obtain ⟨g0, g1, g2, g3⟩ := pixelsBytes_getElem? ps i
  rw [h0, h1, h2, h3, g0, g1, g2, g3, List.getElem?_eq_getElem hi]
  rfl

/-- An element of the poisoned part of a channel is poisoned. -/
theorem coefAt_poisonCoefs (m : List Host.Cell) (c n i : Nat) (hi : i < n) :
    coefAt (poisonCoefs m c n) c i = none := by
  unfold coefAt poisonCoefs
  rw [readByte_poisonRange, if_pos (by omega)]

/-- On a canonical memory a channel loads as its elements, if all of them are defined. -/
theorem loadCoefs_eq_some {m : List Host.Cell} (hm : Memory.wf m = true) {c : Nat} {B : List Int}
    (h : loadCoefs m c = some B) : B.length = 4096 ∧ ∀ i < 4096, coefAt m c i = B[i]? := by
  unfold loadCoefs at h
  simp only [Option.map_eq_some_iff] at h
  obtain ⟨bs, hb, rfl⟩ := h
  rw [readRange_eq_some_iff hm] at hb
  obtain ⟨hl, hb⟩ := hb
  refine ⟨elementsOf_length 4096 bs (by omega), fun i hi => ?_⟩
  rw [elementsOf_getElem? 4096 bs (by omega) i hi]
  unfold coefAt
  have h1 : coefBase c + 2 * i + 1 = coefBase c + (2 * i + 1) := by omega
  have h2 := hb (2 * i) (by omega)
  have h3 := hb (2 * i + 1) (by omega)
  rw [h1]
  cases h4 : bs[2 * i]? with
  | none => rw [h4] at h2; simp only [h2]
  | some lo =>
    rw [h4] at h2
    cases h5 : bs[2 * i + 1]? with
    | none => rw [h5] at h3; simp only [h2, h3]
    | some hi' => rw [h5] at h3; simp only [h2, h3]

/-- A range whose every byte is defined loads. -/
theorem readRange_isSome {m : List Host.Cell} (hm : Memory.wf m = true) (a n : Nat)
    (h : ∀ k < n, (readByte m (a + k)).isSome) : (readRange m a n).isSome := by
  rw [Option.isSome_iff_exists]
  refine ⟨(List.range n).map fun k => (readByte m (a + k)).getD 0#8, ?_⟩
  rw [readRange_eq_some_iff hm]
  refine ⟨by simp, fun k hk => ?_⟩
  have := h k hk
  rw [Option.isSome_iff_exists] at this
  obtain ⟨v, hv⟩ := this
  simp [hv, hk]

/-- A channel with a poisoned element does not load. -/
theorem loadCoefs_eq_none {m : List Host.Cell} (hm : Memory.wf m = true) {c i : Nat} (hi : i < 4096)
    (h : coefAt m c i = none) : loadCoefs m c = none := by
  cases hl : loadCoefs m c with
  | none => rfl
  | some B =>
    obtain ⟨hlen, hB⟩ := loadCoefs_eq_some hm hl
    have := hB i hi
    rw [h, eq_comm, List.getElem?_eq_none_iff] at this
    omega

/-- A channel whose every element is defined loads. -/
theorem loadCoefs_isSome {m : List Host.Cell} (hm : Memory.wf m = true) {c : Nat}
    (h : ∀ i < 4096, (coefAt m c i).isSome) : (loadCoefs m c).isSome := by
  unfold loadCoefs
  rw [Option.isSome_map]
  refine readRange_isSome hm _ _ fun k hk => ?_
  have hc := h (k / 2) (by omega)
  unfold coefAt at hc
  have hk2 : k = 2 * (k / 2) ∨ k = 2 * (k / 2) + 1 := by omega
  rcases hk2 with h2 | h2
  · rw [h2]
    cases h3 : readByte m (coefBase c + 2 * (k / 2)) with
    | none => simp [h3] at hc
    | some _ => rfl
  · rw [h2, ← Nat.add_assoc]
    cases h3 : readByte m (coefBase c + 2 * (k / 2) + 1) with
    | none =>
      cases h4 : readByte m (coefBase c + 2 * (k / 2)) <;> simp [h3, h4] at hc
    | some _ => rfl

/-- On a canonical memory IN[0..len−1] loads as its bytes, if all of them are defined. -/
theorem loadIn_eq_some_iff {m : List Host.Cell} (hm : Memory.wf m = true) (len : Nat) (bs : List Byte) :
    loadIn m len = some bs ↔ bs.length = len ∧ ∀ k < len, inAt m k = bs[k]? :=
  readRange_eq_some_iff hm inBase len bs

end Sys2Proof.Machine
end

