-- ==== Sys2Proof/Laws/State.lean ====
section
/-! SUPPORT. One lemma per field of State per shared update, so that no later proof unfolds a record update. -/

namespace Sys2Proof.Machine

/-! refreshIrq -/

@[simp] theorem refreshIrq_busy (s : State) : (refreshIrq s).busy = s.busy := rfl
@[simp] theorem refreshIrq_done (s : State) : (refreshIrq s).done = s.done := rfl
@[simp] theorem refreshIrq_err (s : State) : (refreshIrq s).err = s.err := rfl
@[simp] theorem refreshIrq_lastop (s : State) : (refreshIrq s).lastop = s.lastop := rfl
@[simp] theorem refreshIrq_errcode (s : State) : (refreshIrq s).errcode = s.errcode := rfl
@[simp] theorem refreshIrq_inLen (s : State) : (refreshIrq s).inLen = s.inLen := rfl
@[simp] theorem refreshIrq_rlgrBits (s : State) : (refreshIrq s).rlgrBits = s.rlgrBits := rfl
@[simp] theorem refreshIrq_rlgrEmit (s : State) : (refreshIrq s).rlgrEmit = s.rlgrEmit := rfl
@[simp] theorem refreshIrq_rlgrKr (s : State) : (refreshIrq s).rlgrKr = s.rlgrKr := rfl
@[simp] theorem refreshIrq_rlgrKgr (s : State) : (refreshIrq s).rlgrKgr = s.rlgrKgr := rfl
@[simp] theorem refreshIrq_doneIe (s : State) : (refreshIrq s).doneIe = s.doneIe := rfl
@[simp] theorem refreshIrq_doneIp (s : State) : (refreshIrq s).doneIp = s.doneIp := rfl
@[simp] theorem refreshIrq_krInit (s : State) : (refreshIrq s).krInit = s.krInit := rfl
@[simp] theorem refreshIrq_kgrInit (s : State) : (refreshIrq s).kgrInit = s.kgrInit := rfl
@[simp] theorem refreshIrq_mem (s : State) : (refreshIrq s).mem = s.mem := rfl
@[simp] theorem refreshIrq_temp (s : State) : (refreshIrq s).temp = s.temp := rfl
@[simp] theorem refreshIrq_eng (s : State) : (refreshIrq s).eng = s.eng := rfl
@[simp] theorem refreshIrq_irq (s : State) : (refreshIrq s).irq = (s.doneIe && s.doneIp) := rfl
@[simp] theorem refreshIrq_turns (s : State) : (refreshIrq s).turns = s.turns := rfl
@[simp] theorem refreshIrq_resp (s : State) : (refreshIrq s).resp = s.resp := rfl
@[simp] theorem refreshIrq_fresh (s : State) : (refreshIrq s).fresh = s.fresh := rfl
@[simp] theorem refreshIrq_stream (s : State) : (refreshIrq s).stream = s.stream := rfl

/-! finish -/

@[simp] theorem finish_busy (s : State) : (finish s).busy = false := rfl
@[simp] theorem finish_done (s : State) : (finish s).done = true := rfl
@[simp] theorem finish_err (s : State) : (finish s).err = s.err := rfl
@[simp] theorem finish_lastop (s : State) : (finish s).lastop = s.lastop := rfl
@[simp] theorem finish_errcode (s : State) : (finish s).errcode = s.errcode := rfl
@[simp] theorem finish_inLen (s : State) : (finish s).inLen = s.inLen := rfl
@[simp] theorem finish_rlgrBits (s : State) : (finish s).rlgrBits = s.rlgrBits := rfl
@[simp] theorem finish_rlgrEmit (s : State) : (finish s).rlgrEmit = s.rlgrEmit := rfl
@[simp] theorem finish_rlgrKr (s : State) : (finish s).rlgrKr = s.rlgrKr := rfl
@[simp] theorem finish_rlgrKgr (s : State) : (finish s).rlgrKgr = s.rlgrKgr := rfl
@[simp] theorem finish_doneIe (s : State) : (finish s).doneIe = s.doneIe := rfl
@[simp] theorem finish_doneIp (s : State) : (finish s).doneIp = true := rfl
@[simp] theorem finish_krInit (s : State) : (finish s).krInit = s.krInit := rfl
@[simp] theorem finish_kgrInit (s : State) : (finish s).kgrInit = s.kgrInit := rfl
@[simp] theorem finish_mem (s : State) : (finish s).mem = s.mem := rfl
@[simp] theorem finish_temp (s : State) : (finish s).temp = s.temp := rfl
@[simp] theorem finish_eng (s : State) : (finish s).eng = none := rfl
@[simp] theorem finish_irq (s : State) : (finish s).irq = s.doneIe := by simp [finish, refreshIrq]
@[simp] theorem finish_turns (s : State) : (finish s).turns = s.turns := rfl
@[simp] theorem finish_resp (s : State) : (finish s).resp = s.resp := rfl
@[simp] theorem finish_fresh (s : State) : (finish s).fresh = s.fresh := rfl
@[simp] theorem finish_stream (s : State) : (finish s).stream = s.stream := rfl

/-! raiseCmdError -/

@[simp] theorem raiseCmdError_busy (e : CmdError) (s : State) : (raiseCmdError e s).busy = false := rfl
@[simp] theorem raiseCmdError_done (e : CmdError) (s : State) : (raiseCmdError e s).done = true := rfl
@[simp] theorem raiseCmdError_err (e : CmdError) (s : State) : (raiseCmdError e s).err = true := rfl
@[simp] theorem raiseCmdError_lastop (e : CmdError) (s : State) : (raiseCmdError e s).lastop = s.lastop := rfl
@[simp] theorem raiseCmdError_errcode (e : CmdError) (s : State) : (raiseCmdError e s).errcode = errorCode e := rfl
@[simp] theorem raiseCmdError_inLen (e : CmdError) (s : State) : (raiseCmdError e s).inLen = s.inLen := rfl
@[simp] theorem raiseCmdError_rlgrBits (e : CmdError) (s : State) : (raiseCmdError e s).rlgrBits = s.rlgrBits := rfl
@[simp] theorem raiseCmdError_rlgrEmit (e : CmdError) (s : State) : (raiseCmdError e s).rlgrEmit = s.rlgrEmit := rfl
@[simp] theorem raiseCmdError_rlgrKr (e : CmdError) (s : State) : (raiseCmdError e s).rlgrKr = s.rlgrKr := rfl
@[simp] theorem raiseCmdError_rlgrKgr (e : CmdError) (s : State) : (raiseCmdError e s).rlgrKgr = s.rlgrKgr := rfl
@[simp] theorem raiseCmdError_doneIe (e : CmdError) (s : State) : (raiseCmdError e s).doneIe = s.doneIe := rfl
@[simp] theorem raiseCmdError_doneIp (e : CmdError) (s : State) : (raiseCmdError e s).doneIp = true := rfl
@[simp] theorem raiseCmdError_krInit (e : CmdError) (s : State) : (raiseCmdError e s).krInit = s.krInit := rfl
@[simp] theorem raiseCmdError_kgrInit (e : CmdError) (s : State) : (raiseCmdError e s).kgrInit = s.kgrInit := rfl
@[simp] theorem raiseCmdError_mem (e : CmdError) (s : State) : (raiseCmdError e s).mem = s.mem := rfl
@[simp] theorem raiseCmdError_temp (e : CmdError) (s : State) : (raiseCmdError e s).temp = s.temp := rfl
@[simp] theorem raiseCmdError_eng (e : CmdError) (s : State) : (raiseCmdError e s).eng = none := rfl
@[simp] theorem raiseCmdError_irq (e : CmdError) (s : State) : (raiseCmdError e s).irq = s.doneIe := by simp [raiseCmdError]
@[simp] theorem raiseCmdError_turns (e : CmdError) (s : State) : (raiseCmdError e s).turns = s.turns := rfl
@[simp] theorem raiseCmdError_resp (e : CmdError) (s : State) : (raiseCmdError e s).resp = s.resp := rfl
@[simp] theorem raiseCmdError_fresh (e : CmdError) (s : State) : (raiseCmdError e s).fresh = s.fresh := rfl
@[simp] theorem raiseCmdError_stream (e : CmdError) (s : State) : (raiseCmdError e s).stream = s.stream := rfl

/-! softReset -/

@[simp] theorem softReset_busy (s : State) : (softReset s).busy = false := rfl
@[simp] theorem softReset_done (s : State) : (softReset s).done = false := rfl
@[simp] theorem softReset_err (s : State) : (softReset s).err = false := rfl
@[simp] theorem softReset_lastop (s : State) : (softReset s).lastop = 0#4 := rfl
@[simp] theorem softReset_errcode (s : State) : (softReset s).errcode = 0#8 := rfl
@[simp] theorem softReset_inLen (s : State) : (softReset s).inLen = 0#17 := rfl
@[simp] theorem softReset_rlgrBits (s : State) : (softReset s).rlgrBits = 0#20 := rfl
@[simp] theorem softReset_rlgrEmit (s : State) : (softReset s).rlgrEmit = 0#13 := rfl
@[simp] theorem softReset_rlgrKr (s : State) : (softReset s).rlgrKr = 0#4 := rfl
@[simp] theorem softReset_rlgrKgr (s : State) : (softReset s).rlgrKgr = 0#4 := rfl
@[simp] theorem softReset_doneIe (s : State) : (softReset s).doneIe = false := rfl
@[simp] theorem softReset_doneIp (s : State) : (softReset s).doneIp = false := rfl
@[simp] theorem softReset_krInit (s : State) : (softReset s).krInit = 1#4 := rfl
@[simp] theorem softReset_kgrInit (s : State) : (softReset s).kgrInit = 1#4 := rfl
@[simp] theorem softReset_mem (s : State) : (softReset s).mem = s.mem := rfl
@[simp] theorem softReset_temp (s : State) : (softReset s).temp = freeTemp s.stream s.fresh := by simp only [softReset]
@[simp] theorem softReset_eng (s : State) : (softReset s).eng = none := rfl
@[simp] theorem softReset_irq (s : State) : (softReset s).irq = false := rfl
@[simp] theorem softReset_turns (s : State) : (softReset s).turns = s.turns := rfl
@[simp] theorem softReset_resp (s : State) : (softReset s).resp = s.resp := rfl
@[simp] theorem softReset_fresh (s : State) : (softReset s).fresh = s.fresh + 1 := rfl
@[simp] theorem softReset_stream (s : State) : (softReset s).stream = s.stream := rfl

/-! hardReset -/

@[simp] theorem hardReset_busy (s : State) : (hardReset s).busy = false := rfl
@[simp] theorem hardReset_done (s : State) : (hardReset s).done = false := rfl
@[simp] theorem hardReset_err (s : State) : (hardReset s).err = false := rfl
@[simp] theorem hardReset_lastop (s : State) : (hardReset s).lastop = 0#4 := rfl
@[simp] theorem hardReset_errcode (s : State) : (hardReset s).errcode = 0#8 := rfl
@[simp] theorem hardReset_inLen (s : State) : (hardReset s).inLen = 0#17 := rfl
@[simp] theorem hardReset_rlgrBits (s : State) : (hardReset s).rlgrBits = 0#20 := rfl
@[simp] theorem hardReset_rlgrEmit (s : State) : (hardReset s).rlgrEmit = 0#13 := rfl
@[simp] theorem hardReset_rlgrKr (s : State) : (hardReset s).rlgrKr = 0#4 := rfl
@[simp] theorem hardReset_rlgrKgr (s : State) : (hardReset s).rlgrKgr = 0#4 := rfl
@[simp] theorem hardReset_doneIe (s : State) : (hardReset s).doneIe = false := rfl
@[simp] theorem hardReset_doneIp (s : State) : (hardReset s).doneIp = false := rfl
@[simp] theorem hardReset_krInit (s : State) : (hardReset s).krInit = 1#4 := rfl
@[simp] theorem hardReset_kgrInit (s : State) : (hardReset s).kgrInit = 1#4 := rfl
@[simp] theorem hardReset_mem (s : State) : (hardReset s).mem = [] := rfl
@[simp] theorem hardReset_temp (s : State) : (hardReset s).temp = freeTemp s.stream s.fresh := by simp only [hardReset, softReset]
@[simp] theorem hardReset_eng (s : State) : (hardReset s).eng = none := rfl
@[simp] theorem hardReset_irq (s : State) : (hardReset s).irq = false := rfl
@[simp] theorem hardReset_turns (s : State) : (hardReset s).turns = s.turns := rfl
@[simp] theorem hardReset_resp (s : State) : (hardReset s).resp = s.resp := rfl
@[simp] theorem hardReset_fresh (s : State) : (hardReset s).fresh = s.fresh + 1 := rfl
@[simp] theorem hardReset_stream (s : State) : (hardReset s).stream = s.stream := rfl

/-! acknowledge -/

@[simp] theorem acknowledge_busy (s : State) : (acknowledge s).busy = s.busy := rfl
@[simp] theorem acknowledge_done (s : State) : (acknowledge s).done = s.done := rfl
@[simp] theorem acknowledge_err (s : State) : (acknowledge s).err = s.err := rfl
@[simp] theorem acknowledge_lastop (s : State) : (acknowledge s).lastop = s.lastop := rfl
@[simp] theorem acknowledge_errcode (s : State) : (acknowledge s).errcode = s.errcode := rfl
@[simp] theorem acknowledge_inLen (s : State) : (acknowledge s).inLen = s.inLen := rfl
@[simp] theorem acknowledge_rlgrBits (s : State) : (acknowledge s).rlgrBits = s.rlgrBits := rfl
@[simp] theorem acknowledge_rlgrEmit (s : State) : (acknowledge s).rlgrEmit = s.rlgrEmit := rfl
@[simp] theorem acknowledge_rlgrKr (s : State) : (acknowledge s).rlgrKr = s.rlgrKr := rfl
@[simp] theorem acknowledge_rlgrKgr (s : State) : (acknowledge s).rlgrKgr = s.rlgrKgr := rfl
@[simp] theorem acknowledge_doneIe (s : State) : (acknowledge s).doneIe = s.doneIe := rfl
@[simp] theorem acknowledge_doneIp (s : State) : (acknowledge s).doneIp = false := rfl
@[simp] theorem acknowledge_krInit (s : State) : (acknowledge s).krInit = s.krInit := rfl
@[simp] theorem acknowledge_kgrInit (s : State) : (acknowledge s).kgrInit = s.kgrInit := rfl
@[simp] theorem acknowledge_mem (s : State) : (acknowledge s).mem = s.mem := rfl
@[simp] theorem acknowledge_temp (s : State) : (acknowledge s).temp = s.temp := rfl
@[simp] theorem acknowledge_eng (s : State) : (acknowledge s).eng = s.eng := rfl
@[simp] theorem acknowledge_irq (s : State) : (acknowledge s).irq = s.irq := rfl
@[simp] theorem acknowledge_turns (s : State) : (acknowledge s).turns = s.turns := rfl
@[simp] theorem acknowledge_resp (s : State) : (acknowledge s).resp = s.resp := rfl
@[simp] theorem acknowledge_fresh (s : State) : (acknowledge s).fresh = s.fresh := rfl
@[simp] theorem acknowledge_stream (s : State) : (acknowledge s).stream = s.stream := rfl

/-! raiseBusError -/

@[simp] theorem raiseBusError_busy (c : BusCause) (s : State) : (raiseBusError c s).busy = s.busy := rfl
@[simp] theorem raiseBusError_done (c : BusCause) (s : State) : (raiseBusError c s).done = s.done := rfl
@[simp] theorem raiseBusError_err (c : BusCause) (s : State) : (raiseBusError c s).err = s.err := rfl
@[simp] theorem raiseBusError_lastop (c : BusCause) (s : State) : (raiseBusError c s).lastop = s.lastop := rfl
@[simp] theorem raiseBusError_errcode (c : BusCause) (s : State) : (raiseBusError c s).errcode = s.errcode := rfl
@[simp] theorem raiseBusError_inLen (c : BusCause) (s : State) : (raiseBusError c s).inLen = s.inLen := rfl
@[simp] theorem raiseBusError_rlgrBits (c : BusCause) (s : State) : (raiseBusError c s).rlgrBits = s.rlgrBits := rfl
@[simp] theorem raiseBusError_rlgrEmit (c : BusCause) (s : State) : (raiseBusError c s).rlgrEmit = s.rlgrEmit := rfl
@[simp] theorem raiseBusError_rlgrKr (c : BusCause) (s : State) : (raiseBusError c s).rlgrKr = s.rlgrKr := rfl
@[simp] theorem raiseBusError_rlgrKgr (c : BusCause) (s : State) : (raiseBusError c s).rlgrKgr = s.rlgrKgr := rfl
@[simp] theorem raiseBusError_doneIe (c : BusCause) (s : State) : (raiseBusError c s).doneIe = s.doneIe := rfl
@[simp] theorem raiseBusError_doneIp (c : BusCause) (s : State) : (raiseBusError c s).doneIp = s.doneIp := rfl
@[simp] theorem raiseBusError_krInit (c : BusCause) (s : State) : (raiseBusError c s).krInit = s.krInit := rfl
@[simp] theorem raiseBusError_kgrInit (c : BusCause) (s : State) : (raiseBusError c s).kgrInit = s.kgrInit := rfl
@[simp] theorem raiseBusError_mem (c : BusCause) (s : State) : (raiseBusError c s).mem = s.mem := rfl
@[simp] theorem raiseBusError_temp (c : BusCause) (s : State) : (raiseBusError c s).temp = s.temp := rfl
@[simp] theorem raiseBusError_eng (c : BusCause) (s : State) : (raiseBusError c s).eng = s.eng := rfl
@[simp] theorem raiseBusError_irq (c : BusCause) (s : State) : (raiseBusError c s).irq = s.irq := rfl
@[simp] theorem raiseBusError_turns (c : BusCause) (s : State) : (raiseBusError c s).turns = s.turns := rfl
@[simp] theorem raiseBusError_resp (c : BusCause) (s : State) : (raiseBusError c s).resp = .busErr c := rfl
@[simp] theorem raiseBusError_fresh (c : BusCause) (s : State) : (raiseBusError c s).fresh = s.fresh := rfl
@[simp] theorem raiseBusError_stream (c : BusCause) (s : State) : (raiseBusError c s).stream = s.stream := rfl

/-! accept -/

theorem accept_softReset (s : State) : accept 7#32 s = softReset s := by simp [accept]

theorem accept_command (w : Word) (s : State) (h : w ≠ 7#32) :
    accept w s =
      { s with
        eng := some w, busy := true, done := false, err := false, errcode := 0#8
        lastop := w.extractLsb' 0 4 } := by
  simp [accept, h]

@[simp] theorem accept_mem (w : Word) (s : State) : (accept w s).mem = s.mem := by
  unfold accept; split <;> rfl

@[simp] theorem accept_turns (w : Word) (s : State) : (accept w s).turns = s.turns := by
  unfold accept; split <;> rfl

@[simp] theorem accept_resp (w : Word) (s : State) : (accept w s).resp = s.resp := by
  unfold accept; split <;> rfl

/-- Completion as one record update (44_control.md R181). -/
theorem finish_eq (s : State) :
    finish s = { s with busy := false, done := true, doneIp := true, eng := none, irq := s.doneIe } := by
  simp [finish, refreshIrq]

/-- A command error as one record update (60_exceptions.md R193). -/
theorem raiseCmdError_eq (e : CmdError) (s : State) :
    raiseCmdError e s =
      { s with
        busy := false, done := true, err := true, errcode := errorCode e, doneIp := true
        eng := none, irq := s.doneIe } := by
  simp [raiseCmdError, finish_eq]

end Sys2Proof.Machine
end

