-- ==== Sys2Proof/Laws/Ops.lean ====
section
/-! SUPPORT. What the operand checks and the checked completion can answer, and that the shared events keep the
memory. -/

namespace Sys2Proof.Machine

/-! Operands. -/

@[simp] theorem channelOf_three : channelOf 3#2 = .error .badChannel := rfl

theorem channelOf_legal {ch : BitVec 2} (h : ch ≠ 3#2) : channelOf ch = .ok ch.toNat := by
  simp [channelOf, h]

/-- A legal channel number is 0, 1 or 2. -/
theorem channel_lt {ch : BitVec 2} (h : ch ≠ 3#2) : ch.toNat < 3 := by
  have h1 : ch.toNat ≠ 3 := fun h2 => h (BitVec.eq_of_toNat_eq (by simpa using h2))
  have := ch.isLt
  omega

theorem channelOf_ok {ch : BitVec 2} {c : Nat} (h : channelOf ch = .ok c) :
    ch ≠ 3#2 ∧ c = ch.toNat ∧ c < 3 := by
  by_cases h3 : ch = 3#2
  · simp [channelOf, h3] at h
  · rw [channelOf_legal h3, Except.ok.injEq] at h
    exact ⟨h3, h.symm, h ▸ channel_lt h3⟩

theorem countOf_legal {count : BitVec 13} (h : count.toNat ≤ 4096) : countOf count = .ok count.toNat := by
  simp [countOf, Nat.not_lt.2 h]

theorem countOf_bad {count : BitVec 13} (h : 4096 < count.toNat) : countOf count = .error .badCount := by
  simp [countOf, h]

@[simp] theorem cllOf_zero : cllOf 0#3 = .error .badParam := rfl

theorem cllOf_legal {cll : BitVec 3} (h : cll ≠ 0#3) : cllOf cll = .ok cll.toNat := by
  simp [cllOf, h]

theorem inputLength_legal {P : Config.Params} {s : State} (h : s.inLen.toNat ≤ P.inBytes) :
    inputLength P s = .ok s.inLen.toNat := by
  simp [inputLength, Nat.not_lt.2 h]

theorem inputLength_bad {P : Config.Params} {s : State} (h : P.inBytes < s.inLen.toNat) :
    inputLength P s = .error .badLen := by
  simp [inputLength, h]

/-! Completion of a checked command. -/

theorem runChecked_error {α : Type} {operands : Except CmdError α} {run : α → State → State} {s : State}
    {e : CmdError} (h : operands = .error e) : runChecked operands run s = .next (raiseCmdError e s) := by
  simp [runChecked, h]

theorem runChecked_ok {α : Type} {operands : Except CmdError α} {run : α → State → State} {s : State}
    {x : α} (h : operands = .ok x) : runChecked operands run s = .next (finish (run x s)) := by
  simp [runChecked, h]

/-- A checked command always answers a next state: the error it raises, or its effect completed. -/
theorem runChecked_cases {α : Type} (operands : Except CmdError α) (run : α → State → State) (s : State) :
    (∃ e, operands = .error e ∧ runChecked operands run s = .next (raiseCmdError e s)) ∨
    (∃ x, operands = .ok x ∧ runChecked operands run s = .next (finish (run x s))) := by
  cases operands with
  | error e => exact .inl ⟨e, rfl, rfl⟩
  | ok x => exact .inr ⟨x, rfl, rfl⟩

/-! The canonical form under the element operations. -/

theorem wf_storeCoefs (m : List Host.Cell) (c : Nat) (vs : List Int) (h : Memory.wf m = true) :
    Memory.wf (storeCoefs m c vs) = true := wf_writeRange m _ _ h

theorem wf_poisonCoefs (m : List Host.Cell) (c n : Nat) (h : Memory.wf m = true) :
    Memory.wf (poisonCoefs m c n) = true := wf_poisonRange m _ _ h

theorem wf_storePixels (m : List Host.Cell) (ps : List Config.Pixel) (h : Memory.wf m = true) :
    Memory.wf (storePixels m ps) = true := wf_writeRange m _ _ h

theorem wf_poisonPixels (m : List Host.Cell) (h : Memory.wf m = true) :
    Memory.wf (poisonPixels m) = true := wf_poisonRange m _ _ h

/-- The memory after reset has the canonical form. -/
theorem wf_reset : Memory.wf State.reset.mem = true := rfl

end Sys2Proof.Machine
end

