-- ==== Sys2Proof/Laws/Bus.lean ====
section
/-! SUPPORT. What address decoding and the host accesses can answer. -/

namespace Sys2Proof.Machine

/-- Address decoding accepts an access exactly when every test of 40_host_bus.md R90 passes. -/
theorem classify_ok_iff {P : Config.Params} {s : State} {off n : Nat} {write : Bool} {t : Target} :
    classify P s off n write = .ok t ↔
      ∃ rg, regionOf P off = some rg ∧ ¬ (off < 0x10000 ∧ n ≠ 4) ∧ (n = 1 ∨ n = 2 ∨ n = 4) ∧ off % n = 0 ∧
        regionOf P (off + n - 1) = some rg ∧
        ¬ (s.busy = true ∧ accessibleWhileBusy (targetOf rg off) = false) ∧
        ¬ (write = true ∧ isReadOnly (targetOf rg off) = true) ∧ t = targetOf rg off := by
  unfold classify
  cases hr : regionOf P off with
  | none => simp
  | some rg =>
    by_cases h1 : off < 0x10000 ∧ n ≠ 4
    · simp [h1]
    by_cases h2 : n ≠ 1 ∧ n ≠ 2 ∧ n ≠ 4
    · have h2' : ¬ (n = 1 ∨ n = 2 ∨ n = 4) := by omega
      simp [h2]
    have h2' : n = 1 ∨ n = 2 ∨ n = 4 := by omega
    by_cases h3 : off % n = 0
    · by_cases h4 : regionOf P (off + n - 1) = some rg
      · by_cases h5 : s.busy = true ∧ accessibleWhileBusy (targetOf rg off) = false
        · simp [h1, h2, h3, h4, h5]
        · by_cases h6 : write = true ∧ isReadOnly (targetOf rg off) = true
          · simp [h1, h2, h3, h4, h5, h6]
          · simp only [h1, h2, h2', h3, h4, h5, h6, ne_eq, not_true, if_false, Except.ok.injEq, true_and,
              not_false_eq_true, Option.some.injEq, exists_eq_left']
            exact eq_comm
      · simp [h1, h2, h3, h4]
    · simp [h1, h2, h3]

/-- A register access that address decoding accepts while BUSY = 1 is to ID, STATUS, IRQ_EN or IRQ_STAT. -/
theorem classify_busy {P : Config.Params} {s : State} {off n : Nat} {write : Bool} {t : Target}
    (h : classify P s off n write = .ok t) (hb : s.busy = true) : accessibleWhileBusy t = true := by
  obtain ⟨rg, -, -, -, -, -, h1, -, rfl⟩ := classify_ok_iff.1 h
  cases ha : accessibleWhileBusy (targetOf rg off) with
  | true => rfl
  | false => exact absurd ⟨hb, ha⟩ h1

/-- A host read answers BUSERR, a register's value or buffer bytes, and changes nothing else. -/
theorem hostReadWith_cases (P : Config.Params) (off : Offset) (n : Nat) (s : State) :
    (∃ c, classify P s off.toNat n false = .error c ∧ hostReadWith P off n s = raiseBusError c s) ∨
    (∃ r, classify P s off.toNat n false = .ok (.reg r) ∧
      hostReadWith P off n s = { s with resp := .data (readReg s r) }) ∨
    (classify P s off.toNat n false = .ok .buffer ∧
      hostReadWith P off n s =
        { s with
          resp := .data (busWord (observeBytes s.mem s.stream off.toNat s.fresh n)), fresh := s.fresh + n }) := by
  unfold hostReadWith
  cases h : classify P s off.toNat n false with
  | error c => exact .inl ⟨c, rfl, rfl⟩
  | ok t =>
    cases t with
    | reg r => exact .inr (.inl ⟨r, rfl, rfl⟩)
    | buffer => exact .inr (.inr ⟨rfl, rfl⟩)

/-- A host write answers BUSERR and changes nothing else, or has its effect on a register or on buffer bytes. -/
theorem hostWriteWith_cases (P : Config.Params) (off : Offset) (n : Nat) (v : Word) (s : State) :
    (∃ c, classify P s off.toNat n true = .error c ∧ hostWriteWith P off n v s = raiseBusError c s) ∨
    (∃ r, classify P s off.toNat n true = .ok (.reg r) ∧
      hostWriteWith P off n v s = { refreshIrq (writeReg r v s) with resp := .done }) ∨
    (classify P s off.toNat n true = .ok .buffer ∧
      hostWriteWith P off n v s =
        { refreshIrq { s with mem := writeRange s.mem off.toNat (busBytes n v) } with resp := .done }) := by
  unfold hostWriteWith
  cases h : classify P s off.toNat n true with
  | error c => exact .inl ⟨c, rfl, rfl⟩
  | ok t =>
    cases t with
    | reg r => exact .inr (.inl ⟨r, rfl, rfl⟩)
    | buffer => exact .inr (.inr ⟨rfl, rfl⟩)

@[simp] theorem busBytes_length (n : Nat) (v : Word) : (busBytes n v).length = n := by
  induction n generalizing v with
  | zero => rfl
  | succ n ih => simp [busBytes, ih]

/-- The bytes of a bus word, each at its place. -/
theorem busBytes_getElem? (n : Nat) (v : Word) (j : Nat) (hj : j < n) :
    (busBytes n v)[j]? = some (v.extractLsb' (8 * j) 8) := by
  induction n generalizing v j with
  | zero => omega
  | succ n ih =>
    cases j with
    | zero =>
      simp only [busBytes, List.getElem?_cons_zero, Nat.mul_zero, Option.some.injEq]
      apply BitVec.eq_of_getLsbD_eq
      intro i hi
      simp [hi]
    | succ j =>
      simp only [busBytes, List.getElem?_cons_succ]
      rw [ih (v >>> 8) j (by omega), Option.some.injEq]
      apply BitVec.eq_of_getLsbD_eq
      intro i hi
      have h : 8 + (8 * j + i) = 8 * (j + 1) + i := by omega
      simp [h]

@[simp] theorem observeBytes_length (m : List Host.Cell) (stream a k n : Nat) :
    (observeBytes m stream a k n).length = n := by
  induction n generalizing a k with
  | zero => rfl
  | succ n ih => simp [observeBytes, ih]

/-- A defined byte is observed as it is. -/
theorem observeBytes_getElem? (m : List Host.Cell) (stream a k n j : Nat) (b : Byte) (hj : j < n)
    (h : readByte m (a + j) = some b) : (observeBytes m stream a k n)[j]? = some b := by
  induction n generalizing a k j with
  | zero => omega
  | succ n ih =>
    cases j with
    | zero => simp_all [observeBytes, observeByte]
    | succ j =>
      simp only [observeBytes, List.getElem?_cons_succ]
      exact ih (a + 1) (k + 1) j (by omega) (by rw [← h]; congr 1; omega)

end Sys2Proof.Machine
end

