-- ==== Sys2Proof/Laws/Effects.lean ====
section
/-! SUPPORT. What the parts of the three decode stages can do: symbols and the symbols' loop, the level step, the
planes of a conversion. -/

namespace Sys2Proof.Machine

/-! RLGR. -/

@[simp] theorem streamBits_nil : streamBits [] = [] := rfl

@[simp] theorem streamBits_cons (b : Byte) (bs : List Byte) :
    streamBits (b :: bs) = bitsOfByte b ++ streamBits bs := rfl

@[simp] theorem streamBits_length (bs : List Byte) : (streamBits bs).length = 8 * bs.length := by
  induction bs with
  | nil => rfl
  | cons b bs ih => simp [ih, bitsOfByte]; omega

/-- A unary quotient consumes its 0-bits and one bit more (41_rlgr.md R105). -/
theorem readUnary_length {bits rest : List Bool} {q : Nat} (h : readUnary bits = some (q, rest)) :
    bits.length = q + 1 + rest.length := by
  induction bits generalizing q with
  | nil => simp [readUnary] at h
  | cons b bits ih =>
    cases b with
    | true =>
      simp only [readUnary, Option.some.injEq, Prod.mk.injEq] at h
      obtain ⟨rfl, rfl⟩ := h
      simp; omega
    | false =>
      simp only [readUnary] at h
      split at h
      · rename_i q' rest' h'
        simp only [Option.some.injEq, Prod.mk.injEq] at h
        obtain ⟨rfl, rfl⟩ := h
        have := ih h'
        simp; omega
      · cases h

/-- readbits(n) consumes n bits and its value fits them (00_scope.md R10). -/
theorem readBits_spec {n v : Nat} {bits rest : List Bool} (h : readBits n bits = some (v, rest)) :
    bits.length = n + rest.length ∧ v < 2 ^ n := by
  induction n generalizing bits v with
  | zero =>
    simp only [readBits, Option.some.injEq, Prod.mk.injEq] at h
    obtain ⟨rfl, rfl⟩ := h
    simp
  | succ n ih =>
    cases bits with
    | nil => simp [readBits] at h
    | cons b bits =>
      simp only [readBits] at h
      split at h
      · rename_i v' rest' h'
        simp only [Option.some.injEq, Prod.mk.injEq] at h
        obtain ⟨rfl, rfl⟩ := h
        obtain ⟨h1, h2⟩ := ih h'
        have h3 : 2 ^ (n + 1) = 2 ^ n * 2 := Nat.pow_succ 2 n
        cases b <;> simp <;> omega
      · cases h

/-- A complete symbol consumes the length it answers (41_rlgr.md R105 to R107). -/
theorem readSymbol_length {kR kGR len : Nat} {bits rest : List Bool} {sym : Symbol}
    (h : readSymbol kR kGR bits = some (sym, len, rest)) : bits.length = len + rest.length := by
  unfold readSymbol at h
  split at h
  · cases h
  · rename_i rest1 h1
    split at h
    · cases h
    · rename_i v rest2 h2
      simp only [Option.some.injEq, Prod.mk.injEq] at h
      obtain ⟨rfl, rfl, rfl⟩ := h
      have := readUnary_length h1
      have := (readBits_spec h2).1
      omega
  · rename_i q rest1 h1
    split at h
    · cases h
    · rename_i rem rest2 h2
      split at h
      · cases h
      · rename_i sign rest3
        simp only [Option.some.injEq, Prod.mk.injEq] at h
        obtain ⟨rfl, rfl, rfl⟩ := h
        have := readUnary_length h1
        have h3 := (readBits_spec h2).1
        simp only [List.length_cons] at h3
        omega

/-- A symbol emits no more coefficients than there are slots (R113). -/
theorem emitted_length_le {room : Nat} (h : room ≠ 0) (sym : Symbol) : (emitted room sym).length ≤ room := by
  cases sym with
  | zeroRun run => simp [emitted]
  | value mag neg => simp [emitted]; omega

theorem sat16_range (v : Int) : -32768 ≤ sat16 v ∧ sat16 v ≤ 32767 := by
  unfold sat16; split
  · omega
  · split <;> omega

theorem sat16_of_range {v : Int} (h1 : -32768 ≤ v) (h2 : v ≤ 32767) : sat16 v = v := by
  unfold sat16; rw [if_neg (by omega), if_neg (by omega)]

/-- Every coefficient a symbol emits is in the 16-bit range (R113). -/
theorem emitted_range {room : Nat} {sym : Symbol} {v : Int} (h : v ∈ emitted room sym) :
    -32768 ≤ v ∧ v ≤ 32767 := by
  cases sym with
  | zeroRun run =>
    have := List.eq_of_mem_replicate h
    omega
  | value mag neg =>
    simp only [emitted, List.mem_singleton] at h
    subst h
    exact sat16_range _

/-- One turn of the symbols' loop: it ends where no slot is left or no symbol is complete, and else emits the symbol
and goes on (41_rlgr.md R104, R111). -/
theorem decodeSymbols_cases (fuel room pos kR kGR : Nat) (bits : List Bool) :
    ((fuel = 0 ∨ room = 0 ∨ readSymbol kR kGR bits = none) ∧
      decodeSymbols fuel room pos kR kGR bits = ⟨[], pos, kR, kGR⟩) ∨
    (∃ f sym len rest d, fuel = f + 1 ∧ room ≠ 0 ∧ readSymbol kR kGR bits = some (sym, len, rest) ∧
      d = decodeSymbols f (room - (emitted room sym).length) (pos + len) (nextKr kR sym) (nextKgr kGR sym) rest ∧
      decodeSymbols fuel room pos kR kGR bits =
        { d with coefs := emitted room sym ++ d.coefs }) := by
  cases fuel with
  | zero => exact .inl ⟨.inl rfl, rfl⟩
  | succ f =>
    by_cases hr : room = 0
    · exact .inl ⟨.inr (.inl hr), by simp [decodeSymbols, hr]⟩
    · cases h : readSymbol kR kGR bits with
      | none => exact .inl ⟨.inr (.inr rfl), by simp [decodeSymbols, hr, h]⟩
      | some x =>
        obtain ⟨sym, len, rest⟩ := x
        exact .inr ⟨f, sym, len, rest, _, rfl, hr, rfl, rfl, by simp [decodeSymbols, hr, h]⟩

/-- The loop emits no more coefficients than there are slots (41_rlgr.md R113). -/
theorem decodeSymbols_length_le (fuel room pos kR kGR : Nat) (bits : List Bool) :
    (decodeSymbols fuel room pos kR kGR bits).coefs.length ≤ room := by
  induction fuel generalizing room pos kR kGR bits with
  | zero => simp [decodeSymbols]
  | succ fuel ih =>
    rcases decodeSymbols_cases (fuel + 1) room pos kR kGR bits with ⟨-, h⟩ | ⟨f, sym, len, rest, d, hf, hr, -, hd, h⟩
    · simp [h]
    · obtain rfl : fuel = f := by omega
      rw [h, hd]
      have h1 := emitted_length_le hr sym
      have h2 := ih (room - (emitted room sym).length) (pos + len) (nextKr kR sym) (nextKgr kGR sym) rest
      simp only [List.length_append]
      omega

theorem zeroFill_length {count : Nat} {coefs : List Int} (h : coefs.length ≤ count) :
    (zeroFill count coefs).length = count := by
  simp [zeroFill]; omega

/-- The zero-filled coefficients, slot by slot (41_rlgr.md R112). -/
theorem zeroFill_getElem? {count : Nat} {coefs : List Int} (h : coefs.length ≤ count) {i : Nat} (hi : i < count) :
    (zeroFill count coefs)[i]? = some (coefs.getD i 0) := by
  unfold zeroFill
  by_cases hc : i < coefs.length
  · rw [List.getElem?_append_left hc, List.getElem?_eq_getElem hc]
    simp [List.getD, List.getElem?_eq_getElem hc]
  · rw [List.getElem?_append_right (by omega), List.getElem?_replicate_of_lt (by omega)]
    simp [List.getD, List.getElem?_eq_none (Nat.not_lt.1 hc)]

/-! Wavelet transform. -/

@[simp] theorem columnOf_length (x : Nat) (rows : List (List Int)) : (columnOf x rows).length = rows.length := by
  simp [columnOf]

@[simp] theorem verticalPass_length (f : List Int → List Int → List Int) (nL nH : Nat) (temp : List (List Int)) :
    (verticalPass f nL nH temp).length = nL + nH := by
  simp [verticalPass]

/-- A level step keeps the number of elements (42_dwt.md R133). -/
theorem level_length (f : List Int → List Int → List Int) (b nL nH : Nat) (B : List Int)
    (h : b + (nL + nH) * (nL + nH) ≤ B.length) : (level f b nL nH B).length = B.length := by
  unfold level
  have hs : ∀ t n : Nat, ((List.range t).map fun _ => n).sum = t * n := fun t n => by
    rw [List.map_const', List.sum_replicate_nat, List.length_range]
  simp only [List.length_append, List.length_take, List.length_flatMap, columnOf_length, verticalPass_length,
    List.length_drop, hs]
  omega

theorem dwtNx_length (f : List Int → List Int → List Int) {B : List Int} (h : B.length = 4096) :
    (dwtNx f B).length = 4096 := by
  have h1 : (level f 3840 8 8 B).length = 4096 := by rw [level_length] <;> omega
  have h2 : (level f 3072 16 16 (level f 3840 8 8 B)).length = 4096 := by rw [level_length] <;> omega
  unfold dwtNx
  rw [level_length] <;> omega

theorem dwtX_length (f : List Int → List Int → List Int) {B : List Int} (h : B.length = 4096) :
    (dwtX f B).length = 4096 := by
  have h1 : (level f 3807 9 8 B).length = 4096 := by rw [level_length] <;> omega
  have h2 : (level f 3007 17 16 (level f 3807 9 8 B)).length = 4096 := by rw [level_length] <;> omega
  unfold dwtX
  rw [level_length] <;> omega

/-! Colour. -/

/-- A conversion gives one pixel for each index of three planes of one length (43_color.md R161). -/
@[simp] theorem fullOpacity_a (p : Config.Pixel) : (fullOpacity p).a = 255#8 := rfl
@[simp] theorem fullOpacity_r (p : Config.Pixel) : (fullOpacity p).r = p.r := rfl
@[simp] theorem fullOpacity_g (p : Config.Pixel) : (fullOpacity p).g = p.g := rfl
@[simp] theorem fullOpacity_b (p : Config.Pixel) : (fullOpacity p).b = p.b := rfl

/-- The two conversions of the spec give opaque pixels already (R163, R166). -/
@[simp] theorem fullOpacity_ycbcr (M : Config.ColorMatrix) (y cb cr : Int) :
    fullOpacity (ycbcr M y cb cr) = ycbcr M y cb cr := rfl
@[simp] theorem fullOpacity_ycocg (e0 e1 e2 : Int) (cll : Nat) :
    fullOpacity (ycocg e0 e1 e2 cll) = ycocg e0 e1 e2 cll := rfl

/-- Pixel `i` of a conversion. -/
theorem convertPlanes_getElem? (fn : Int → Int → Int → Config.Pixel) (as bs cs : List Int) (i : Nat) :
    (convertPlanes fn as bs cs)[i]? =
      match as[i]?, bs[i]?, cs[i]? with
      | some a, some b, some c => some (fullOpacity (fn a b c))
      | _, _, _ => none := by
  induction as generalizing bs cs i with
  | nil => simp [convertPlanes]
  | cons a as ih =>
    cases bs with
    | nil => cases h : (a :: as)[i]? <;> simp [convertPlanes]
    | cons b bs =>
      cases cs with
      | nil => cases h : (a :: as)[i]? <;> cases h' : (b :: bs)[i]? <;> simp [convertPlanes]
      | cons c cs =>
        cases i with
        | zero => simp [convertPlanes]
        | succ i => simp only [convertPlanes, List.getElem?_cons_succ]; exact ih bs cs i

theorem convertPlanes_length (fn : Int → Int → Int → Config.Pixel) {as bs cs : List Int} {n : Nat}
    (ha : as.length = n) (hb : bs.length = n) (hc : cs.length = n) : (convertPlanes fn as bs cs).length = n := by
  induction n generalizing as bs cs with
  | zero => simp [List.eq_nil_of_length_eq_zero ha, convertPlanes]
  | succ n ih =>
    match as, bs, cs, ha, hb, hc with
    | a :: as, b :: bs, c :: cs, ha, hb, hc =>
      simp only [convertPlanes, List.length_cons]
      rw [ih] <;> simp_all

end Sys2Proof.Machine
end

