-- ==== Sys2Proof/Laws/HostProgram.lean ====
section
/-! SUPPORT. The turns that the lines of a host program put on an instance's schedule. -/

namespace Sys2Proof.Machine

/-- The read of STATUS, as a turn. -/
def statusRead : Turn := .access ⟨false, 0x008#18, 4, 0#32⟩

/-- The turns of `wait` (30_encoding.md R78). -/
theorem waitEvents_turns (polls : Nat) :
    (waitEvents polls).filterMap HostEvent.turn = List.replicate polls statusRead ++ [.engine, statusRead] := by
  induction polls with
  | zero => rfl
  | succ n ih =>
    have h : waitEvents (n + 1) = .read 4 0x008 :: waitEvents n := rfl
    rw [h, List.filterMap_cons_some (f := HostEvent.turn) (b := statusRead) rfl, ih]
    rfl

/-- The turns of `run` (R78). -/
theorem run_turns (w : Word) (polls : Nat) :
    (HostOp.run w polls).turns =
      .access (commandWrite w) :: (List.replicate polls statusRead ++ [.engine, statusRead]) := by
  show (HostEvent.write 4 0x004 w :: waitEvents polls).filterMap HostEvent.turn = _
  rw [List.filterMap_cons_some (f := HostEvent.turn) (b := .access (commandWrite w)) rfl, waitEvents_turns]

end Sys2Proof.Machine
end

