-- ==== Sys2Proof/Laws/PerInstr.lean ====
section
/-! SUPPORT. The bits of an encoded command word, and the family `CommandRows`: which row of the match and mask
table of 30_encoding.md R72 the word of each operation selects. -/

namespace Sys2Proof.Laws.CommandRows

open Sys2Proof

/-- The opcode of a command (R72); none for a reserved word and for a host access. -/
def opcode : Instr → Option Nat
  | .nop => some 0
  | .rlgrDecode _ _ => some 1
  | .dwtInvNx _ => some 2
  | .dwtInvX _ => some 3
  | .ycbcr2rgb => some 4
  | .ycocg2rgb _ => some 5
  | .clear _ => some 6
  | .softReset => some 7
  | .illegal _ => none
  | .hostRead _ _ => none
  | .hostWrite _ _ _ => none

/-- The word of a well-formed command selects the row of its opcode and no other, a reserved word selects none, and
a host access has no word (R72, R74). -/
def Statement (i : Instr) : Prop :=
  match encode i with
  | .command w =>
    i.wellFormed = true → ∀ k r, commandRows[k]? = some r → r.selects w = (opcode i == some k)
  | .access _ => opcode i = none

/-- Bit `p` of a command word, field by field (R71). -/
theorem getLsbD_commandWord (op : BitVec 4) (ch : BitVec 2) (cll : BitVec 3) (count : BitVec 13) (p : Nat) :
    (commandWord op ch cll count).getLsbD p =
      if p < 4 then op.getLsbD p
      else if p < 6 then ch.getLsbD (p - 4)
      else if p < 8 then false
      else if p < 11 then cll.getLsbD (p - 8)
      else if p < 16 then false
      else if p < 29 then count.getLsbD (p - 16)
      else false := by
  unfold commandWord
  simp only [BitVec.getLsbD_append, BitVec.getLsbD_zero]
  rcases Nat.lt_or_ge p 4 with h | h
  · simp [h]
  rcases Nat.lt_or_ge p 6 with h1 | h1
  · simp [show ¬ p < 4 by omega, show p - 4 < 2 by omega, h1]
  simp only [show ¬ p < 4 by omega, show ¬ p - 4 < 2 by omega, show ¬ p < 6 by omega, if_false]
  rcases Nat.lt_or_ge p 8 with h2 | h2
  · simp [show p - 4 - 2 < 2 by omega, h2]
  simp only [show ¬ p - 4 - 2 < 2 by omega, show ¬ p < 8 by omega, if_false]
  rcases Nat.lt_or_ge p 11 with h3 | h3
  · simp [h3, show p - 4 - 2 - 2 = p - 8 by omega, show p - 8 < 3 by omega]
  simp only [show ¬ p - 4 - 2 - 2 < 3 by omega, show ¬ p < 11 by omega, if_false]
  rcases Nat.lt_or_ge p 16 with h4 | h4
  · simp [show p - 4 - 2 - 2 - 3 < 5 by omega, h4]
  simp only [show ¬ p - 4 - 2 - 2 - 3 < 5 by omega, show ¬ p < 16 by omega, if_false]
  rcases Nat.lt_or_ge p 29 with h5 | h5
  · simp [h5, show p - 4 - 2 - 2 - 3 - 5 = p - 16 by omega, show p - 16 < 13 by omega]
  · simp [show ¬ p - 4 - 2 - 2 - 3 - 5 < 13 by omega, show ¬ p < 29 by omega]

/-- A word with a masked bit other than the row's does not select the row (R72). -/
theorem selects_eq_false {r : CommandRow} {w : Word} (p : Nat) (hm : r.mask.getLsbD p = true)
    (hp : w.getLsbD p ≠ r.value.getLsbD p) : r.selects w = false := by
  unfold CommandRow.selects
  rw [beq_eq_false_iff_ne]
  intro h
  have := congrArg (fun v => v.getLsbD p) h
  simp only [BitVec.getLsbD_and, hm, Bool.and_true] at this
  exact hp this

/-- A word whose masked bits are the row's selects the row (R72). -/
theorem selects_eq_true {r : CommandRow} {w : Word}
    (h : ∀ p < 32, (w.getLsbD p && r.mask.getLsbD p) = r.value.getLsbD p) : r.selects w = true := by
  unfold CommandRow.selects
  rw [beq_iff_eq]
  apply BitVec.eq_of_getLsbD_eq
  intro p hp
  rw [BitVec.getLsbD_and]
  exact h p hp

/-- A word of opcode 1 whose reserved bits are 0 selects row 1 alone (41_rlgr.md R100). -/
theorem selects_rlgr (ch : BitVec 2) (count : BitVec 13) (k : Nat) (r : CommandRow)
    (h : commandRows[k]? = some r) : r.selects (commandWord 1#4 ch 0#3 count) = (some 1 == some k) := by
  have hb : ∀ p, p < 4 → (commandWord 1#4 ch 0#3 count).getLsbD p = (1#4).getLsbD p := fun p hp => by
    rw [getLsbD_commandWord, if_pos hp]
  match k, h with
  | 0, h => cases h; exact selects_eq_false 0 (by decide) (by rw [hb 0 (by omega)]; decide)
  | 1, h =>
    cases h
    refine selects_eq_true fun p hp => ?_
    rw [getLsbD_commandWord]
    interval_cases p <;> simp
  | 2, h => cases h; exact selects_eq_false 0 (by decide) (by rw [hb 0 (by omega)]; decide)
  | 3, h => cases h; exact selects_eq_false 1 (by decide) (by rw [hb 1 (by omega)]; decide)
  | 4, h => cases h; exact selects_eq_false 0 (by decide) (by rw [hb 0 (by omega)]; decide)
  | 5, h => cases h; exact selects_eq_false 2 (by decide) (by rw [hb 2 (by omega)]; decide)
  | 6, h => cases h; exact selects_eq_false 0 (by decide) (by rw [hb 0 (by omega)]; decide)
  | 7, h => cases h; exact selects_eq_false 1 (by decide) (by rw [hb 1 (by omega)]; decide)
  | _ + 8, h => cases h

/-- A row number below 8 when a row has it. -/
theorem row_cases {Q : Nat → CommandRow → Prop} (h : ∀ k : Fin 8, Q k (commandRows[k.val]'k.isLt)) :
    ∀ k r, commandRows[k]? = some r → Q k r := by
  intro k r hk
  obtain ⟨hlt, rfl⟩ := List.getElem?_eq_some_iff.1 hk
  exact h ⟨k, hlt⟩

theorem nop : Statement .nop := fun _ => row_cases (by decide)

theorem rlgrDecode (ch : BitVec 2) (count : BitVec 13) : Statement (.rlgrDecode ch count) :=
  fun _ => selects_rlgr ch count

theorem dwtInvNx (ch : BitVec 2) : Statement (.dwtInvNx ch) :=
  fun _ => row_cases (by revert ch; decide)

theorem dwtInvX (ch : BitVec 2) : Statement (.dwtInvX ch) :=
  fun _ => row_cases (by revert ch; decide)

theorem ycbcr2rgb : Statement .ycbcr2rgb := fun _ => row_cases (by decide)

theorem ycocg2rgb (cll : BitVec 3) : Statement (.ycocg2rgb cll) :=
  fun _ => row_cases (by revert cll; decide)

theorem clear (ch : BitVec 2) : Statement (.clear ch) :=
  fun _ => row_cases (by revert ch; decide)

theorem softReset : Statement .softReset := fun _ => row_cases (by decide)

theorem illegal (w : Word) : Statement (.illegal w) := by
  intro h k r hk
  have hr : r.selects w = false := by
    have := List.all_eq_true.1 h r (List.mem_of_getElem? hk)
    simpa using this
  rw [hr]
  rfl

theorem hostRead (off : Offset) (n : Nat) : Statement (.hostRead off n) := rfl

theorem hostWrite (off : Offset) (n : Nat) (v : Word) : Statement (.hostWrite off n v) := rfl

end Sys2Proof.Laws.CommandRows
end

