-- ==== Sys2Proof/Laws/Step.lean ====
section
/-! SUPPORT. What a command's completion, a host access and a step can do, each said once for the machine with any
parameters and carried over to `exec` and `step`. -/

namespace Sys2Proof.Machine

/-- What a completed command can change besides the registers of a completion: the memory, TEMP, the result
registers and the draw counter. -/
structure Outputs where
  mem : List Host.Cell
  temp : List Half
  rlgrBits : BitVec 20
  rlgrEmit : BitVec 13
  rlgrKr : BitVec 4
  rlgrKgr : BitVec 4
  fresh : Nat

/-- `s` with the outputs of a command. -/
def withOutputs (o : Outputs) (s : State) : State :=
  { s with
    mem := o.mem, temp := o.temp, rlgrBits := o.rlgrBits, rlgrEmit := o.rlgrEmit
    rlgrKr := o.rlgrKr, rlgrKgr := o.rlgrKgr, fresh := o.fresh }

/-- What the outputs of a command keep: the canonical form, the extent of the memory, TEMP's size. -/
structure Outputs.Sound (o : Outputs) (s : State) : Prop where
  wf : Memory.wf s.mem = true → Memory.wf o.mem = true
  cells : ∀ c ∈ o.mem, c ∈ s.mem ∨ (0x20000 ≤ c.1 ∧ c.1 < 0x26000) ∨ (0x30000 ≤ c.1 ∧ c.1 < 0x34000)
  temp : o.temp = s.temp ∨ o.temp.length = 4096

@[simp] theorem freeTemp_length (stream k : Nat) : (freeTemp stream k).length = 4096 := by simp [freeTemp]

theorem mem_storeCoefs {m : List Host.Cell} {c : Nat} {vs : List Int} {x : Host.Cell} (hc : c < 3)
    (hl : vs.length ≤ 4096) (h : x ∈ storeCoefs m c vs) : x ∈ m ∨ (0x20000 ≤ x.1 ∧ x.1 < 0x26000) := by
  rcases mem_writeRange h with h | h
  · exact .inl h
  · refine .inr ?_
    rw [elementsBytes_length] at h
    unfold coefBase at h
    omega

theorem mem_storePixels {m : List Host.Cell} {ps : List Config.Pixel} {x : Host.Cell}
    (hl : ps.length ≤ 4096) (h : x ∈ storePixels m ps) : x ∈ m ∨ (0x30000 ≤ x.1 ∧ x.1 < 0x34000) := by
  rcases mem_writeRange h with h | h
  · exact .inl h
  · refine .inr ?_
    rw [pixelsBytes_length] at h
    unfold pixBase at h
    omega

/-- What RLGR_DECODE's effect can do. -/
theorem rlgrEffect_outputs (c n len : Nat) (s : State) (hc : c < 3) (hn : n ≤ 4096) :
    ∃ o : Outputs, o.Sound s ∧ o.temp = s.temp ∧ rlgrEffect (c, n, len) s = withOutputs o s := by
  unfold rlgrEffect
  dsimp only
  split
  · exact ⟨⟨_, s.temp, _, _, _, _, _⟩,
      ⟨wf_poisonCoefs _ _ _, fun x hx => .inl (mem_poisonRange hx), .inl rfl⟩, rfl, rfl⟩
  · rename_i bytes hb
    refine ⟨⟨_, s.temp, _, _, _, _, s.fresh⟩, ⟨wf_storeCoefs _ _ _, fun x hx => ?_, .inl rfl⟩, rfl, rfl⟩
    have hl := zeroFill_length (decodeSymbols_length_le n n 0 s.krInit.toNat s.kgrInit.toNat (streamBits bytes))
    exact (mem_storeCoefs hc (Nat.le_trans (Nat.le_of_eq hl) hn) hx).imp_right .inl

/-- What a DWT command's effect can do. -/
theorem dwtEffect_outputs (f : List Int → List Int) (hf : ∀ B, B.length = 4096 → (f B).length = 4096) (c : Nat)
    (s : State) (hc : c < 3) (hm : Memory.wf s.mem = true) :
    ∃ o : Outputs, o.Sound s ∧ o.temp.length = 4096 ∧ o.rlgrBits = s.rlgrBits ∧ o.rlgrEmit = s.rlgrEmit ∧
      o.rlgrKr = s.rlgrKr ∧ o.rlgrKgr = s.rlgrKgr ∧ dwtEffect f c s = withOutputs o s := by
  refine ⟨⟨(dwtEffect f c s).mem, freeTemp s.stream s.fresh, s.rlgrBits, s.rlgrEmit, s.rlgrKr, s.rlgrKgr, s.fresh + 1⟩,
    ?_, by dsimp only; rw [freeTemp_length], rfl, rfl, rfl, rfl, by simp only [dwtEffect, withOutputs]⟩
  cases hl : loadCoefs s.mem c with
  | none =>
    have he : (dwtEffect f c s).mem = poisonCoefs s.mem c 4096 := by simp [dwtEffect, hl]
    exact ⟨fun h => by rw [he]; exact wf_poisonCoefs _ _ _ h,
      fun x hx => by simp only [he] at hx; exact .inl (mem_poisonRange hx), .inr (by dsimp only; rw [freeTemp_length])⟩
  | some B =>
    have he : (dwtEffect f c s).mem = storeCoefs s.mem c (f B) := by simp [dwtEffect, hl]
    refine ⟨fun h => by rw [he]; exact wf_storeCoefs _ _ _ h, fun x hx => ?_, .inr (by dsimp only; rw [freeTemp_length])⟩
    simp only [he] at hx
    exact (mem_storeCoefs hc (Nat.le_of_eq (hf B (loadCoefs_eq_some hm hl).1)) hx).imp_right .inl

/-- What a colour command's effect can do: it changes PIX alone. -/
theorem colorEffect_mem (fn : Int → Int → Int → Config.Pixel) (s : State) :
    colorEffect fn s = { s with mem := (colorEffect fn s).mem } ∧
    ((∃ a b c, loadCoefs s.mem 0 = some a ∧ loadCoefs s.mem 1 = some b ∧ loadCoefs s.mem 2 = some c ∧
        (colorEffect fn s).mem = storePixels s.mem (convertPlanes fn a b c)) ∨
      ((loadCoefs s.mem 0 = none ∨ loadCoefs s.mem 1 = none ∨ loadCoefs s.mem 2 = none) ∧
        (colorEffect fn s).mem = poisonPixels s.mem)) := by
  refine ⟨rfl, ?_⟩
  unfold colorEffect
  cases loadCoefs s.mem 0 <;> cases loadCoefs s.mem 1 <;> cases loadCoefs s.mem 2 <;> simp

theorem colorEffect_outputs (fn : Int → Int → Int → Config.Pixel) (s : State) (hm : Memory.wf s.mem = true) :
    ∃ o : Outputs, o.Sound s ∧ o.temp = s.temp ∧ o.rlgrBits = s.rlgrBits ∧ o.rlgrEmit = s.rlgrEmit ∧
      o.rlgrKr = s.rlgrKr ∧ o.rlgrKgr = s.rlgrKgr ∧ colorEffect fn s = withOutputs o s := by
  refine ⟨⟨(colorEffect fn s).mem, s.temp, s.rlgrBits, s.rlgrEmit, s.rlgrKr, s.rlgrKgr, s.fresh⟩,
    ?_, rfl, rfl, rfl, rfl, rfl, rfl⟩
  rcases (colorEffect_mem fn s).2 with ⟨a, b, c, ha, hb, hc, he⟩ | ⟨-, he⟩
  · refine ⟨fun h => by rw [he]; exact wf_storePixels _ _ h, fun x hx => ?_, .inl rfl⟩
    simp only [he] at hx
    have hl := convertPlanes_length fn (loadCoefs_eq_some hm ha).1 (loadCoefs_eq_some hm hb).1
      (loadCoefs_eq_some hm hc).1
    exact (mem_storePixels (Nat.le_of_eq hl) hx).imp_right .inr
  · exact ⟨fun h => by rw [he]; exact wf_poisonPixels _ h,
      fun x hx => by simp only [he] at hx; exact .inl (mem_poisonRange hx), .inl rfl⟩

/-- A command completes: with an error, or with its outputs. -/
def Completes (P : Config.Params) (i : Instr) (s : State) : Prop :=
  (∃ e, execWith P i s = .next (raiseCmdError e s)) ∨
    (∃ o : Outputs, o.Sound s ∧ execWith P i s = .next (finish (withOutputs o s)))

/-- Every command but SOFT_RESET completes (44_control.md R181). -/
theorem command_completes (P : Config.Params) (w : Word) (s : State) (hw : decodeWord w ≠ .softReset)
    (hm : Memory.wf s.mem = true) : Completes P (decodeWord w) s := by
  have hs : (⟨s.mem, s.temp, s.rlgrBits, s.rlgrEmit, s.rlgrKr, s.rlgrKgr, s.fresh⟩ : Outputs).Sound s :=
    ⟨id, fun _ h => .inl h, .inl rfl⟩
  have hdwt : ∀ (f : List Int → List Int) (ch : BitVec 2), (∀ B, B.length = 4096 → (f B).length = 4096) →
      (∃ e, runChecked (channelOf ch) (dwtEffect f) s = .next (raiseCmdError e s)) ∨
      ∃ o : Outputs, o.Sound s ∧ runChecked (channelOf ch) (dwtEffect f) s = .next (finish (withOutputs o s)) := by
    intro f ch hf
    rcases runChecked_cases (channelOf ch) (dwtEffect f) s with ⟨e, -, h⟩ | ⟨c, hc, h⟩
    · exact .inl ⟨e, h⟩
    · obtain ⟨o, ho, -, -, -, -, -, he⟩ := dwtEffect_outputs f hf c s (channelOf_ok hc).2.2 hm
      exact .inr ⟨o, ho, by rw [h, he]⟩
  unfold Completes
  cases hi : decodeWord w with
  | nop => exact .inr ⟨_, hs, rfl⟩
  | rlgrDecode ch count =>
    rcases runChecked_cases (rlgrOperands P ch count s) rlgrEffect s with ⟨e, -, h⟩ | ⟨x, hx, h⟩
    · exact .inl ⟨e, h⟩
    · obtain ⟨c, n, len⟩ := x
      unfold rlgrOperands at hx
      cases hc : channelOf ch with
      | error e => simp [hc, bind, Except.bind] at hx
      | ok c' =>
        cases hn : countOf count with
        | error e => simp [hc, hn, bind, Except.bind] at hx
        | ok n' =>
          cases hl : inputLength P s with
          | error e => simp [hc, hn, hl, bind, Except.bind] at hx
          | ok l' =>
            simp only [hc, hn, hl, bind, Except.bind, pure, Except.pure, Except.ok.injEq, Prod.mk.injEq] at hx
            obtain ⟨rfl, rfl, rfl⟩ := hx
            have hn' : n' ≤ 4096 := by
              by_cases hb : 4096 < count.toNat
              · simp [countOf, hb] at hn
              · simp only [countOf, hb, if_false, Except.ok.injEq] at hn
                omega
            obtain ⟨o, ho, -, he⟩ := rlgrEffect_outputs c' n' l' s (channelOf_ok hc).2.2 hn'
            exact .inr ⟨o, ho, by rw [← he]; exact h⟩
  | dwtInvNx ch => exact hdwt _ ch fun B hB => dwtNx_length _ hB
  | dwtInvX ch => exact hdwt _ ch fun B hB => dwtX_length _ hB
  | ycbcr2rgb =>
    obtain ⟨o, ho, -, -, -, -, -, he⟩ := colorEffect_outputs (ycbcr P.colorMatrix) s hm
    exact .inr ⟨o, ho, by rw [← he]; rfl⟩
  | ycocg2rgb cll =>
    rcases runChecked_cases (cllOf cll)
      (fun level s => colorEffect (fun e0 e1 e2 => P.ycocgFn e0 e1 e2 level) s) s with ⟨e, -, h⟩ | ⟨l, -, h⟩
    · exact .inl ⟨e, h⟩
    · obtain ⟨o, ho, -, -, -, -, -, he⟩ := colorEffect_outputs (fun e0 e1 e2 => P.ycocgFn e0 e1 e2 l) s hm
      exact .inr ⟨o, ho, by rw [← he]; exact h⟩
  | clear ch =>
    rcases runChecked_cases (channelOf ch) clearEffect s with ⟨e, -, h⟩ | ⟨c, hc, h⟩
    · exact .inl ⟨e, h⟩
    · refine .inr ⟨⟨storeCoefs s.mem c (List.replicate 4096 0), s.temp, s.rlgrBits, s.rlgrEmit, s.rlgrKr,
        s.rlgrKgr, s.fresh⟩, ⟨wf_storeCoefs _ _ _, fun x hx => ?_, .inl rfl⟩, h⟩
      exact (mem_storeCoefs (channelOf_ok hc).2.2 (by rw [List.length_replicate]) hx).imp_right .inl
  | softReset => exact absurd hi hw
  | illegal w' => exact .inl ⟨.illegalCmd, rfl⟩
  | hostRead off n => unfold decodeWord at hi; (split at hi <;> try split at hi) <;> cases hi
  | hostWrite off n v => unfold decodeWord at hi; (split at hi <;> try split at hi) <;> cases hi

/-- No operation stops: every meaning answers a next state (60_exceptions.md R190). -/
theorem execWith_next (P : Config.Params) (i : Instr) (s : State) : ∃ t, execWith P i s = .next t := by
  cases i with
  | nop => exact ⟨_, rfl⟩
  | rlgrDecode ch count =>
    rcases runChecked_cases (rlgrOperands P ch count s) rlgrEffect s with ⟨_, -, h⟩ | ⟨_, -, h⟩ <;>
      exact ⟨_, h⟩
  | dwtInvNx ch =>
    rcases runChecked_cases (channelOf ch) (dwtEffect (dwtNx P.liftNx)) s with ⟨_, -, h⟩ | ⟨_, -, h⟩ <;>
      exact ⟨_, h⟩
  | dwtInvX ch =>
    rcases runChecked_cases (channelOf ch) (dwtEffect (dwtX P.liftX)) s with ⟨_, -, h⟩ | ⟨_, -, h⟩ <;>
      exact ⟨_, h⟩
  | ycbcr2rgb => exact ⟨_, rfl⟩
  | ycocg2rgb cll =>
    rcases runChecked_cases (cllOf cll)
      (fun level s => colorEffect (fun e0 e1 e2 => P.ycocgFn e0 e1 e2 level) s) s with ⟨_, -, h⟩ | ⟨_, -, h⟩ <;>
      exact ⟨_, h⟩
  | clear ch =>
    rcases runChecked_cases (channelOf ch) clearEffect s with ⟨_, -, h⟩ | ⟨_, -, h⟩ <;> exact ⟨_, h⟩
  | softReset => exact ⟨_, rfl⟩
  | illegal w => exact ⟨_, rfl⟩
  | hostRead off n => exact ⟨_, rfl⟩
  | hostWrite off n v => exact ⟨_, rfl⟩

/-- `exec` is the parametric meaning at the defaults. -/
theorem exec_eq_execWith (i : Instr) (s : State) : exec i s = execWith params i s := by cases i <;> rfl

theorem exec_next (i : Instr) (s : State) : ∃ t, exec i s = .next t := by
  rw [exec_eq_execWith]
  exact execWith_next params i s

/-- `step` is the parametric step at the defaults. -/
theorem step_eq_stepWith (s : State) : step s = stepWith params s := by
  have h : exec = execWith params := funext fun i => funext fun s => exec_eq_execWith i s
  rw [step, stepWith, h]

/-- What a step can be: quiescence, the engine's turn (named, or because no turn is left), a host access, a hard
reset. -/
theorem stepBy_cases (meaning : Meaning) (s : State) :
    (s.turns = [] ∧ s.busy = false ∧ stepBy meaning s = .next s) ∨
    (s.turns = [] ∧ s.busy = true ∧ stepBy meaning s = engineStepBy meaning s) ∨
    (∃ rest, s.turns = .engine :: rest ∧ s.busy = false ∧ stepBy meaning s = .next { s with turns := rest }) ∨
    (∃ rest, s.turns = .engine :: rest ∧ s.busy = true ∧
      stepBy meaning s = engineStepBy meaning { s with turns := rest }) ∨
    (∃ t rest, s.turns = .access t :: rest ∧ stepBy meaning s = meaning (decodeAccess t) { s with turns := rest }) ∨
    (∃ rest, s.turns = .hardReset :: rest ∧ stepBy meaning s = .next (hardReset { s with turns := rest })) := by
  unfold stepBy
  cases s.turns with
  | nil => cases s.busy <;> simp
  | cons t rest => cases t <;> cases s.busy <;> simp

theorem engineStepBy_latched {meaning : Meaning} {s : State} {w : Word} (h : s.eng = some w) :
    engineStepBy meaning s = meaning (decodeWord w) s := by
  simp [engineStepBy, h]

theorem engineStepBy_empty {meaning : Meaning} {s : State} (h : s.eng = none) :
    engineStepBy meaning s = .fault .engineEmpty := by
  simp [engineStepBy, h]

/-- Two runs one after the other. -/
theorem runSteps_succ_of_next {k : Nat} {s t : State} (h : step s = .next t) : runSteps (k + 1) s = runSteps k t := by
  simp [runSteps, h]

end Sys2Proof.Machine
end

