-- ==== Sys2Proof/Tests/Slice0.lean ====
section
/-! SUPPORT. Tests of the model against words and vectors written out from the spec, and a witness for the hypotheses
of every obligation that has some. -/

namespace Sys2Proof.Tests

open Sys2Proof Sys2Proof.Machine Sys2Proof.Terms

/-! ## Helpers -/

/-- A field of the next state, if there is one. -/
def after {α : Type} (o : Host.Outcome State Fault Refusal) (f : State → α) : Option α :=
  match o with
  | .next t => some (f t)
  | .fault _ => none
  | .refused _ => none

/-- An idle state with some bytes of IN, IN_LEN and KINIT set, and turns to come. -/
def withInput (bytes : List Byte) (kr kgr : BitVec 4) : State :=
  { State.reset with
    mem := cellsAt 0x10000 bytes, inLen := BitVec.ofNat 17 bytes.length, krInit := kr, kgrInit := kgr }

/-- The reset state with a command word accepted and some turns to come. -/
def accepted (w : Word) (turns : List Turn) : State := { accept w State.reset with turns := turns }

/-- The reset state with some turns to come. -/
def scheduled (turns : List Turn) : State := { State.reset with turns := turns }

/-- A memory whose three channels hold `k` in every element. -/
def filled (k : Int) : List Host.Cell :=
  storeCoefs (storeCoefs (storeCoefs [] 0 (List.replicate 4096 k)) 1 (List.replicate 4096 k)) 2
    (List.replicate 4096 k)

/-- Parameters other than the defaults: an IN of 16 bytes and two instances at 0 and 0x40000. -/
def smallParams : Config.Params := { params with inBytes := 16, nInst := 2, instIndex := BitVec.ofNat 14 }

/-! ## Well-formedness: each check refuses an ill-formed term -/

theorem test_wf_refuses_unreserved_illegal : (Instr.illegal 0x00000000#32).wellFormed = false := by decide
theorem test_wf_refuses_clear_as_illegal : (Instr.illegal 0x00000036#32).wellFormed = false := by decide
theorem test_wf_refuses_read_width : (Instr.hostRead 0#18 3).wellFormed = false := by decide
theorem test_wf_refuses_write_width : (Instr.hostWrite 0#18 8 0#32).wellFormed = false := by decide
theorem test_wf_refuses_zero_width : (Instr.hostRead 0#18 0).wellFormed = false := by decide

theorem test_wf_accepts :
    [Instr.nop, .rlgrDecode 3#2 8191#13, .dwtInvNx 3#2, .dwtInvX 0#2, .ycbcr2rgb, .ycocg2rgb 0#3, .clear 3#2,
      .softReset, .illegal 0xFFFFFFFF#32, .hostRead 0x3FFFF#18 1, .hostWrite 0#18 2 0#32].all (·.wellFormed) = true := by
  decide

/-! ## Decode: words written out from 30_encoding.md R71, R72 and 95_test_vectors.md 2.4 -/

theorem test_decode_nop : decodeWord 0b00000000000000000000000000000000#32 = .nop := by decide
theorem test_decode_rlgr : decodeWord 0b00000000000010000000000000010001#32 = .rlgrDecode 1#2 8#13 := by decide
theorem test_decode_rlgr_top : decodeWord 0b00011111111111110000000000110001#32 = .rlgrDecode 3#2 8191#13 := by decide
theorem test_decode_dwt_nx : decodeWord 0b00000000000000000000000000100010#32 = .dwtInvNx 2#2 := by decide
theorem test_decode_dwt_x : decodeWord 0b00000000000000000000000000010011#32 = .dwtInvX 1#2 := by decide
theorem test_decode_ycbcr : decodeWord 0b00000000000000000000000000000100#32 = .ycbcr2rgb := by decide
theorem test_decode_ycocg : decodeWord 0b00000000000000000000011000000101#32 = .ycocg2rgb 6#3 := by decide
theorem test_decode_clear : decodeWord 0b00000000000000000000000000100110#32 = .clear 2#2 := by decide
theorem test_decode_soft_reset : decodeWord 0b00000000000000000000000000000111#32 = .softReset := by decide

theorem test_decode_illegal_opcode : decodeWord 0x00000008#32 = .illegal 0x00000008#32 := by decide

/-- The reserved words of 95_test_vectors.md 2.5, S8 to S13, S24 and S25. -/
theorem test_decode_illegal_fields :
    [0x0000000F#32, 0xFFFFFFFF#32, 0x00000010#32, 0x00000017#32, 0x00000101#32, 0x00000014#32, 0x00000805#32].all
      (fun w => decodeWord w == .illegal w) = true := by decide

theorem test_decode_host_read : decode (.access ⟨false, 0x00008#18, 4, 0#32⟩) = .hostRead 0x00008#18 4 := by decide
theorem test_decode_host_write :
    decode (.access ⟨true, 0x22001#18, 1, 0x80#32⟩) = .hostWrite 0x22001#18 1 0x80#32 := by decide

/-- The bytes of `rlgr.dec ch=1, n=8` in memory order (20_memory.md R52). -/
theorem test_decode_bytes : decodeBytes [0x11#8, 0x00#8, 0x08#8, 0x00#8] = .ok (.rlgrDecode 1#2 8#13) := by decide
theorem test_decode_three_bytes : decodeBytes [0x11#8, 0x00#8, 0x08#8] = .error .notFourBytes := by decide

theorem test_decode_table_rows :
    [0x00000000, 0x00000001, 0x00000002, 0x00000003, 0x00000004, 0x00000005, 0x00000006, 0x00000007, 0x00000008].map
      (decodeTableWord 32) =
    [some .nop, some (.rlgrDecode 0#2 0#13), some (.dwtInvNx 0#2), some (.dwtInvX 0#2), some .ycbcr2rgb,
      some (.ycocg2rgb 0#3), some (.clear 0#2), some .softReset, some (.illegal 0x00000008#32)] := by decide

theorem test_encode_rlgr : encode (.rlgrDecode 1#2 8#13) = .command 0x00080011#32 := by decide
theorem test_encode_ycocg : encode (.ycocg2rgb 7#3) = .command 0x00000705#32 := by decide
theorem test_assembler_rejects : asmRlgrDec 4 0 = none ∧ asmRlgrDec 0 8192 = none ∧ asmYcocg2rgb 8 = none := by decide

/-- The second and third lines of this fill32 would be at 0x40000 and 0x40004, outside the window (R50): one write, no second and no third. -/
theorem test_fill_at_window_end :
    (HostOp.fill32 0x3FFFC 3 7#32).turns = [.access ⟨true, 0x3FFFC#18, 4, 7#32⟩] := by decide

/-! ## The word placed for the next step is the operation that step runs -/

/-- STATUS after the step, for the word of each row but SOFT_RESET's (95_test_vectors.md 2.5: S1, S8, S23 and the LASTOP
column). -/
theorem test_fetch_rows :
    [0, 1, 2, 3, 4, 5, 6, 8].map (fun w => after (step (State.reset.withFetchWord 32 w)) statusWord) =
      [some 0x00000002#32, some 0x00000012#32, some 0x00000022#32, some 0x00000032#32, some 0x00000042#32,
        some 0x00000556#32, some 0x00000062#32, some 0x00000186#32] := by decide

theorem test_fetch_soft_reset :
    after (step ({ State.reset with krInit := 15#4, done := true }.withFetchWord 32 7)) (fun t => (statusWord t, t.krInit)) =
      some (0x00000000#32, 1#4) := by decide

/-! ## One step against the vectors of 95_test_vectors.md -/

/-- S12, S14, S15, S18, S20, S21, S22 and S24: the error of a word, with the LASTOP of the word. -/
theorem test_command_errors :
    [0x00000017#32, 0x00010031#32, 0x10010001#32, 0x10010031#32, 0x00000032#32, 0x00000033#32, 0x00000036#32,
        0x00000014#32].map (fun w => after (step { accepted w [] with inLen := 0x1FFFF#17 }) statusWord) =
      [some 0x00000176#32, some 0x00000216#32, some 0x00000316#32, some 0x00000216#32, some 0x00000226#32,
        some 0x00000236#32, some 0x00000266#32, some 0x00000146#32] := by decide

/-- V14: a mixed stream; the elements, BITS, EMIT and KSTATE. -/
theorem test_rlgr_results :
    after (exec (.rlgrDecode 1#2 8#13) (withInput [0x9B#8, 0xB0#8] 1#4 1#4))
      (fun t => (coefAt t.mem 1 0, coefAt t.mem 1 1, t.rlgrBits, t.rlgrEmit, t.rlgrKr, t.rlgrKgr)) =
        some (some 0, some 2, 10#20, 8#13, 4#4, 0#4) := by decide

/-- V5, V18 and V22: a negative value, a partial zero run, saturation. -/
theorem test_rlgr_streams :
    decodeStream 2 1 1 [0x70#8] = ⟨[-2], 4, 2, 0⟩ ∧ decodeStream 3 15 1 [0x80#8] = ⟨[], 0, 15, 1⟩ ∧
    decodeStream 1 1 15 [0#8, 0#8, 0#8, 0#8, 0#8, 0x80#8, 0#8, 0#8] = ⟨[32767], 57, 2, 0⟩ := by decide

/-- D2 and D6: LIFT_NX, the floor shift and both clamps. -/
theorem test_lift_nx :
    liftNx [0, 0, 0, 0] [1, 0, 0, 0] = [-1, 1, -1, -1, 0, 0, 0, 0] ∧
    liftNx [-32768, -32768] [-32768, 32767] = [0, -32768, -32768, 32766] := by decide

/-- D9: LIFT_X with nL = nH + 1. -/
theorem test_lift_x :
    liftX [1, 2, 3, 4, 5, 6, 7, 8, 9] [1, -1, 2, -2, 3, -3, 0, 1] =
      [0, 3, 2, 0, 3, 7, 4, 0, 5, 11, 6, 1, 8, 8, 8, 10, 8] := by decide

/-- D11: the tail of LIFT_X with nL = nH + 2, truncation toward zero. -/
theorem test_lift_x_tail :
    (liftX (List.replicate 31 0 ++ [-9, 5]) (List.replicate 30 0 ++ [-3])).drop 58 = [0, 0, 1, -9, -8, -1] := by decide

/-- P4 and P1: grey of Y = 2048 and of Y = 0. -/
theorem test_ycbcr_grey :
    ycbcr defaultMatrix 2048 0 0 = ⟨192#8, 192#8, 192#8, 255#8⟩ ∧
    ycbcr defaultMatrix 0 0 0 = ⟨128#8, 128#8, 128#8, 255#8⟩ := by decide

/-- P5: the pixel of Y = 100, Co = 10, Cg = 5 at CLL = 1. -/
theorem test_ycocg_pixel : ycocg 100 10 5 1 = ⟨105#8, 105#8, 85#8, 255#8⟩ := by decide

/-- P7: the soft reset within the CMD write; DONE_IP and irq are 0 after it. -/
theorem test_soft_reset_write :
    after (exec (.hostWrite 4#18 4 7#32) { State.reset with krInit := 15#4, doneIe := true, doneIp := true, irq := true })
      (fun t => (t.krInit, t.doneIp, t.irq, t.done)) = some (1#4, false, false, false) := by decide

/-- B1, B7, B9: UNMAPPED, WIDTH and MISALIGNED of a read. -/
theorem test_read_errors :
    [(0x28#18, 4), (0x0#18, 1), (0x30001#18, 2)].map (fun x => (hostReadWith params x.1 x.2 State.reset).resp) =
      [.busErr .unmapped, .busErr .width, .busErr .misaligned] := by decide

/-- H2: little-endian read of two elements. -/
theorem test_read_elements :
    (hostReadWith params 0x22000#18 4 { State.reset with mem := cellsAt 0x22000 [0x01#8, 0x80#8, 0xFF#8, 0xFF#8] }).resp =
      .data 0xFFFF8001#32 := by decide

/-- H1: a 32-bit write sets two elements. -/
theorem test_write_elements :
    after (exec (.hostWrite 0x22000#18 4 0xFFFF0001#32) State.reset) (fun t => (coefAt t.mem 1 0, coefAt t.mem 1 1)) =
      some (some 1, some (-1)) := by decide

/-- B14, B16 and B17: a write of CMD and of STATUS while BUSY = 1. -/
theorem test_write_errors_busy :
    [(4#18, 4), (8#18, 4), (8#18, 2)].map (fun x => (hostWriteWith params x.1 x.2 0#32 (accepted 0#32 [])).resp) =
      [.busErr .busy, .busErr .readOnly, .busErr .width] := by decide

/-! ## Witnesses: concrete states and operands that meet the hypotheses of each obligation -/

/-- NOP accepted, with the interrupt enabled: a busy state with the invariant. -/
def busyState (turns : List Turn) : State := { accepted 0#32 turns with doneIe := true }

theorem witness_invariant (turns : List Turn) : BlockInv params (busyState turns) where
  memory := rfl
  buffers := fun c hc => absurd hc List.not_mem_nil
  irq := rfl
  engine := rfl
  notSoftReset := by intro h; cases h
  lastop := by intro w h; cases h; rfl
  status := rfl
  errcode := rfl
  temp := by show (List.replicate 4096 0#16).length = 4096; rw [List.length_replicate]

/-- An idle state after an ILLEGAL_CMD completion: the invariant with an error. -/
def failedState : State := { State.reset with done := true, err := true, errcode := 1#8, doneIp := true }

theorem witness_invariant_failed (P : Config.Params) : BlockInv P failedState where
  memory := rfl
  buffers := fun c hc => absurd hc List.not_mem_nil
  irq := rfl
  engine := rfl
  notSoftReset := by intro h; cases h
  lastop := by intro w h; cases h
  status := rfl
  errcode := by decide
  temp := by show (List.replicate 4096 0#16).length = 4096; rw [List.length_replicate]

/-! Memories whose channels are defined. -/

theorem coefAt_apart (m : List Host.Cell) (c d : Nat) (vs : List Int) (hl : vs.length ≤ 4096) (hcd : c ≠ d) (i : Nat)
    (hi : i < 4096) : coefAt (storeCoefs m d vs) c i = coefAt m c i := by
  unfold coefAt storeCoefs
  rw [readByte_writeRange, readByte_writeRange, elementsBytes_length, if_neg, if_neg]
  all_goals unfold coefBase; omega

theorem coefAt_constant (m : List Host.Cell) (c i : Nat) (k : Int) (h1 : -32768 ≤ k) (h2 : k ≤ 32767) (hi : i < 4096) :
    coefAt (storeCoefs m c (List.replicate 4096 k)) c i = some k := by
  rw [coefAt_storeCoefs _ _ _ _ (by rw [List.length_replicate]; exact hi), List.getElem?_replicate_of_lt hi,
    Option.map_some, wrap16_of_range h1 h2]

theorem filled_wf (k : Int) : Memory.wf (filled k) = true :=
  wf_storeCoefs _ _ _ (wf_storeCoefs _ _ _ (wf_storeCoefs _ _ _ rfl))

theorem coefAt_filled (k : Int) (h1 : -32768 ≤ k) (h2 : k ≤ 32767) (c : Nat) (hc : c < 3) (i : Nat) (hi : i < 4096) :
    coefAt (filled k) c i = some k := by
  have hl : (List.replicate 4096 k).length ≤ 4096 := by rw [List.length_replicate]
  unfold filled
  obtain rfl | rfl | rfl : c = 0 ∨ c = 1 ∨ c = 2 := by omega
  · rw [coefAt_apart _ _ _ _ hl (by omega) i hi, coefAt_apart _ _ _ _ hl (by omega) i hi, coefAt_constant _ _ _ _ h1 h2 hi]
  · rw [coefAt_apart _ _ _ _ hl (by omega) i hi, coefAt_constant _ _ _ _ h1 h2 hi]
  · rw [coefAt_constant _ _ _ _ h1 h2 hi]

theorem filled_defined (k : Int) (h1 : -32768 ≤ k) (h2 : k ≤ 32767) : ∀ c < 3, ChannelDefined (filled k) c :=
  fun c hc i hi => by rw [coefAt_filled k h1 h2 c hc i hi]; rfl

/-- A canonical memory whose channel 0 is 0 below element `n` and `k` from it on. -/
def stepMemory (n : Nat) (k : Int) : List Host.Cell :=
  storeCoefs [] 0 (List.replicate n 0 ++ List.replicate (4096 - n) k)

theorem coefAt_stepMemory (n : Nat) (hn : n ≤ 4096) (k : Int) (h1 : -32768 ≤ k) (h2 : k ≤ 32767) (i : Nat) (hi : i < 4096) :
    coefAt (stepMemory n k) 0 i = some (if i < n then 0 else k) := by
  unfold stepMemory
  rw [coefAt_storeCoefs _ _ _ _ (by simp; omega)]
  by_cases h : i < n
  · rw [List.getElem?_append_left (by simpa using h), List.getElem?_replicate_of_lt h, if_pos h, Option.map_some,
      wrap16_of_range (by omega) (by omega)]
  · rw [List.getElem?_append_right (by simpa using h), List.getElem?_replicate_of_lt (by simp; omega), if_neg h,
      Option.map_some, wrap16_of_range h1 h2]

/-! One theorem per obligation with hypotheses. -/

theorem witness_DecodeOfEncodeIsIdentity :
    (Instr.rlgrDecode 3#2 8191#13).wellFormed = true ∧ (Instr.illegal 8#32).wellFormed = true ∧
      (Instr.hostWrite 0x3FFFF#18 1 255#32).wellFormed = true := by decide

theorem witness_CommandBytesDecodeAsWord : ([] : List Byte).length ≠ 4 ∧ [0#8, 0#8, 0#8, 0#8, 0#8].length ≠ 4 := by decide

/-- Both sides of every bound. -/
theorem witness_AssemblerWordsAndRejections :
    ((3 ≤ 3 ∧ 8191 ≤ 8191) ∧ (3 < 4 ∨ 8191 < 0) ∧ (3 < 0 ∨ 8191 < 8192)) ∧ (7 ≤ 7 ∧ 7 < 8) := by decide

theorem witness_StepRunsDecodedInstruction :
    (Instr.clear 2#2).wellFormed = true ∧
    (accepted 0x26#32 [.engine]).busy = true ∧ (accepted 0x26#32 [.engine]).eng = some 0x26#32 ∧
    decode (.command 0x26#32) = .clear 2#2 ∧ (accepted 0x26#32 [.engine]).turns = [.engine] ∧
    (accepted 0x26#32 []).turns = [] ∧
    decode (.access ⟨false, 8#18, 4, 0#32⟩) = .hostRead 8#18 4 ∧
    (scheduled [.access ⟨false, 8#18, 4, 0#32⟩]).turns = [.access ⟨false, 8#18, 4, 0#32⟩] := by decide

theorem witness_WrittenCommandIsAcceptedThenPerformed :
    (scheduled [.access (commandWrite 6#32), .engine]).busy = false ∧ (6#32 : Word) ≠ 7#32 ∧
    (scheduled [.access (commandWrite 6#32), .engine]).turns = [.access (commandWrite 6#32), .engine] := by decide

theorem witness_IdleBlockIsQuiescent :
    (scheduled [.engine]).busy = false ∧ (scheduled [.engine]).turns = [.engine] ∧
    (scheduled []).busy = false ∧ (scheduled []).turns = [] := by decide

/-- A hard reset after the first engine turn leaves DONE promised; one before it does not. -/
theorem witness_AcceptedCommandCompletes :
    BlockInv params (busyState [.access ⟨false, 8#18, 4, 0#32⟩, .engine, .hardReset]) ∧
      (busyState [.access ⟨false, 8#18, 4, 0#32⟩, .engine, .hardReset]).busy = true ∧
      Turn.hardReset ∉ (busyState [.access ⟨false, 8#18, 4, 0#32⟩, .engine, .hardReset]).turns.takeWhile (· ≠ .engine) ∧
      BlockInv params (busyState [.hardReset]) := ⟨witness_invariant _, rfl, by decide, witness_invariant _⟩

theorem witness_StepKeepsInvariant :
    BlockInv params (busyState []) ∧ step (busyState []) = .next (finish (busyState [])) ∧
    BlockInv smallParams failedState ∧ stepWith smallParams failedState = .next failedState :=
  ⟨witness_invariant _, rfl, witness_invariant_failed _, rfl⟩

theorem witness_RunsNeverStop : BlockInv params (busyState [.engine, .hardReset]) ∧ BlockInv params failedState :=
  ⟨witness_invariant _, witness_invariant_failed _⟩

theorem witness_RunOfCommandEndsAtCompletion :
    (scheduled (HostOp.run 0x10#32 2).turns).busy = false ∧ (0x10#32 : Word) ≠ 7#32 ∧
      (scheduled (HostOp.run 0x10#32 2).turns).turns = (HostOp.run 0x10#32 2).turns := by decide

theorem witness_BusyBlockIsUndisturbed :
    (busyState [.access ⟨true, 0x1C#18, 4, 0#32⟩]).busy = true ∧
    (busyState [.access ⟨true, 0x1C#18, 4, 0#32⟩]).turns = [.access ⟨true, 0x1C#18, 4, 0#32⟩] ∧
    step (busyState [.access ⟨true, 0x1C#18, 4, 0#32⟩]) =
      .next { busyState [] with doneIe := false, resp := .done } := ⟨rfl, rfl, rfl⟩

theorem witness_ReservedWordCompletesWithIllegalCmd :
    isReserved 0xFFFFFFFF#32 = true ∧ (scheduled [.access (commandWrite 0xFFFFFFFF#32), .engine]).busy = false ∧
    (scheduled [.access (commandWrite 0xFFFFFFFF#32), .engine]).turns =
      [.access (commandWrite 0xFFFFFFFF#32), .engine] := by decide

theorem witness_SoftResetEffect :
    (scheduled [.access (commandWrite 7#32)]).busy = false ∧
    (scheduled [.access (commandWrite 7#32)]).turns = [.access (commandWrite 7#32)] := by decide

theorem witness_HardResetEffect : (busyState [.hardReset]).turns = [.hardReset] ∧ (busyState [.hardReset]).busy = true := by
  decide

theorem witness_ClearEffect : (0#2 : BitVec 2) ≠ 3#2 ∧ (2#2 : BitVec 2) ≠ 3#2 := by decide

/-- COUNT at 4097 and at 4096, IN_LEN at IN_BYTES + 1. -/
theorem witness_CommandErrorsInOrderAndPrecise :
    (2#2 : BitVec 2) ≠ 3#2 ∧ 4096 < (4097#13 : BitVec 13).toNat ∧ (4096#13 : BitVec 13).toNat ≤ 4096 ∧
      params.inBytes < { State.reset with inLen := 65537#17 }.inLen.toNat := by decide

theorem witness_RlgrDecodeEffect :
    (2#2 : BitVec 2) ≠ 3#2 ∧ (4096#13 : BitVec 13).toNat ≤ 4096 ∧
    (withInput [0x9B#8, 0xB0#8] 1#4 1#4).inLen.toNat ≤ params.inBytes ∧
    Memory.wf (withInput [0x9B#8, 0xB0#8] 1#4 1#4).mem = true ∧
    [0x9B#8, 0xB0#8].length = (withInput [0x9B#8, 0xB0#8] 1#4 1#4).inLen.toNat ∧
    ∀ k < (withInput [0x9B#8, 0xB0#8] 1#4 1#4).inLen.toNat,
      inAt (withInput [0x9B#8, 0xB0#8] 1#4 1#4).mem k = [0x9B#8, 0xB0#8][k]? := by decide

/-- The last byte of IN[0..L−1] is the poisoned one. -/
theorem witness_RlgrDecodeOfPoisonedInput :
    (0#2 : BitVec 2) ≠ 3#2 ∧ (4#13 : BitVec 13).toNat ≤ 4096 ∧
    { withInput [0x80#8] 1#4 1#4 with inLen := 2#17 }.inLen.toNat ≤ params.inBytes ∧
    Memory.wf { withInput [0x80#8] 1#4 1#4 with inLen := 2#17 }.mem = true ∧
    1 < { withInput [0x80#8] 1#4 1#4 with inLen := 2#17 }.inLen.toNat ∧
    inAt { withInput [0x80#8] 1#4 1#4 with inLen := 2#17 }.mem 1 = none := by decide

theorem witness_RlgrDecodeOfEmptyInput :
    (0#2 : BitVec 2) ≠ 3#2 ∧ (4096#13 : BitVec 13).toNat ≤ 4096 ∧ State.reset.inLen = 0#17 := by decide

theorem witness_StreamIsMostSignificantBitFirst :
    [0x9B#8, 0xB0#8][15 / 8]? = some 0xB0#8 ∧ 31 < 2 ^ 5 ∧ 0 < 2 ^ 0 := by decide

/-- A run at its largest value, a value with the smallest quotient and the largest remainder. -/
theorem witness_SymbolsAreReadAsStated : 7 < 2 ^ 3 ∧ (0 < 2 ^ 0) ∧ 1 ≤ 1 ∧ 3 < 2 ^ 2 := by decide

/-- A run and a value, each cut before its last bit. -/
theorem witness_CutOffSymbolIsNotRead :
    (Fits 3 (.zeroRun 8) ∧ 3 < (symbolBits 3 1 (.zeroRun 8)).length) ∧
      (Fits 3 (.value 5 true) ∧ 5 < (symbolBits 3 1 (.value 5 true)).length) :=
  ⟨⟨⟨by decide, by decide⟩, by decide⟩, ⟨trivial, by decide⟩⟩

/-- A stream that fills every slot with bits after it, and one that leaves a slot with zeros after it. -/
theorem witness_RlgrDecodeInvertsSymbolWriter :
    AllFit 1 [.zeroRun 2, .value 1 true] ∧ ([Symbol.zeroRun 2, .value 1 true].flatMap coefsOf).length ≤ 3 ∧
      (([Symbol.zeroRun 2, .value 1 true].flatMap coefsOf).length < 3 → ∀ b ∈ [true], b = false) ∧
      ([Symbol.zeroRun 2, .value 1 true].flatMap coefsOf).length ≤ 4 ∧
      (([Symbol.zeroRun 2, .value 1 true].flatMap coefsOf).length < 4 → ∀ b ∈ [false, false], b = false) :=
  ⟨⟨⟨by decide, by decide⟩, trivial, trivial⟩, by decide, by decide, by decide, by decide⟩

theorem witness_RlgrDecodeBounds : 15 ≤ 15 ∧ 0 ≤ 15 := by decide

/-- Two memories that differ in the first byte after the input: with the input defined, and with it poisoned. -/
theorem witness_RlgrDecodeReadsOnlyItsInput :
    Memory.wf (withInput [0x80#8] 1#4 1#4).mem = true ∧ Memory.wf (cellsAt 0x10000 [0x80#8, 1#8]) = true ∧
    (1#2 : BitVec 2) ≠ 3#2 ∧ (8#13 : BitVec 13).toNat ≤ 4096 ∧
    (withInput [0x80#8] 1#4 1#4).inLen.toNat ≤ params.inBytes ∧
    (∀ k < (withInput [0x80#8] 1#4 1#4).inLen.toNat,
      inAt (cellsAt 0x10000 [0x80#8, 1#8]) k = inAt (withInput [0x80#8] 1#4 1#4).mem k) ∧
    (∀ k < (withInput [0x80#8] 1#4 1#4).inLen.toNat, (inAt (withInput [0x80#8] 1#4 1#4).mem k).isSome = true) ∧
    (∀ k < { State.reset with inLen := 1#17 }.inLen.toNat,
      inAt (cellsAt 0x10001 [1#8]) k = inAt { State.reset with inLen := 1#17 }.mem k) := by decide

theorem witness_DwtCommandsEffect :
    (2#2 : BitVec 2) ≠ 3#2 ∧ Memory.wf { State.reset with mem := filled (-32768) }.mem = true ∧
    (List.replicate 4096 (-32768 : Int)).length = 4096 ∧
    ∀ i < 4096, coefAt { State.reset with mem := filled (-32768) }.mem (2#2 : BitVec 2).toNat i =
      (List.replicate 4096 (-32768 : Int))[i]? :=
  ⟨by decide, filled_wf _, List.length_replicate, fun i hi => by
    rw [List.getElem?_replicate_of_lt hi]; exact coefAt_filled _ (by omega) (by omega) 2 (by omega) i hi⟩

theorem witness_DwtOfPoisonedChannel :
    (1#2 : BitVec 2) ≠ 3#2 ∧ Memory.wf State.reset.mem = true ∧ 4095 < 4096 ∧
      coefAt State.reset.mem (1#2 : BitVec 2).toNat 4095 = none := by decide

/-- Joining the bands is a function to nL + nH samples; a sample of the first row and column, of the last, and an element
before and after the block. -/
theorem witness_LevelStepSamples :
    (∀ lo hi : List Int, lo.length = 2 → hi.length = 1 → (lo ++ hi).length = 2 + 1) ∧
    5 + (2 + 1) * (2 + 1) ≤ (List.replicate 15 (7 : Int)).length ∧ 4 < 5 ∧ 5 + (2 + 1) * (2 + 1) ≤ 14 ∧
    0 < 2 + 1 ∧ 2 < 2 + 1 := by
  refine ⟨fun lo hi h1 h2 => ?_, by decide⟩
  rw [List.length_append, h1, h2]

/-- The shortest bands, and bands with a sample of each kind. -/
theorem witness_LiftNxSamples :
    (0 < 1 ∧ [5].length = 1 ∧ [3].length = 1 ∧ 0 < 1) ∧ (0 < 2 ∧ [5, 6].length = 2 ∧ [3, 4].length = 2 ∧ 0 + 1 < 2) := by
  decide

theorem witness_LiftXSamples :
    (0 < 2 ∧ [1, 2].length = 2 ∧ [1, 2, 3].length = 3 ∧ 3 = 2 + 1 ∧ 0 < 1 ∧ 1 < 2) ∧
      (0 < 1 ∧ [1].length = 1 ∧ [1, 2, 3].length = 3 ∧ 3 = 1 + 2 ∧ 0 < 1) := by decide

/-- A lifting that maps everything to zeros. -/
theorem witness_DwtOfZeroIsZero :
    (∀ s, (fun lo hi : List Int => List.replicate (lo.length + hi.length) (0 : Int)) (List.replicate s 0)
      (List.replicate s 0) = List.replicate (2 * s) 0) ∧
    (∀ nL nH, 0 < nH → (nL = nH + 1 ∨ nL = nH + 2) →
      (fun lo hi : List Int => List.replicate (lo.length + hi.length) (0 : Int)) (List.replicate nL 0)
        (List.replicate nH 0) = List.replicate (nL + nH) 0) ∧ 0 < 8 ∧ 9 = 8 + 1 ∧ 33 = 31 + 2 := by
  refine ⟨fun s => ?_, fun nL nH _ _ => ?_, by decide⟩
  · simp only [List.length_replicate]; rw [two_mul]
  · simp only [List.length_replicate]

/-- Both ends of the 16-bit range. -/
theorem witness_DwtOfConstantLl3IsConstant :
    (0#2 : BitVec 2) ≠ 3#2 ∧ Memory.wf (stepMemory 4032 32767) = true ∧ Memory.wf (stepMemory 4015 (-32768)) = true ∧
    params.liftNx = liftNx ∧ params.liftX = liftX ∧
    (∀ i < 4096, coefAt (stepMemory 4032 32767) (0#2 : BitVec 2).toNat i = some (if i < 4032 then 0 else 32767)) ∧
    (∀ i < 4096, coefAt (stepMemory 4015 (-32768)) (0#2 : BitVec 2).toNat i = some (if i < 4015 then 0 else -32768)) :=
  ⟨by decide, wf_storeCoefs _ _ _ rfl, wf_storeCoefs _ _ _ rfl, rfl, rfl,
    fun i hi => coefAt_stepMemory 4032 (by omega) 32767 (by omega) (by omega) i hi,
    fun i hi => coefAt_stepMemory 4015 (by omega) (-32768) (by omega) (by omega) i hi⟩

theorem witness_DwtStaysInSixteenBits : (List.replicate 4096 (32767 : Int)).length = 4096 := List.length_replicate

theorem witness_YcbcrToRgbEffect :
    Memory.wf { State.reset with mem := filled 32767 }.mem = true ∧
    (∀ c < 3, ChannelDefined { State.reset with mem := filled 32767 }.mem c) ∧
    coefAt { State.reset with mem := filled 32767 }.mem 0 4095 = some 32767 ∧
    coefAt { State.reset with mem := filled 32767 }.mem 1 4095 = some 32767 ∧
    coefAt { State.reset with mem := filled 32767 }.mem 2 4095 = some 32767 :=
  ⟨filled_wf _, filled_defined _ (by omega) (by omega), coefAt_filled _ (by omega) (by omega) 0 (by omega) _ (by omega),
    coefAt_filled _ (by omega) (by omega) 1 (by omega) _ (by omega),
    coefAt_filled _ (by omega) (by omega) 2 (by omega) _ (by omega)⟩

theorem witness_YcocgToRgbEffect :
    (7#3 : BitVec 3) ≠ 0#3 ∧ Memory.wf { State.reset with mem := filled (-1) }.mem = true ∧
    (∀ c < 3, ChannelDefined { State.reset with mem := filled (-1) }.mem c) ∧
    coefAt { State.reset with mem := filled (-1) }.mem 0 0 = some (-1) :=
  ⟨by decide, filled_wf _, filled_defined _ (by omega) (by omega),
    coefAt_filled _ (by omega) (by omega) 0 (by omega) _ (by omega)⟩

theorem witness_ColorOfPoisonedChannel :
    (1#3 : BitVec 3) ≠ 0#3 ∧ Memory.wf State.reset.mem = true ∧ 2 < 3 ∧ 4095 < 4096 ∧
      coefAt State.reset.mem 2 4095 = none := by decide

theorem witness_YcocgFunction :
    (-128 : Int) = Int.bmod (10 % 256 * 2 ^ (7 - 1)) 256 ∧ (64 : Int) = Int.bmod (5 % 256 * 2 ^ (7 - 1)) 256 := by decide

/-- Parameters whose YCoCg function gives a transparent pixel; a NOP, which is no host write; the last pixel of an idle
block. -/
theorem witness_ConvertedPixelsAreOpaque :
    Instr.ycocg2rgb 1#3 ∈ [Instr.ycbcr2rgb, Instr.ycocg2rgb 1#3] ∧ (1#3 : BitVec 3) ≠ 0#3 ∧
    Memory.wf { State.reset with mem := filled 0 }.mem = true ∧
    (∀ c < 3, ChannelDefined { State.reset with mem := filled 0 }.mem c) ∧
    ({ params with ycocgFn := fun _ _ _ _ => ⟨1#8, 2#8, 3#8, 4#8⟩ }.ycocgFn 0 0 0 1).a = 4#8 ∧
    (∀ off n v, Instr.nop ≠ .hostWrite off n v) ∧ execWith smallParams .nop State.reset = .next (finish State.reset) ∧
    State.reset.busy = false ∧ 4095 < 4096 :=
  ⟨by decide, by decide, filled_wf _, filled_defined _ (by omega) (by omega), rfl, fun _ _ _ => Instr.noConfusion, rfl,
    rfl, by decide⟩

/-- A pixel function that gives another alpha is stored with A = 255. -/
theorem test_alpha_forced :
    convertPlanes (fun a b c => ⟨BitVec.ofInt 8 a, BitVec.ofInt 8 b, BitVec.ofInt 8 c, 4#8⟩) [1] [2] [3] =
      [⟨1#8, 2#8, 3#8, 255#8⟩] := by decide

theorem witness_ConvertingTwiceIsIdempotent :
    Instr.ycocg2rgb 1#3 ∈ [Instr.ycbcr2rgb, Instr.ycocg2rgb 1#3] ∧ (1#3 : BitVec 3) ≠ 0#3 ∧
    Memory.wf { State.reset with mem := filled 0 }.mem = true ∧
    ∃ t u, exec (.ycocg2rgb 1#3) { State.reset with mem := filled 0 } = .next t ∧ exec (.ycocg2rgb 1#3) t = .next u := by
  refine ⟨by decide, by decide, filled_wf _, ?_⟩
  obtain ⟨t, ht⟩ := exec_next (.ycocg2rgb 1#3) { State.reset with mem := filled 0 }
  obtain ⟨u, hu⟩ := exec_next (.ycocg2rgb 1#3) t
  exact ⟨t, u, ht, hu⟩

/-- Each clause at the edge of its range: the first byte after the registers and the last after PIX; a register with
n = 1 and a buffer with n = 3; a misaligned register; IN_LEN and the last word of PIX while busy; ID and RLGR_BITS. -/
theorem witness_BusErrorsInPriority :
    params.inBytes % 4 = 0 ∧ Instr.hostRead 0x28#18 4 ∈ accessesAt 0x28#18 4 0#32 ∧
    ¬ Mapped (0x28#18 : Offset).toNat ∧ ¬ Mapped (0x34000#18 : Offset).toNat ∧
    (Mapped (0x24#18 : Offset).toNat ∧ ¬ WidthAccepted (0x24#18 : Offset).toNat 1) ∧
    (Mapped (0x20000#18 : Offset).toNat ∧ ¬ WidthAccepted (0x20000#18 : Offset).toNat 3) ∧
    (Mapped (0x27#18 : Offset).toNat ∧ WidthAccepted (0x27#18 : Offset).toNat 4 ∧ (0x27#18 : Offset).toNat % 4 ≠ 0) ∧
    (Mapped (0x33FFF#18 : Offset).toNat ∧ WidthAccepted (0x33FFF#18 : Offset).toNat 2 ∧
      (0x33FFF#18 : Offset).toNat % 2 ≠ 0) ∧
    (Mapped (0x0C#18 : Offset).toNat ∧ WidthAccepted (0x0C#18 : Offset).toNat 4 ∧ (0x0C#18 : Offset).toNat % 4 = 0 ∧
      (busyState []).busy = true ∧ ¬ OpenWhileBusy (0x0C#18 : Offset).toNat) ∧
    (Mapped (0x33FFF#18 : Offset).toNat ∧ WidthAccepted (0x33FFF#18 : Offset).toNat 1 ∧
      (0x33FFF#18 : Offset).toNat % 1 = 0 ∧ ¬ OpenWhileBusy (0x33FFF#18 : Offset).toNat) ∧
    (ReadOnlyOffset (0x00#18 : Offset).toNat ∧ OpenWhileBusy (0x00#18 : Offset).toNat) ∧
    (ReadOnlyOffset (0x10#18 : Offset).toNat ∧ State.reset.busy = false) := by
  unfold Mapped WidthAccepted OpenWhileBusy ReadOnlyOffset accessesAt
  exact ⟨by decide, by decide, by decide, by decide, by decide, by decide, by decide, by decide, by decide, by decide,
    by decide, by decide⟩

theorem witness_HostReadOfRegisters : State.reset.busy = false := rfl

/-- The first byte of IN and the last word of PIX. -/
theorem witness_HostReadOfBuffers :
    State.reset.busy = false ∧
    ((1 = 1 ∨ 1 = 2 ∨ 1 = 4) ∧ (0x10000#18 : Offset).toNat % 1 = 0 ∧ isBufferByte params (0x10000#18 : Offset).toNat = true) ∧
    ((4 = 1 ∨ 4 = 2 ∨ 4 = 4) ∧ (0x33FFC#18 : Offset).toNat % 4 = 0 ∧ isBufferByte params (0x33FFC#18 : Offset).toNat = true) ∧
    params.inBytes % 4 = 0 := by decide

theorem witness_HostReadOfElementsAndPixels :
    { State.reset with mem := filled 5 }.busy = false ∧ 2 < 3 ∧ 2047 < 2048 ∧
    coefAt { State.reset with mem := filled 5 }.mem 2 (2 * 2047) = some 5 ∧
    coefAt { State.reset with mem := filled 5 }.mem 2 (2 * 2047 + 1) = some 5 ∧
    4095 < 4096 ∧
    pixAt { State.reset with mem := cellsAt 0x33FFC [1#8, 2#8, 3#8, 255#8] }.mem 4095 = some ⟨1#8, 2#8, 3#8, 255#8⟩ :=
  ⟨rfl, by decide, by decide, coefAt_filled _ (by omega) (by omega) 2 (by omega) _ (by omega),
    coefAt_filled _ (by omega) (by omega) 2 (by omega) _ (by omega), by decide, by decide⟩

/-- The last byte of IN and the first word of COEF[0]. -/
theorem witness_HostWriteOfBuffers :
    State.reset.busy = false ∧
    ((1 = 1 ∨ 1 = 2 ∨ 1 = 4) ∧ (0x1FFFF#18 : Offset).toNat % 1 = 0 ∧ isBufferByte params (0x1FFFF#18 : Offset).toNat = true) ∧
    ((4 = 1 ∨ 4 = 2 ∨ 4 = 4) ∧ (0x20000#18 : Offset).toNat % 4 = 0 ∧ isBufferByte params (0x20000#18 : Offset).toNat = true) ∧
    params.inBytes % 4 = 0 := by decide

theorem witness_BufferReadAfterWrite :
    State.reset.busy = false ∧ (2 = 1 ∨ 2 = 2 ∨ 2 = 4) ∧ (0x25FFE#18 : Offset).toNat % 2 = 0 ∧
    isBufferByte params (0x25FFE#18 : Offset).toNat = true ∧ params.inBytes % 4 = 0 ∧
    exec (.hostWrite 0x25FFE#18 2 0x12345678#32) State.reset =
      .next { State.reset with mem := [(0x25FFE, 0x78#8), (0x25FFF, 0x56#8)], resp := .done } :=
  ⟨rfl, by decide, by decide, by decide, by decide, rfl⟩

theorem witness_HostWriteOfRegisters : failedState.busy = false := rfl

theorem witness_CmdWriteAccepts :
    failedState.busy = false ∧ (0xFFFFFFFF#32 : Word) ≠ 7#32 ∧ (7#32 : Word) = 7#32 := by decide

/-- A completion that raises irq. -/
theorem witness_IrqChangesOnlyAtItsEvents :
    BlockInv params (busyState []) ∧ step (busyState []) = .next (finish (busyState [])) ∧
      (finish (busyState [])).irq ≠ (busyState []).irq := ⟨witness_invariant _, rfl, by decide⟩

/-- A decode of nothing that writes RLGR_KSTATE. -/
theorem witness_ResultRegistersWrittenOnlyByRlgr :
    (exec (.rlgrDecode 0#2 0#13) State.reset =
      .next { finish State.reset with rlgrKr := 1#4, rlgrKgr := 1#4 }) ∧
      { finish State.reset with rlgrKr := 1#4, rlgrKgr := 1#4 }.rlgrKr ≠ State.reset.rlgrKr := ⟨rfl, by decide⟩

/-- A step of the second of two instances, and an address in its window. -/
theorem witness_InstancesAreIndependent :
    stepInstance smallParams 1 [State.reset, scheduled [.engine]] = .next [State.reset, State.reset] ∧ (0 : Nat) ≠ 1 ∧
    [State.reset, scheduled [.engine]][1]? = some (scheduled [.engine]) ∧
    selectInstance smallParams 0x40004#32 = some (1, 4#18) :=
  ⟨rfl, by decide, rfl, by decide⟩

/-- The second window, the first address past it, and the first default window. -/
theorem witness_AddressSelectsInstanceAndOffset :
    (1 < smallParams.nInst ∧ ∀ j < 1, smallParams.instIndex j ≠ smallParams.instIndex 1) ∧
    (∀ k < smallParams.nInst, ¬ ((smallParams.instBase k).toNat ≤ (0x80000#32 : Word).toNat ∧
      (0x80000#32 : Word).toNat < (smallParams.instBase k).toNat + 0x40000)) ∧
    0 < params.nInst ∧ ∀ j < 0, params.instIndex j ≠ params.instIndex 0 :=
  ⟨by decide, by decide, by decide, fun j hj => absurd hj (Nat.not_lt_zero j)⟩

/-- After reset each instance has its KINIT of 1 and a stream of free values of its own. -/
theorem test_platform_reset :
    (platformReset smallParams).map (fun s => (s.krInit, s.stream)) = [(1#4, 0), (1#4, 1)] := by decide

/-- The host of instance 0 reaches instance 1 by an offset past its own window (30_encoding.md R76). -/
theorem test_issue_past_window :
    ((HostOp.wr 4 0x40004 0#32).issue smallParams 0 [State.reset, State.reset]).map (·.turns) =
      [[], [.access (commandWrite 0#32)]] := by decide

end Sys2Proof.Tests
end

/-! SUPPORT. The invariant of the block through every step (10_state.md R26, R38 to R40; 20_memory.md R51), the
completion of an accepted command (44_control.md R181) and the defaults of the parameters (00_scope.md R4). -/

namespace Sys2Proof.Machine

/-! ## Decoding and address decoding -/

/-- SOFT_RESET has one command word (30_encoding.md R72). -/
theorem eq_seven_of_decodeWord_softReset {w : Word} (h : decodeWord w = .softReset) : w = 7#32 := by
  unfold decodeWord at h
  (split at h <;> try split at h) <;> cases h
  next hop hrest =>
    have hop' : w.extractLsb' 0 4 = 7#4 := BitVec.eq_of_toNat_eq hop
    have hw : w = (w.extractLsb' 4 28 ++ w.extractLsb' 0 4 : BitVec 32) := by
      ext i hi
      grind
    rw [hw, hrest, hop']
    rfl

/-- The offsets of a region (20_memory.md R51). -/
def Region.Holds (P : Config.Params) (off : Nat) : Region → Prop
  | .regs => off < 0x28
  | .inBuf => 0x10000 ≤ off ∧ off < 0x10000 + P.inBytes
  | .coef c => c < 3 ∧ coefBase c ≤ off ∧ off < coefBase c + 0x2000
  | .pix => 0x30000 ≤ off ∧ off < 0x34000

/-- The region that an offset is decoded to holds it. -/
theorem Region.holds_of_regionOf {P : Config.Params} {off : Nat} {rg : Region} (h : regionOf P off = some rg) :
    rg.Holds P off := by
  unfold regionOf at h
  repeat' split at h
  all_goals cases h
  all_goals simp only [Region.Holds, coefBase]; omega

/-- A mapped region is an interval: an offset between two of a buffer region is a buffer byte (20_memory.md R51). -/
theorem isBufferByte_of_between {P : Config.Params} {a b x : Nat} {rg : Region} (ha : regionOf P a = some rg)
    (hb : regionOf P b = some rg) (hrg : rg ≠ .regs) (hax : a ≤ x) (hxb : x ≤ b) : isBufferByte P x = true := by
  have hfirst := Region.holds_of_regionOf ha
  have hlast := Region.holds_of_regionOf hb
  simp only [isBufferByte, Bool.or_eq_true, decide_eq_true_eq]
  cases rg with
  | regs => exact absurd rfl hrg
  | inBuf | coef _ | pix => simp only [Region.Holds, coefBase] at hfirst hlast; omega

/-- The bytes of a buffer access that address decoding accepts are buffer bytes (40_host_bus.md R90). -/
theorem isBufferByte_of_classify_buffer {P : Config.Params} {s : State} {off n x : Nat} {write : Bool}
    (h : classify P s off n write = .ok .buffer) (hx : off ≤ x ∧ x < off + n) : isBufferByte P x = true := by
  obtain ⟨rg, hfirst, -, -, -, hlast, -, -, htarget⟩ := classify_ok_iff.1 h
  have hrg : rg ≠ .regs := by rintro rfl; cases htarget
  exact isBufferByte_of_between hfirst hlast hrg hx.1 (by omega)

/-- A host access of the schedule is a host read or a host write (40_host_bus.md R91, R92). -/
theorem execWith_decodeAccess (P : Config.Params) (a : BusAccess) (s : State) :
    execWith P (decodeAccess a) s =
      .next (if a.write then hostWriteWith P a.off a.n a.v s else hostReadWith P a.off a.n s) := by
  unfold decodeAccess
  split <;> rfl

/-! ## BUSY and the schedule under a host access -/

/-- A write of IRQ_STAT clears DONE_IP by a 1 (10_state.md R32). -/
theorem writeReg_irqStat (v : Word) (s : State) :
    writeReg .irqStat v s = if v.getLsbD 0 then acknowledge s else s := rfl

@[simp] theorem writeReg_turns (r : Reg) (v : Word) (s : State) : (writeReg r v s).turns = s.turns := by
  cases r with
  | cmd => exact accept_turns v s
  | irqStat => rw [writeReg_irqStat]; split <;> rfl
  | _ => rfl

/-- Only a write of CMD changes BUSY. -/
theorem writeReg_busy {r : Reg} (h : r ≠ .cmd) (v : Word) (s : State) : (writeReg r v s).busy = s.busy := by
  cases r with
  | cmd => exact absurd rfl h
  | irqStat => rw [writeReg_irqStat]; split <;> rfl
  | _ => rfl

@[simp] theorem hostReadWith_turns (P : Config.Params) (off : Offset) (n : Nat) (s : State) :
    (hostReadWith P off n s).turns = s.turns := by
  rcases hostReadWith_cases P off n s with ⟨c, -, h⟩ | ⟨r, -, h⟩ | ⟨-, h⟩ <;> rw [h]
  rfl

@[simp] theorem hostReadWith_busy (P : Config.Params) (off : Offset) (n : Nat) (s : State) :
    (hostReadWith P off n s).busy = s.busy := by
  rcases hostReadWith_cases P off n s with ⟨c, -, h⟩ | ⟨r, -, h⟩ | ⟨-, h⟩ <;> rw [h]
  rfl

@[simp] theorem hostWriteWith_turns (P : Config.Params) (off : Offset) (n : Nat) (v : Word) (s : State) :
    (hostWriteWith P off n v s).turns = s.turns := by
  rcases hostWriteWith_cases P off n v s with ⟨c, -, h⟩ | ⟨r, -, h⟩ | ⟨-, h⟩ <;> rw [h]
  · rfl
  · exact writeReg_turns r v s
  · rfl

/-- No host write ends a command: CMD is closed while BUSY = 1 (20_memory.md R60). -/
theorem hostWriteWith_busy {s : State} (hb : s.busy = true) (P : Config.Params) (off : Offset) (n : Nat) (v : Word) :
    (hostWriteWith P off n v s).busy = true := by
  rcases hostWriteWith_cases P off n v s with ⟨c, -, h⟩ | ⟨r, hr, h⟩ | ⟨-, h⟩ <;> rw [h]
  · exact hb
  · have hcmd : r ≠ .cmd := by
      rintro rfl
      exact absurd (classify_busy hr hb) (by decide)
    exact (writeReg_busy hcmd v s).trans hb
  · exact hb

/-! ## Events that keep the invariant -/

/-- The invariant speaks neither of the schedule, nor of the last response, nor of the draw counter. -/
theorem BlockInv.withOutside {P : Config.Params} {s : State} (h : BlockInv P s) (turns : List Turn)
    (resp : BusResponse) (fresh : Nat) : BlockInv P { s with turns := turns, resp := resp, fresh := fresh } :=
  { h with }

theorem BlockInv.refreshIrq {P : Config.Params} {s : State} (h : BlockInv P s) : BlockInv P (refreshIrq s) :=
  { h with irq := rfl }

/-- SOFT_RESET leaves the memory and gives every other field its reset value (44_control.md R184). -/
theorem BlockInv.softReset {P : Config.Params} {s : State} (h : BlockInv P s) : BlockInv P (softReset s) where
  memory := h.memory
  buffers := h.buffers
  irq := rfl
  engine := rfl
  notSoftReset := nofun
  lastop := nofun
  status := rfl
  errcode := rfl
  temp := by rw [softReset_temp, freeTemp_length]

/-- The state after a hard reset has the invariant, whatever came before (70_reset_and_hazards.md R210). -/
theorem blockInv_hardReset (P : Config.Params) (s : State) : BlockInv P (hardReset s) where
  memory := rfl
  buffers := nofun
  irq := rfl
  engine := rfl
  notSoftReset := nofun
  lastop := nofun
  status := rfl
  errcode := rfl
  temp := by rw [hardReset_temp, freeTemp_length]

/-- Acceptance latches the word, with its LASTOP and a clear status (44_control.md R180). -/
theorem BlockInv.accept {P : Config.Params} {s : State} (h : BlockInv P s) (w : Word) : BlockInv P (accept w s) := by
  by_cases hw : w = 7#32
  · subst hw
    rw [accept_softReset]
    exact h.softReset
  · rw [accept_command w s hw]
    exact { h with
      engine := rfl
      notSoftReset := fun heng => hw (Option.some.inj heng)
      lastop := fun _ heng => Option.some.inj heng ▸ rfl
      status := rfl
      errcode := rfl }

/-- A register write with irq recomputed (40_host_bus.md R92): a write of IRQ_EN or IRQ_STAT alone may leave irq
behind. -/
theorem BlockInv.refreshIrq_writeReg {P : Config.Params} {s : State} (h : BlockInv P s) (r : Reg) (v : Word) :
    BlockInv P (Machine.refreshIrq (writeReg r v s)) := by
  cases r with
  | cmd => exact (h.accept v).refreshIrq
  | irqStat =>
    rw [writeReg_irqStat]
    split
    · exact { h with irq := rfl }
    · exact h.refreshIrq
  | _ => exact { h with irq := rfl }

/-- A buffer write that address decoding accepts stays inside the buffers (20_memory.md R51). -/
theorem BlockInv.writeBuffer {P : Config.Params} {s : State} (h : BlockInv P s) {off : Offset} {n : Nat} {v : Word}
    (hok : classify P s off.toNat n true = .ok .buffer) :
    BlockInv P { s with mem := writeRange s.mem off.toNat (busBytes n v) } :=
  { h with
    memory := wf_writeRange _ _ _ h.memory
    buffers := fun c hc => by
      rcases mem_writeRange hc with hold | hnew
      · exact h.buffers c hold
      · rw [busBytes_length] at hnew
        exact isBufferByte_of_classify_buffer hok hnew }

theorem BlockInv.hostReadWith {P : Config.Params} {s : State} (h : BlockInv P s) (off : Offset) (n : Nat) :
    BlockInv P (hostReadWith P off n s) := by
  rcases hostReadWith_cases P off n s with ⟨c, -, he⟩ | ⟨r, -, he⟩ | ⟨-, he⟩ <;> rw [he] <;>
    exact h.withOutside _ _ _

theorem BlockInv.hostWriteWith {P : Config.Params} {s : State} (h : BlockInv P s) (off : Offset) (n : Nat) (v : Word) :
    BlockInv P (hostWriteWith P off n v s) := by
  rcases hostWriteWith_cases P off n v s with ⟨c, -, he⟩ | ⟨r, -, he⟩ | ⟨hok, he⟩ <;> rw [he]
  · exact h.withOutside _ _ _
  · exact (h.refreshIrq_writeReg r v).withOutside _ _ _
  · exact (h.writeBuffer hok).refreshIrq.withOutside _ _ _

/-! ## Completion -/

/-- Every code of a command error is one of 1 to 5 (60_exceptions.md R191). -/
theorem errorCode_range (e : CmdError) : 1 ≤ (errorCode e).toNat ∧ (errorCode e).toNat ≤ 5 := by
  cases e <;> decide

/-- Completion empties ENG and sets DONE; ERR and ERRCODE stay a legal pair (44_control.md R181). -/
theorem BlockInv.finish {P : Config.Params} {s : State} (h : BlockInv P s) : BlockInv P (finish s) :=
  { h with
    irq := rfl
    engine := rfl
    notSoftReset := nofun
    lastop := nofun
    status := by rw [finish_busy, finish_done]; cases (Machine.finish s).err <;> rfl }

/-- Completion with a command error records its code (60_exceptions.md R193). -/
theorem BlockInv.raiseCmdError {P : Config.Params} {s : State} (h : BlockInv P s) (e : CmdError) :
    BlockInv P (raiseCmdError e s) :=
  { h with
    irq := rfl
    engine := rfl
    notSoftReset := nofun
    lastop := nofun
    status := rfl
    errcode := errorCode_range e }

/-- A command writes its outputs into COEF and PIX and keeps TEMP's size. -/
theorem BlockInv.withOutputs {P : Config.Params} {s : State} (h : BlockInv P s) {o : Outputs} (ho : o.Sound s) :
    BlockInv P (withOutputs o s) :=
  { h with
    memory := ho.wf h.memory
    buffers := fun c hc => by
      rcases ho.cells c hc with hold | hnew
      · exact h.buffers c hold
      · simp only [isBufferByte, Bool.or_eq_true, decide_eq_true_eq]
        omega
    temp := ho.temp.elim (fun hsame => (congrArg List.length hsame).trans h.temp) id }

/-- The latched word of a busy block is a command's, never SOFT_RESET's (10_state.md R39, 44_control.md R180). -/
theorem BlockInv.latched {P : Config.Params} {s : State} (h : BlockInv P s) (hb : s.busy = true) :
    ∃ w, s.eng = some w ∧ decodeWord w ≠ .softReset := by
  obtain ⟨w, hw⟩ := Option.isSome_iff_exists.1 (h.engine.symm.trans hb)
  exact ⟨w, hw, fun hd => h.notSoftReset (eq_seven_of_decodeWord_softReset hd ▸ hw)⟩

/-- The engine's turn of a busy block completes the command: BUSY 0, DONE 1 and the invariant (44_control.md R181). -/
theorem BlockInv.engineStep_completes {P : Config.Params} {s : State} (h : BlockInv P s) (hb : s.busy = true) :
    ∃ t, engineStepBy (execWith P) s = .next t ∧ t.busy = false ∧ t.done = true ∧ BlockInv P t := by
  obtain ⟨w, hw, hcmd⟩ := h.latched hb
  rw [engineStepBy_latched hw]
  rcases command_completes P w s hcmd h.memory with ⟨e, he⟩ | ⟨o, ho, he⟩
  · exact ⟨_, he, rfl, rfl, h.raiseCmdError e⟩
  · exact ⟨_, he, rfl, rfl, (h.withOutputs ho).finish⟩

/-! ## The step -/

theorem stepBy_engine {s : State} {rest : List Turn} (hturns : s.turns = .engine :: rest) (hb : s.busy = true)
    (meaning : Meaning) : stepBy meaning s = engineStepBy meaning { s with turns := rest } := by
  simp [stepBy, hturns, hb]

/-- The end of the schedule stands for the fairness of 00_scope.md R15 (log 2). -/
theorem stepBy_noTurns {s : State} (hturns : s.turns = []) (hb : s.busy = true) (meaning : Meaning) :
    stepBy meaning s = engineStepBy meaning s := by
  simp [stepBy, hturns, hb]

theorem stepBy_access {s : State} {a : BusAccess} {rest : List Turn} (hturns : s.turns = .access a :: rest)
    (meaning : Meaning) : stepBy meaning s = meaning (decodeAccess a) { s with turns := rest } := by
  simp [stepBy, hturns]

theorem stepBy_hardReset {s : State} {rest : List Turn} (hturns : s.turns = .hardReset :: rest) (meaning : Meaning) :
    stepBy meaning s = .next (hardReset { s with turns := rest }) := by
  simp [stepBy, hturns]

/-- A host access of the schedule keeps the invariant, the turns left and a command in flight. -/
theorem BlockInv.access_next {P : Config.Params} {s : State} (h : BlockInv P s) (a : BusAccess) :
    ∃ t, execWith P (decodeAccess a) s = .next t ∧ t.turns = s.turns ∧ (s.busy = true → t.busy = true) ∧
      BlockInv P t := by
  refine ⟨_, execWith_decodeAccess P a s, ?_⟩
  split
  · exact ⟨hostWriteWith_turns .., fun hb => hostWriteWith_busy hb .., h.hostWriteWith ..⟩
  · exact ⟨hostReadWith_turns .., fun hb => (hostReadWith_busy ..).trans hb, h.hostReadWith ..⟩

/-- Every state with the invariant has a next state, and it has the invariant. -/
theorem BlockInv.stepWith_next {P : Config.Params} {s : State} (h : BlockInv P s) :
    ∃ t, stepWith P s = .next t ∧ BlockInv P t := by
  have hrest (rest : List Turn) : BlockInv P { s with turns := rest } := h.withOutside rest _ _
  unfold stepWith
  rcases stepBy_cases (execWith P) s with ⟨-, -, hs⟩ | ⟨-, hb, hs⟩ | ⟨rest, -, -, hs⟩ | ⟨rest, -, hb, hs⟩ |
    ⟨a, rest, -, hs⟩ | ⟨rest, -, hs⟩ <;> rw [hs]
  · exact ⟨s, rfl, h⟩
  · obtain ⟨t, ht, -, -, hinv⟩ := h.engineStep_completes hb
    exact ⟨t, ht, hinv⟩
  · exact ⟨_, rfl, hrest rest⟩
  · obtain ⟨t, ht, -, -, hinv⟩ := (hrest rest).engineStep_completes hb
    exact ⟨t, ht, hinv⟩
  · obtain ⟨t, ht, -, -, hinv⟩ := (hrest rest).access_next a
    exact ⟨t, ht, hinv⟩
  · exact ⟨_, rfl, blockInv_hardReset P _⟩

theorem BlockInv.of_stepWith {P : Config.Params} {s t : State} (h : BlockInv P s) (hs : stepWith P s = .next t) :
    BlockInv P t := by
  obtain ⟨u, hu, hinv⟩ := h.stepWith_next
  rw [hs] at hu
  cases hu
  exact hinv

/-- Settles O12: every step with any parameters keeps the invariant, so `step`, at the defaults, does too. -/
theorem stepKeepsInvariant : Obligations.StepKeepsInvariant := by
  unfold Obligations.StepKeepsInvariant
  refine ⟨fun s t h hs => ?_, fun P s t h hs => h.of_stepWith hs⟩
  rw [step_eq_stepWith] at hs
  exact h.of_stepWith hs

/-! ## Completion of an accepted command -/

/-- What O10 promises of a busy state `s`: within one step more than there are turns, BUSY is 0, and DONE is 1 unless a
hard reset comes before the first engine turn. -/
def CompletesInTime (s : State) : Prop :=
  ∃ k t, k ≤ s.turns.length + 1 ∧ runSteps k s = .next t ∧ t.busy = false ∧
    (Turn.hardReset ∉ s.turns.takeWhile (· ≠ .engine) → t.done = true)

/-- A step that completes the command is enough. -/
theorem completesInTime_of_step {s t : State} (hs : step s = .next t) (hb : t.busy = false)
    (hd : Turn.hardReset ∉ s.turns.takeWhile (· ≠ .engine) → t.done = true) : CompletesInTime s :=
  ⟨1, t, by omega, runSteps_succ_of_next hs, hb, hd⟩

/-- A host access first costs one turn and one step. -/
theorem completesInTime_of_access {s t : State} {a : BusAccess} (hs : step s = .next t)
    (hturns : s.turns = .access a :: t.turns) (ht : CompletesInTime t) : CompletesInTime s := by
  obtain ⟨k, u, hk, hrun, hb, hd⟩ := ht
  refine ⟨k + 1, u, by simpa [hturns] using hk, (runSteps_succ_of_next hs).trans hrun, hb, fun hno => hd ?_⟩
  simpa [hturns] using hno

/-- By induction on the turns left: the engine's turn, or the end of the schedule, completes the command; a host access
leaves it in flight; a hard reset ends it. -/
theorem BlockInv.completesInTime {s : State} (h : BlockInv params s) (hb : s.busy = true) : CompletesInTime s := by
  induction hturns : s.turns generalizing s with
  | nil =>
    obtain ⟨t, ht, hidle, hdone, -⟩ := h.engineStep_completes hb
    have hs : step s = .next t := (step_eq_stepWith s).trans ((stepBy_noTurns hturns hb _).trans ht)
    exact completesInTime_of_step hs hidle fun _ => hdone
  | cons turn rest ih =>
    have hrest : BlockInv params { s with turns := rest } := h.withOutside rest _ _
    cases turn with
    | access a =>
      obtain ⟨t, ht, hleft, hbusy, hinv⟩ := hrest.access_next a
      have hs : step s = .next t := (step_eq_stepWith s).trans ((stepBy_access hturns _).trans ht)
      exact completesInTime_of_access hs (by rw [hturns, hleft]) (ih hinv (hbusy hb) hleft)
    | engine =>
      obtain ⟨t, ht, hidle, hdone, -⟩ := hrest.engineStep_completes hb
      have hs : step s = .next t := (step_eq_stepWith s).trans ((stepBy_engine hturns hb _).trans ht)
      exact completesInTime_of_step hs hidle fun _ => hdone
    | hardReset =>
      exact completesInTime_of_step (stepBy_hardReset hturns exec) rfl fun hno => absurd hno (by simp [hturns])

/-- Settles O10, by induction on the turns left. -/
theorem acceptedCommandCompletes : Obligations.AcceptedCommandCompletes := by
  unfold Obligations.AcceptedCommandCompletes
  exact fun s h hb => h.completesInTime hb

/-! ## The defaults of the parameters -/

/-- Settles O60: the values are the record `params` itself; the meanings agree operation by operation. -/
theorem machineRunsTheDefaultParameters : Obligations.MachineRunsTheDefaultParameters := by
  unfold Obligations.MachineRunsTheDefaultParameters
  exact ⟨rfl, rfl, rfl, rfl, rfl, rfl, exec_eq_execWith, step_eq_stepWith⟩

end Sys2Proof.Machine

/-! SUPPORT. The state observed from outside (10_state.md): the registers a host reads, the result registers, and TEMP,
which no operation lets the host observe. -/

namespace Sys2Proof.Machine

/-! ## Register accesses -/

/-- An aligned 32-bit access to a register is accepted when BUSY and the access kind leave the register open
(40_host_bus.md R90, 20_memory.md R60). -/
theorem classify_register {P : Config.Params} {s : State} {off : Nat} {write : Bool} (hoff : off < 0x28)
    (halign : off % 4 = 0) (hopen : s.busy = false ∨ accessibleWhileBusy (.reg (regAt off)) = true)
    (hwritable : write = true → isReadOnly (.reg (regAt off)) = false) :
    classify P s off 4 write = .ok (.reg (regAt off)) := by
  have hlast : off + 4 - 1 < 0x28 := by omega
  refine classify_ok_iff.2 ⟨.regs, if_pos hoff, by omega, by omega, halign, if_pos hlast, ?_, ?_, rfl⟩
  · rintro ⟨hbusy, hclosed⟩
    rcases hopen with hidle | hopen
    · exact absurd (hbusy.symm.trans hidle) (by decide)
    · exact absurd (hopen.symm.trans hclosed) (by decide)
  · rintro ⟨hwrite, hreadOnly⟩
    exact absurd (hreadOnly.symm.trans (hwritable hwrite)) (by decide)

/-- A host read of an open register returns its word and changes nothing else (40_host_bus.md R91). -/
theorem hostReadWith_register {P : Config.Params} {s : State} {off : Offset} (hoff : off.toNat < 0x28)
    (halign : off.toNat % 4 = 0) (hopen : s.busy = false ∨ accessibleWhileBusy (.reg (regAt off.toNat)) = true) :
    hostReadWith P off 4 s = { s with resp := .data (readReg s (regAt off.toNat)) } := by
  rw [hostReadWith, classify_register (write := false) hoff halign hopen nofun]

theorem exec_hostRead_register {s : State} {off : Offset} (hoff : off.toNat < 0x28) (halign : off.toNat % 4 = 0)
    (hopen : s.busy = false ∨ accessibleWhileBusy (.reg (regAt off.toNat)) = true) :
    exec (.hostRead off 4) s = .next { s with resp := .data (readReg s (regAt off.toNat)) } :=
  congrArg Host.Outcome.next (hostReadWith_register hoff halign hopen)

/-- An access that address decoding takes to CMD is at offset 0x004 (10_state.md R23). -/
theorem eq_four_of_classify_cmd {P : Config.Params} {s : State} {off : Offset} {n : Nat} {write : Bool}
    (h : classify P s off.toNat n write = .ok (.reg .cmd)) : off = 0x004#18 := by
  obtain ⟨rg, -, -, -, -, -, -, -, htarget⟩ := classify_ok_iff.1 h
  cases rg with
  | regs =>
    have hreg : regAt off.toNat = .cmd := (Target.reg.inj htarget).symm
    unfold regAt at hreg
    split at hreg <;> cases hreg
    next hfour => exact BitVec.eq_of_toNat_eq hfour
  | inBuf | coef _ | pix => cases htarget

/-- The offsets of the ten registers (10_state.md R23). -/
def registerOffsets : List Offset :=
  [0x000#18, 0x004#18, 0x008#18, 0x00C#18, 0x010#18, 0x014#18, 0x018#18, 0x01C#18, 0x020#18, 0x024#18]

theorem registerOffsets_aligned : ∀ off ∈ registerOffsets, off.toNat < 0x28 ∧ off.toNat % 4 = 0 := by
  simp [registerOffsets]

/-- A host that reads the ten registers of an idle block gets their words (40_host_bus.md R91). -/
theorem registerOffsets_read {P : Config.Params} {s : State} (hidle : s.busy = false) :
    registerOffsets.map (fun off => (hostReadWith P off 4 s).resp) =
      registerOffsets.map fun off => .data (readReg s (regAt off.toNat)) :=
  List.map_congr_left fun off hmem => by
    obtain ⟨hoff, halign⟩ := registerOffsets_aligned off hmem
    rw [hostReadWith_register hoff halign (.inl hidle)]

/-- Settles O20: the reads are the words of the reset registers, and reset lists no byte. -/
theorem registersAfterReset : Obligations.RegistersAfterReset := by
  unfold Obligations.RegistersAfterReset
  exact ⟨(registerOffsets_read (s := State.reset) rfl).trans rfl, fun _ => rfl⟩

/-- Settles O49: ID, STATUS, IRQ_EN and IRQ_STAT are open in every state, the other six while the block is idle. -/
theorem hostReadOfRegisters : Obligations.HostReadOfRegisters := by
  unfold Obligations.HostReadOfRegisters
  intro s
  refine ⟨?always, fun hidle => ?idle⟩
  case always =>
    refine ⟨?_, ?_, ?_, ?_⟩ <;> exact exec_hostRead_register (by decide) (by decide) (.inr rfl)
  case idle =>
    refine ⟨?_, ?_, ?_, ?_, ?_, ?_⟩ <;> exact exec_hostRead_register (by decide) (by decide) (.inl hidle)

/-! ## The result registers -/

/-- The fields of RLGR_BITS, RLGR_EMIT and RLGR_KSTATE (10_state.md R28 to R30). -/
def resultRegs (s : State) : BitVec 20 × BitVec 13 × BitVec 4 × BitVec 4 :=
  (s.rlgrBits, s.rlgrEmit, s.rlgrKr, s.rlgrKgr)

theorem resultRegs_eq_iff {s t : State} :
    resultRegs t = resultRegs s ↔
      t.rlgrBits = s.rlgrBits ∧ t.rlgrEmit = s.rlgrEmit ∧ t.rlgrKr = s.rlgrKr ∧ t.rlgrKgr = s.rlgrKgr := by
  simp only [resultRegs, Prod.mk.injEq]

@[simp] theorem resultRegs_finish (s : State) : resultRegs (finish s) = resultRegs s := rfl
@[simp] theorem resultRegs_raiseCmdError (e : CmdError) (s : State) :
    resultRegs (raiseCmdError e s) = resultRegs s := rfl
@[simp] theorem resultRegs_dwtEffect (f : List Int → List Int) (c : Nat) (s : State) :
    resultRegs (dwtEffect f c s) = resultRegs s := rfl
@[simp] theorem resultRegs_colorEffect (fn : Int → Int → Int → Config.Pixel) (s : State) :
    resultRegs (colorEffect fn s) = resultRegs s := rfl
@[simp] theorem resultRegs_clearEffect (c : Nat) (s : State) : resultRegs (clearEffect c s) = resultRegs s := rfl

/-- Acceptance of a command word keeps the result registers (44_control.md R180). -/
theorem resultRegs_accept {w : Word} (h : w ≠ 7#32) (s : State) : resultRegs (accept w s) = resultRegs s := by
  rw [accept_command w s h]
  rfl

/-- No register write but SOFT_RESET's into CMD reaches the result registers: they are read-only (10_state.md R28 to
R30). -/
theorem resultRegs_writeReg {r : Reg} {v : Word} (h : ¬ (r = .cmd ∧ v = 7#32)) (s : State) :
    resultRegs (writeReg r v s) = resultRegs s := by
  cases r with
  | cmd => exact resultRegs_accept (fun hv => h ⟨rfl, hv⟩) s
  | irqStat => rw [writeReg_irqStat]; split <;> rfl
  | _ => rfl

@[simp] theorem resultRegs_hostReadWith (P : Config.Params) (off : Offset) (n : Nat) (s : State) :
    resultRegs (hostReadWith P off n s) = resultRegs s := by
  rcases hostReadWith_cases P off n s with ⟨c, -, h⟩ | ⟨r, -, h⟩ | ⟨-, h⟩ <;> rw [h] <;> rfl

/-- A host write keeps the result registers, unless it writes SOFT_RESET's word to CMD. -/
theorem resultRegs_hostWriteWith {off : Offset} {v : Word} (h : ¬ (off = 0x004#18 ∧ v = 7#32)) (P : Config.Params)
    (n : Nat) (s : State) : resultRegs (hostWriteWith P off n v s) = resultRegs s := by
  rcases hostWriteWith_cases P off n v s with ⟨c, -, he⟩ | ⟨r, hr, he⟩ | ⟨-, he⟩ <;> rw [he]
  · rfl
  · exact resultRegs_writeReg (fun ⟨hcmd, hv⟩ => h ⟨eq_four_of_classify_cmd (hcmd ▸ hr), hv⟩) s
  · rfl

/-- A checked command whose effect keeps the result registers keeps them. -/
theorem resultRegs_runChecked {α : Type} {operands : Except CmdError α} {run : α → State → State} {s t : State}
    (hrun : ∀ x, operands = .ok x → resultRegs (run x s) = resultRegs s) (h : runChecked operands run s = .next t) :
    resultRegs t = resultRegs s := by
  rcases runChecked_cases operands run s with ⟨e, -, he⟩ | ⟨x, hx, he⟩ <;> cases he.symm.trans h
  · exact resultRegs_raiseCmdError e s
  · exact (resultRegs_finish _).trans (hrun x hx)

/-- The operands of RLGR_DECODE are legal exactly when the three checks of 41_rlgr.md R101 pass. -/
theorem rlgrOperands_ok_iff {P : Config.Params} {ch : BitVec 2} {count : BitVec 13} {s : State}
    {x : Nat × Nat × Nat} :
    rlgrOperands P ch count s = .ok x ↔
      (ch ≠ 3#2 ∧ count.toNat ≤ 4096 ∧ s.inLen.toNat ≤ P.inBytes) ∧
        x = (ch.toNat, count.toNat, s.inLen.toNat) := by
  unfold rlgrOperands
  by_cases hch : ch = 3#2
  · simp [hch, bind, Except.bind]
  by_cases hcount : 4096 < count.toNat
  · simp [channelOf_legal hch, countOf_bad hcount, Nat.not_le.2 hcount, bind, Except.bind]
  have hcount := Nat.not_lt.1 hcount
  by_cases hlen : P.inBytes < s.inLen.toNat
  · simp [channelOf_legal hch, countOf_legal hcount, inputLength_bad hlen, Nat.not_le.2 hlen, bind, Except.bind]
  have hlen := Nat.not_lt.1 hlen
  simp [channelOf_legal hch, countOf_legal hcount, inputLength_legal hlen, hch, hcount, hlen, bind, Except.bind, pure,
    Except.pure, eq_comm]

/-- The operations that may write the result registers: RLGR_DECODE with legal operands (41_rlgr.md R114), and a soft
reset, as the command or as the write of its word to CMD (44_control.md R184). -/
def MayWriteResults (P : Config.Params) (i : Instr) (s : State) : Prop :=
  (∃ ch count, i = .rlgrDecode ch count ∧ ch ≠ 3#2 ∧ count.toNat ≤ 4096 ∧ s.inLen.toNat ≤ P.inBytes) ∨
    i = .softReset ∨ ∃ n, i = .hostWrite 0x004#18 n 7#32

/-- Every other operation keeps the result registers. -/
theorem resultRegs_execWith {P : Config.Params} {i : Instr} {s t : State} (h : execWith P i s = .next t)
    (hi : ¬ MayWriteResults P i s) : resultRegs t = resultRegs s := by
  cases i with
  | nop => cases h; rfl
  | rlgrDecode ch count =>
    exact resultRegs_runChecked
      (fun x hx => absurd (.inl ⟨ch, count, rfl, (rlgrOperands_ok_iff.1 hx).1⟩) hi) h
  | dwtInvNx ch => exact resultRegs_runChecked (fun c _ => resultRegs_dwtEffect _ c s) h
  | dwtInvX ch => exact resultRegs_runChecked (fun c _ => resultRegs_dwtEffect _ c s) h
  | ycbcr2rgb => cases h; rfl
  | ycocg2rgb cll => exact resultRegs_runChecked (fun _ _ => resultRegs_colorEffect _ s) h
  | clear ch => exact resultRegs_runChecked (fun c _ => resultRegs_clearEffect c s) h
  | softReset => exact absurd (.inr (.inl rfl)) hi
  | illegal w => cases h; rfl
  | hostRead off n => cases h; exact resultRegs_hostReadWith P off n s
  | hostWrite off n v =>
    cases h
    exact resultRegs_hostWriteWith (fun ⟨hoff, hv⟩ => hi (.inr (.inr ⟨n, by rw [hoff, hv]⟩))) P n s

/-- Settles O57: an operation that changes a result register is one that may write them. -/
theorem resultRegistersWrittenOnlyByRlgr : Obligations.ResultRegistersWrittenOnlyByRlgr := by
  unfold Obligations.ResultRegistersWrittenOnlyByRlgr
  intro i s t h hchanged
  rw [exec_eq_execWith] at h
  by_contra hi
  obtain ⟨hbits, hemit, hkr, hkgr⟩ := resultRegs_eq_iff.1 (resultRegs_execWith h hi)
  exact hchanged.elim (· hbits) (·.elim (· hemit) (·.elim (· hkr) (· hkgr)))

/-! ## TEMP -/

/-- `s` with the contents `T` of TEMP (10_state.md R38). -/
def withTemp (T : List Half) (s : State) : State := { s with temp := T }

@[simp] theorem withTemp_mem (T : List Half) (s : State) : (withTemp T s).mem = s.mem := rfl

/-- The effect `f` does not depend on TEMP, but for TEMP itself. -/
def IgnoresTemp (f : State → State) : Prop :=
  ∀ (s : State) (T : List Half), ∃ T', f (withTemp T s) = withTemp T' (f s)

theorem IgnoresTemp.comp {g f : State → State} (hg : IgnoresTemp g) (hf : IgnoresTemp f) :
    IgnoresTemp fun s => g (f s) := fun s T => by
  obtain ⟨T', hT'⟩ := hf s T
  obtain ⟨T'', hT''⟩ := hg (f s) T'
  exact ⟨T'', (congrArg g hT').trans hT''⟩

theorem finish_ignoresTemp : IgnoresTemp finish := fun _ T => ⟨T, rfl⟩

theorem refreshIrq_ignoresTemp : IgnoresTemp refreshIrq := fun _ T => ⟨T, rfl⟩

theorem raiseCmdError_ignoresTemp (e : CmdError) : IgnoresTemp (raiseCmdError e) := fun _ T => ⟨T, rfl⟩

/-- A soft reset draws TEMP anew, from the stream and the draw number and not from the old TEMP (10_state.md R38,
log 8). -/
theorem softReset_ignoresTemp : IgnoresTemp softReset :=
  fun s _ => ⟨freeTemp s.stream s.fresh, by simp only [softReset, withTemp]⟩

theorem dwtEffect_ignoresTemp (f : List Int → List Int) (c : Nat) : IgnoresTemp (dwtEffect f c) :=
  fun s _ => ⟨freeTemp s.stream s.fresh, by simp only [dwtEffect, withTemp]⟩

theorem colorEffect_ignoresTemp (fn : Int → Int → Int → Config.Pixel) : IgnoresTemp (colorEffect fn) :=
  fun _ T => ⟨T, rfl⟩

theorem clearEffect_ignoresTemp (c : Nat) : IgnoresTemp (clearEffect c) := fun _ T => ⟨T, rfl⟩

/-- RLGR_DECODE reads IN and KINIT alone, whether the input is poisoned or not (41_rlgr.md R102). -/
theorem rlgrEffect_ignoresTemp (x : Nat × Nat × Nat) : IgnoresTemp (rlgrEffect x) := fun s T => by
  obtain ⟨c, n, len⟩ := x
  refine ⟨T, ?_⟩
  simp only [rlgrEffect, withTemp_mem]
  cases loadIn s.mem len <;> rfl

theorem accept_ignoresTemp (w : Word) : IgnoresTemp (accept w) := fun s T => by
  by_cases hw : w = 7#32
  · rw [hw, accept_softReset, accept_softReset]
    exact softReset_ignoresTemp s T
  · rw [accept_command w _ hw, accept_command w _ hw]
    exact ⟨T, rfl⟩

theorem writeReg_ignoresTemp (r : Reg) (v : Word) : IgnoresTemp (writeReg r v) := fun s T => by
  cases r with
  | cmd => exact accept_ignoresTemp v s T
  | irqStat => rw [writeReg_irqStat, writeReg_irqStat]; split <;> exact ⟨T, rfl⟩
  | _ => exact ⟨T, rfl⟩

/-- Setting `resp` commutes with what an effect does to TEMP. -/
theorem IgnoresTemp.withResp {f : State → State} (hf : IgnoresTemp f) (resp : BusResponse) :
    IgnoresTemp fun s => { f s with resp := resp } := fun s T => by
  obtain ⟨T', hT'⟩ := hf s T
  exact ⟨T', congrArg (fun u : State => { u with resp := resp }) hT'⟩

@[simp] theorem classify_withTemp (P : Config.Params) (T : List Half) (s : State) (off n : Nat) (write : Bool) :
    classify P (withTemp T s) off n write = classify P s off n write := rfl

/-- No register holds TEMP (10_state.md R23). -/
@[simp] theorem readReg_withTemp (T : List Half) (s : State) (r : Reg) : readReg (withTemp T s) r = readReg s r := by
  cases r <;> rfl

/-- Neither the registers nor the buffers that a host read returns hold TEMP (10_state.md R38). -/
theorem hostReadWith_ignoresTemp (P : Config.Params) (off : Offset) (n : Nat) : IgnoresTemp (hostReadWith P off n) :=
  fun s T => by
    refine ⟨T, ?_⟩
    unfold hostReadWith
    rw [classify_withTemp]
    cases classify P s off.toNat n false with
    | error c => rfl
    | ok target =>
      cases target with
      | reg r => simp only [readReg_withTemp]; rfl
      | buffer => rfl

theorem hostWriteWith_ignoresTemp (P : Config.Params) (off : Offset) (n : Nat) (v : Word) :
    IgnoresTemp (hostWriteWith P off n v) := fun s T => by
  unfold hostWriteWith
  rw [classify_withTemp]
  cases classify P s off.toNat n true with
  | error c => exact ⟨T, rfl⟩
  | ok target =>
    cases target with
    | reg r => exact ((refreshIrq_ignoresTemp.comp (writeReg_ignoresTemp r v)).withResp .done) s T
    | buffer => exact ⟨T, rfl⟩

/-- The outcome of a meaning does not depend on TEMP, but for TEMP itself. -/
def OutcomeIgnoresTemp (meaning : State → Host.Outcome State Fault Refusal) : Prop :=
  ∀ (s : State) (T : List Half), ∃ t T', meaning s = .next t ∧ meaning (withTemp T s) = .next (withTemp T' t)

theorem IgnoresTemp.outcome {f : State → State} (hf : IgnoresTemp f) : OutcomeIgnoresTemp fun s => .next (f s) :=
  fun s T => by
    obtain ⟨T', hT'⟩ := hf s T
    exact ⟨f s, T', rfl, congrArg Host.Outcome.next hT'⟩

/-- A checked command does not depend on TEMP where its effect does not and its operand checks do not. -/
theorem runChecked_ignoresTemp {α : Type} {operands : State → Except CmdError α} {run : α → State → State}
    (hrun : ∀ x, IgnoresTemp (run x)) (hoperands : ∀ s T, operands (withTemp T s) = operands s) :
    OutcomeIgnoresTemp fun s => runChecked (operands s) run s := fun s T => by
  simp only [hoperands]
  cases operands s with
  | error e => exact (raiseCmdError_ignoresTemp e).outcome s T
  | ok x => exact (finish_ignoresTemp.comp (hrun x)).outcome s T

/-- No operation, with any parameters, lets TEMP into its outcome (10_state.md R38). -/
theorem execWith_ignoresTemp (P : Config.Params) (i : Instr) : OutcomeIgnoresTemp (execWith P i) := by
  cases i with
  | nop => exact finish_ignoresTemp.outcome
  | rlgrDecode ch count => exact runChecked_ignoresTemp rlgrEffect_ignoresTemp fun _ _ => rfl
  | dwtInvNx ch => exact runChecked_ignoresTemp (dwtEffect_ignoresTemp _) fun _ _ => rfl
  | dwtInvX ch => exact runChecked_ignoresTemp (dwtEffect_ignoresTemp _) fun _ _ => rfl
  | ycbcr2rgb => exact (finish_ignoresTemp.comp (colorEffect_ignoresTemp _)).outcome
  | ycocg2rgb cll => exact runChecked_ignoresTemp (fun _ => colorEffect_ignoresTemp _) fun _ _ => rfl
  | clear ch => exact runChecked_ignoresTemp clearEffect_ignoresTemp fun _ _ => rfl
  | softReset => exact softReset_ignoresTemp.outcome
  | illegal w => exact (raiseCmdError_ignoresTemp .illegalCmd).outcome
  | hostRead off n => exact (hostReadWith_ignoresTemp P off n).outcome
  | hostWrite off n v => exact (hostWriteWith_ignoresTemp P off n v).outcome

/-- Settles O40: every operation's two outcomes differ in TEMP alone, so giving the second the TEMP of the first makes
them equal. -/
theorem tempIsNotObservable : Obligations.TempIsNotObservable := by
  unfold Obligations.TempIsNotObservable
  intro i s T
  obtain ⟨t, T', ht, hu⟩ := execWith_ignoresTemp params i s T
  simp only [exec_eq_execWith]
  exact ⟨t, withTemp T' t, ht, hu, rfl⟩

end Sys2Proof.Machine

/-! SUPPORT. The buffers and the address window seen by a host: what a busy block keeps (20_memory.md R60, R61), which
word a 32-bit read of COEF or PIX returns (R53, R54), and which window an address lies in (R50). -/

namespace Sys2Proof.Machine

/-! ## A host access to a busy block -/

/-- `t` is `s` but for what the host may change while BUSY = 1: IRQ_EN, IRQ_STAT, irq, the response and the draw counter
(20_memory.md R60). -/
def SameButHostFields (s t : State) : Prop :=
  t = { s with resp := t.resp, fresh := t.fresh, doneIe := t.doneIe, doneIp := t.doneIp, irq := t.irq }

/-- A host read changes the response and the draw counter alone, also of an idle block (20_memory.md R58). -/
theorem hostReadWith_sameButHostFields (P : Config.Params) (off : Offset) (n : Nat) (s : State) :
    SameButHostFields s (hostReadWith P off n s) := by
  rcases hostReadWith_cases P off n s with ⟨c, -, h⟩ | ⟨r, -, h⟩ | ⟨-, h⟩ <;> rw [h] <;> rfl

/-- A write of a register that is open while BUSY = 1 reaches IRQ_EN or IRQ_STAT at most (20_memory.md R60). -/
theorem writeReg_sameButHostFields {r : Reg} (hopen : accessibleWhileBusy (.reg r) = true) (v : Word) (s : State) :
    SameButHostFields s (writeReg r v s) := by
  cases r with
  | irqStat => rw [writeReg_irqStat]; split <;> rfl
  | id | status | irqEn => rfl
  | cmd | inLen | rlgrBits | rlgrEmit | rlgrKstate | kinit => cases hopen

/-- What the end of a host write recomputes or records is the host's (40_host_bus.md R92). -/
theorem SameButHostFields.answered {s t : State} (h : SameButHostFields s t) (resp : BusResponse) :
    SameButHostFields s { refreshIrq t with resp := resp } := by
  unfold SameButHostFields at h ⊢
  exact congrArg (fun u : State => { refreshIrq u with resp := resp }) h

/-- Address decoding closes the buffers and every other register while BUSY = 1, so a host write of a busy block reaches
IRQ_EN or IRQ_STAT at most (20_memory.md R60). -/
theorem hostWriteWith_sameButHostFields {s : State} (hb : s.busy = true) (P : Config.Params) (off : Offset) (n : Nat)
    (v : Word) : SameButHostFields s (hostWriteWith P off n v s) := by
  rcases hostWriteWith_cases P off n v s with ⟨c, -, h⟩ | ⟨r, hr, h⟩ | ⟨hbuffer, -⟩
  · rw [h]; rfl
  · rw [h]
    exact (writeReg_sameButHostFields (classify_busy hr hb) v s).answered .done
  · exact absurd (classify_busy hbuffer hb) (by decide)

/-- Settles O15: the step is a read, which changes no register at all, or a write, which reaches IRQ_EN or IRQ_STAT at
most. -/
theorem busyBlockIsUndisturbed : Obligations.BusyBlockIsUndisturbed := by
  unfold Obligations.BusyBlockIsUndisturbed
  intro s t a rest hb hturns hs
  rw [step_eq_stepWith, stepWith, stepBy_access hturns, execWith_decodeAccess] at hs
  cases hs
  split
  · exact hostWriteWith_sameButHostFields (s := { s with turns := rest }) hb params a.off a.n a.v
  · exact hostReadWith_sameButHostFields params a.off a.n { s with turns := rest }

/-! ## Accepted accesses to the buffers -/

/-- Every region begins and ends at a multiple of 4, so the four bytes of a word lie in one region or are all unmapped
(20_memory.md R51). -/
theorem regionOf_congr_word {P : Config.Params} (hP : P.inBytes % 4 = 0) {a b : Nat} (hab : a / 4 = b / 4) :
    regionOf P a = regionOf P b := by
  have hlt (k : Nat) (hk : k % 4 = 0) : a < k ↔ b < k := by omega
  have hle (k : Nat) (hk : k % 4 = 0) : k ≤ a ↔ k ≤ b := by omega
  simp only [regionOf, hlt 0x28 rfl, hlt (0x10000 + P.inBytes) (by omega), hlt 0x22000 rfl, hlt 0x24000 rfl,
    hlt 0x26000 rfl, hlt 0x34000 rfl, hle 0x10000 rfl, hle 0x20000 rfl, hle 0x22000 rfl, hle 0x24000 rfl,
    hle 0x30000 rfl]

/-- A buffer byte lies in a region other than the registers (20_memory.md R51). -/
theorem regionOf_of_isBufferByte {P : Config.Params} {a : Nat} (h : isBufferByte P a = true) :
    ∃ rg, regionOf P a = some rg ∧ 0x10000 ≤ a ∧ targetOf rg a = .buffer := by
  simp only [isBufferByte, Bool.or_eq_true, decide_eq_true_eq] at h
  have hbuffer : 0x10000 ≤ a := by omega
  cases hrg : regionOf P a with
  | none =>
    unfold regionOf at hrg
    repeat' split at hrg
    all_goals cases hrg
    omega
  | some rg =>
    refine ⟨rg, rfl, hbuffer, ?_⟩
    cases rg with
    | regs => have : a < 0x28 := Region.holds_of_regionOf hrg; omega
    | inBuf | coef _ | pix => rfl

/-- An aligned access to 1, 2 or 4 bytes of a buffer of an idle block is accepted (40_host_bus.md R90). -/
theorem classify_buffer {P : Config.Params} {s : State} {off n : Nat} (hP : P.inBytes % 4 = 0) (hidle : s.busy = false)
    (hn : n = 1 ∨ n = 2 ∨ n = 4) (halign : off % n = 0) (hbuffer : isBufferByte P off = true) (write : Bool) :
    classify P s off n write = .ok .buffer := by
  obtain ⟨rg, hrg, hoff, htarget⟩ := regionOf_of_isBufferByte hbuffer
  have hword : (off + n - 1) / 4 = off / 4 := by rcases hn with rfl | rfl | rfl <;> omega
  refine classify_ok_iff.2 ⟨rg, hrg, by omega, hn, halign, (regionOf_congr_word hP hword).trans hrg, ?_, ?_,
    htarget.symm⟩
  · simp [hidle]
  · simp [htarget, isReadOnly]

/-- A host read of buffer bytes returns what it observes of them and draws a number for each (40_host_bus.md R91). -/
theorem hostReadWith_buffer {P : Config.Params} {s : State} {off : Offset} {n : Nat} (hP : P.inBytes % 4 = 0)
    (hidle : s.busy = false) (hn : n = 1 ∨ n = 2 ∨ n = 4) (halign : off.toNat % n = 0)
    (hbuffer : isBufferByte P off.toNat = true) :
    hostReadWith P off n s =
      { s with
        resp := .data (busWord (observeBytes s.mem s.stream off.toNat s.fresh n)), fresh := s.fresh + n } := by
  rw [hostReadWith, classify_buffer hP hidle hn halign hbuffer]

/-! ## 32-bit reads of elements and pixels -/

/-- The bus word of four bytes is the four, the first one lowest (20_memory.md R52). -/
theorem busWord_four (b0 b1 b2 b3 : Byte) : busWord [b0, b1, b2, b3] = b3 ++ b2 ++ b1 ++ b0 := by
  ext i hi
  simp only [busWord]
  grind

/-- A 32-bit read of an aligned word of a buffer with four defined bytes returns them, low byte first
(40_host_bus.md R91, 20_memory.md R52). -/
theorem exec_hostRead_word {s : State} {a : Nat} {b0 b1 b2 b3 : Byte} (hidle : s.busy = false) (ha : a < 0x40000)
    (halign : a % 4 = 0) (hbuffer : isBufferByte params a = true) (h0 : readByte s.mem a = some b0)
    (h1 : readByte s.mem (a + 1) = some b1) (h2 : readByte s.mem (a + 2) = some b2)
    (h3 : readByte s.mem (a + 3) = some b3) :
    exec (.hostRead (BitVec.ofNat 18 a) 4) s =
      .next { s with resp := .data (b3 ++ b2 ++ b1 ++ b0), fresh := s.fresh + 4 } := by
  have hoff : (BitVec.ofNat 18 a).toNat = a := by rw [BitVec.toNat_ofNat, Nat.mod_eq_of_lt ha]
  have hbytes : observeBytes s.mem s.stream a s.fresh 4 = [b0, b1, b2, b3] := by
    simp [observeBytes, observeByte, h0, h1, h2, h3]
  refine congrArg Host.Outcome.next ((hostReadWith_buffer rfl hidle (by omega) ?_ ?_).trans ?_)
  · rwa [hoff]
  · rwa [hoff]
  · rw [hoff, hbytes, busWord_four]

/-- A defined element is its two bytes, the low one first (20_memory.md R53). -/
theorem coefAt_eq_some_iff {m : List Host.Cell} {c i : Nat} {x : Int} :
    coefAt m c i = some x ↔
      ∃ lo hi, readByte m (coefBase c + 2 * i) = some lo ∧ readByte m (coefBase c + 2 * i + 1) = some hi ∧
        elementOf lo hi = x := by
  unfold coefAt
  cases readByte m (coefBase c + 2 * i) <;> cases readByte m (coefBase c + 2 * i + 1) <;> simp

/-- A defined pixel is its four bytes R, G, B, A (20_memory.md R54). -/
theorem pixAt_eq_some {m : List Host.Cell} {i : Nat} {p : Config.Pixel} (h : pixAt m i = some p) :
    readByte m (pixBase + 4 * i) = some p.r ∧ readByte m (pixBase + 4 * i + 1) = some p.g ∧
      readByte m (pixBase + 4 * i + 2) = some p.b ∧ readByte m (pixBase + 4 * i + 3) = some p.a := by
  unfold pixAt at h
  split at h
  next hr hg hb ha => cases h; exact ⟨hr, hg, hb, ha⟩
  next => cases h

/-- The 16 bits of an element are its bytes again: sext_16 loses nothing (20_memory.md R53). -/
theorem ofInt_elementOf (lo hi : Byte) : BitVec.ofInt 16 (elementOf lo hi) = hi ++ lo := BitVec.ofInt_toInt

/-- Settles O51: the word read is the four bytes of the two elements, or of the pixel. -/
theorem hostReadOfElementsAndPixels : Obligations.HostReadOfElementsAndPixels := by
  unfold Obligations.HostReadOfElementsAndPixels
  refine ⟨fun s c j x y hidle hc hj hx hy => ?elements, fun s i p hidle hi hp => ?pixel⟩
  case elements =>
    obtain ⟨lo0, hi0, hlo0, hhi0, rfl⟩ := coefAt_eq_some_iff.1 hx
    obtain ⟨lo1, hi1, hlo1, hhi1, rfl⟩ := coefAt_eq_some_iff.1 hy
    refine ⟨s.fresh + 4, ?_⟩
    have hfirst : coefBase c + 2 * (2 * j) = 0x20000 + 0x2000 * c + 4 * j := by unfold coefBase; omega
    have hsecond : coefBase c + 2 * (2 * j + 1) = 0x20000 + 0x2000 * c + 4 * j + 2 := by unfold coefBase; omega
    have hbuffer : isBufferByte params (0x20000 + 0x2000 * c + 4 * j) = true := by
      simp only [isBufferByte, Bool.or_eq_true, decide_eq_true_eq]; omega
    rw [hfirst] at hlo0 hhi0
    rw [hsecond] at hlo1 hhi1
    rw [ofInt_elementOf, ofInt_elementOf, exec_hostRead_word hidle (by omega) (by omega) hbuffer hlo0 hhi0 hlo1 hhi1,
      BitVec.append_assoc]
    rfl
  case pixel =>
    obtain ⟨hr, hg, hb, ha⟩ := pixAt_eq_some hp
    have hbuffer : isBufferByte params (0x30000 + 4 * i) = true := by
      simp only [isBufferByte, Bool.or_eq_true, decide_eq_true_eq]; omega
    exact ⟨s.fresh + 4, exec_hostRead_word hidle (by omega) (by omega) hbuffer hr hg hb ha⟩

/-! ## The window of an address -/

/-- The host address of an offset in window `k`: INST_BASE[k] is aligned to the window, so nothing
carries into its upper bits (20_memory.md R50). -/
theorem instBase_add_offset (P : Config.Params) (k : Nat) (off : Offset) :
    P.instBase k + off.setWidth 32 = P.instIndex k ++ off := by
  rw [BitVec.setWidth_eq_append (by decide)]
  exact BitVec.append_zero_add_zero_append

/-- An address whose upper 14 bits are those of INST_BASE[k] lies in window `k` (20_memory.md R50). -/
theorem instBase_window {P : Config.Params} {k : Nat} {addr : Word} (h : P.instIndex k = addr.extractLsb' 18 14) :
    (P.instBase k).toNat ≤ addr.toNat ∧ addr.toNat < (P.instBase k).toNat + 0x40000 := by
  have hindex := congrArg BitVec.toNat h
  have haddr := addr.isLt
  simp only [BitVec.extractLsb'_toNat, Nat.shiftRight_eq_div_pow] at hindex
  simp only [Config.Params.instBase, BitVec.toNat_append, BitVec.toNat_ofNat, Nat.zero_mod, Nat.or_zero,
    Nat.shiftLeft_eq]
  omega

/-- The first base that has the upper bits of an address is selected, at the lower bits (20_memory.md R50). -/
theorem selectInstance_eq_some_of {P : Config.Params} {k : Nat} {addr : Word} (hk : k < P.nInst)
    (hindex : P.instIndex k = addr.extractLsb' 18 14) (hfirst : ∀ j < k, P.instIndex j ≠ P.instIndex k) :
    selectInstance P addr = some (k, addr.extractLsb' 0 18) := by
  have hfind : (List.range P.nInst).find? (fun k => P.instIndex k == addr.extractLsb' 18 14) = some k :=
    List.find?_range_eq_some.2
      ⟨beq_iff_eq.2 hindex, List.mem_range.2 hk, fun j hj => by simpa [← hindex] using hfirst j hj⟩
  rw [selectInstance, hfind]
  rfl

/-- An address is no access exactly when no base has its upper bits (20_memory.md R50). -/
theorem selectInstance_eq_none_iff {P : Config.Params} {addr : Word} :
    selectInstance P addr = none ↔ ∀ k < P.nInst, P.instIndex k ≠ addr.extractLsb' 18 14 := by
  simp [selectInstance]

/-- Settles O59: an address in window `k` is the 14 bits of its base over the offset, so the upper bits decide. -/
theorem addressSelectsInstanceAndOffset : Obligations.AddressSelectsInstanceAndOffset := by
  unfold Obligations.AddressSelectsInstanceAndOffset
  refine fun P => ⟨fun k off hk hfirst => ?_, fun addr houtside => ?_⟩
  · have hupper : P.instIndex k = (P.instIndex k ++ off).extractLsb' 18 14 := BitVec.extractLsb'_append_eq_left.symm
    rw [instBase_add_offset, selectInstance_eq_some_of hk hupper hfirst, BitVec.extractLsb'_append_eq_right]
  · exact selectInstance_eq_none_iff.2 fun k hk hindex => houtside k hk (instBase_window hindex)

end Sys2Proof.Machine

/-! SUPPORT. The command words (30_encoding.md R70 to R78): decode and encode are inverse, the decode procedure is the
match and mask table, a word is its four bytes, and the assembler builds the words of R77 and the fills of R78. -/

namespace Sys2Proof

open Sys2Proof.Laws Sys2Proof.Laws.CommandRows Sys2Proof.Machine

/-! ## The fields of a command word -/

/-- A bit of a field that is 0 (30_encoding.md R73). -/
theorem getLsbD_of_extractLsb'_eq_zero {w : Word} {start len : Nat} (h : w.extractLsb' start len = 0#len) {p : Nat}
    (hstart : start ≤ p) (hend : p < start + len) : w.getLsbD p = false := by
  have hbit := congrArg (fun v => v.getLsbD (p - start)) h
  simpa [show p - start < len by omega, Nat.add_sub_cancel' hstart] using hbit

/-- A field of a word, bit by bit. -/
theorem extractLsb'_eq_of_bits {w : Word} {start len : Nat} {v : BitVec len}
    (h : ∀ p < len, w.getLsbD (start + p) = v.getLsbD p) : w.extractLsb' start len = v := by
  apply BitVec.eq_of_getLsbD_eq
  intro p hp
  simpa [hp] using h p hp

/-- A word that is its opcode alone (R71). -/
theorem commandWord_eq_of_op {w : Word} {op : BitVec 4} (hop : fieldOp w = op) (hrest : w.extractLsb' 4 28 = 0#28) :
    commandWord op 0#2 0#3 0#13 = w := by
  apply BitVec.eq_of_getLsbD_eq
  intro p hp
  grind [getLsbD_commandWord, fieldOp, getLsbD_of_extractLsb'_eq_zero hrest]

/-- A word that is its opcode and CH alone (R71). -/
theorem commandWord_eq_of_ch {w : Word} {op : BitVec 4} (hop : fieldOp w = op) (hrest : w.extractLsb' 6 26 = 0#26) :
    commandWord op (fieldCh w) 0#3 0#13 = w := by
  apply BitVec.eq_of_getLsbD_eq
  intro p hp
  grind [getLsbD_commandWord, fieldOp, fieldCh, getLsbD_of_extractLsb'_eq_zero hrest]

/-- A word that is its opcode and CLL alone (R71). -/
theorem commandWord_eq_of_cll {w : Word} {op : BitVec 4} (hop : fieldOp w = op) (hlow : w.extractLsb' 4 4 = 0#4)
    (hhigh : w.extractLsb' 11 21 = 0#21) : commandWord op 0#2 (fieldCll w) 0#13 = w := by
  apply BitVec.eq_of_getLsbD_eq
  intro p hp
  grind [getLsbD_commandWord, fieldOp, fieldCll, getLsbD_of_extractLsb'_eq_zero hlow,
    getLsbD_of_extractLsb'_eq_zero hhigh]

/-- A word that is its opcode, CH and COUNT alone (R71). -/
theorem commandWord_eq_of_ch_count {w : Word} {op : BitVec 4} (hop : fieldOp w = op) (hlow : w.extractLsb' 6 2 = 0#2)
    (hmid : w.extractLsb' 8 8 = 0#8) (hhigh : w.extractLsb' 29 3 = 0#3) :
    commandWord op (fieldCh w) 0#3 (fieldCount w) = w := by
  apply BitVec.eq_of_getLsbD_eq
  intro p hp
  grind [getLsbD_commandWord, fieldOp, fieldCh, fieldCount, getLsbD_of_extractLsb'_eq_zero hlow,
    getLsbD_of_extractLsb'_eq_zero hmid, getLsbD_of_extractLsb'_eq_zero hhigh]

/-! ## Encode of decode -/

/-- Settles O2: in each branch of the decode procedure the fields it does not keep are 0. -/
theorem encodeOfDecodedWordIsWord : Obligations.EncodeOfDecodedWordIsWord := by
  unfold Obligations.EncodeOfDecodedWordIsWord
  intro w
  have hop {k : Nat} (h : (fieldOp w).toNat = k) : fieldOp w = BitVec.ofNat 4 k := by
    rw [← h, BitVec.ofNat_toNat, BitVec.setWidth_eq]
  unfold decodeWord
  (split <;> try split) <;> refine congrArg Encoding.command ?_ <;> try rfl
  next h hrest => exact commandWord_eq_of_op (hop h) hrest
  next h hrest => exact commandWord_eq_of_ch_count (hop h) hrest.1 hrest.2.1 hrest.2.2
  next h hrest => exact commandWord_eq_of_ch (hop h) hrest
  next h hrest => exact commandWord_eq_of_ch (hop h) hrest
  next h hrest => exact commandWord_eq_of_op (hop h) hrest
  next h hrest => exact commandWord_eq_of_cll (hop h) hrest.1 hrest.2
  next h hrest => exact commandWord_eq_of_ch (hop h) hrest
  next h hrest => exact commandWord_eq_of_op (hop h) hrest

/-! ## Decode of encode -/

/-- The word of each operation selects the row of its opcode alone (R72, R74). -/
theorem commandRows_statement (i : Instr) : Statement i := by
  cases i with
  | nop => exact CommandRows.nop
  | rlgrDecode ch count => exact CommandRows.rlgrDecode ch count
  | dwtInvNx ch => exact CommandRows.dwtInvNx ch
  | dwtInvX ch => exact CommandRows.dwtInvX ch
  | ycbcr2rgb => exact CommandRows.ycbcr2rgb
  | ycocg2rgb cll => exact CommandRows.ycocg2rgb cll
  | clear ch => exact CommandRows.clear ch
  | softReset => exact CommandRows.softReset
  | illegal w => exact CommandRows.illegal w
  | hostRead off n => exact CommandRows.hostRead off n
  | hostWrite off n v => exact CommandRows.hostWrite off n v

/-- Only commands have an opcode, and each opcode has its row (R72). -/
theorem wellFormed_and_row_of_opcode {i : Instr} {k : Nat} (hop : opcode i = some k) :
    i.wellFormed = true ∧ ∃ r, commandRows[k]? = some r := by
  cases i <;> cases hop <;> exact ⟨rfl, _, rfl⟩

/-- The word of a command selects the row of its opcode (R72). -/
theorem selects_of_encode {i : Instr} {c : Word} (henc : encode i = .command c) {k : Nat} (hop : opcode i = some k)
    {r : CommandRow} (hr : commandRows[k]? = some r) : r.selects c = true := by
  have hrows := commandRows_statement i
  simp only [Statement, henc] at hrows
  rw [hrows (wellFormed_and_row_of_opcode hop).1 k r hr, hop, beq_self_eq_true]

/-- A word that selects no row is no command's word (R74). -/
theorem opcode_eq_none_of_isReserved {i : Instr} {w : Word} (hw : isReserved w = true) (henc : encode i = .command w) :
    opcode i = none := by
  cases hop : opcode i with
  | none => rfl
  | some k =>
    obtain ⟨-, r, hr⟩ := wellFormed_and_row_of_opcode hop
    have hnot := List.all_eq_true.1 hw r (List.mem_of_getElem? hr)
    simp [selects_of_encode henc hop hr] at hnot

/-- The decode procedure finds the fields of RLGR_DECODE's word and its reserved fields 0 (R73). -/
theorem decodeWord_rlgrDecode (ch : BitVec 2) (count : BitVec 13) :
    decodeWord (commandWord 1#4 ch 0#3 count) = .rlgrDecode ch count := by
  have hop : fieldOp (commandWord 1#4 ch 0#3 count) = 1#4 :=
    extractLsb'_eq_of_bits fun p hp => by grind [getLsbD_commandWord]
  have hch : fieldCh (commandWord 1#4 ch 0#3 count) = ch :=
    extractLsb'_eq_of_bits fun p hp => by grind [getLsbD_commandWord]
  have hcount : fieldCount (commandWord 1#4 ch 0#3 count) = count :=
    extractLsb'_eq_of_bits fun p hp => by grind [getLsbD_commandWord]
  have hlow : (commandWord 1#4 ch 0#3 count).extractLsb' 6 2 = 0#2 :=
    extractLsb'_eq_of_bits fun p hp => by grind [getLsbD_commandWord]
  have hmid : (commandWord 1#4 ch 0#3 count).extractLsb' 8 8 = 0#8 :=
    extractLsb'_eq_of_bits fun p hp => by grind [getLsbD_commandWord]
  have hhigh : (commandWord 1#4 ch 0#3 count).extractLsb' 29 3 = 0#3 :=
    extractLsb'_eq_of_bits fun p hp => by grind [getLsbD_commandWord]
  simp [decodeWord, hop, hch, hcount, hlow, hmid, hhigh]

/-- A word that selects no row is ILLEGAL: it is the word of what it decodes to, so that is no command (R73, R74). -/
theorem decodeWord_of_isReserved {w : Word} (hw : isReserved w = true) : decodeWord w = .illegal w := by
  have henc := encodeOfDecodedWordIsWord w
  have hnone := opcode_eq_none_of_isReserved hw henc
  generalize decodeWord w = i at henc hnone ⊢
  cases i with
  | illegal w' => rw [Encoding.command.inj henc]
  | hostRead | hostWrite => cases henc
  | _ => cases hnone

/-- Settles O1: the operands of RLGR_DECODE are too many to list, the other commands' are decoded one by one, and a
reserved word selects no row. -/
theorem decodeOfEncodeIsIdentity : Obligations.DecodeOfEncodeIsIdentity := by
  unfold Obligations.DecodeOfEncodeIsIdentity
  intro i hi
  cases i with
  | nop => rfl
  | rlgrDecode ch count => exact decodeWord_rlgrDecode ch count
  | dwtInvNx ch => revert ch; decide
  | dwtInvX ch => revert ch; decide
  | ycbcr2rgb => rfl
  | ycocg2rgb cll => revert cll; decide
  | clear ch => revert ch; decide
  | softReset => rfl
  | illegal w => exact decodeWord_of_isReserved hi
  | hostRead off n => rfl
  | hostWrite off n v => rfl

/-! ## Decode and the match and mask table -/

/-- A word decodes to a well-formed operation exactly when it is the operation's word. -/
theorem decodeWord_eq_iff {i : Instr} (hi : i.wellFormed = true) {w : Word} :
    decodeWord w = i ↔ encode i = .command w := by
  refine ⟨fun h => h ▸ encodeOfDecodedWordIsWord w, fun henc => ?_⟩
  have hid := decodeOfEncodeIsIdentity i hi
  rwa [henc] at hid

/-- Two words that select one row and agree at its operand bits are equal (R72). -/
theorem eq_of_selects {r : CommandRow} {c w : Word} (hc : r.selects c = true) (hw : r.selects w = true)
    (hoperands : ∀ p < 32, r.mask.getLsbD p = false → c.getLsbD p = w.getLsbD p) : c = w := by
  have hmasked : c &&& r.mask = w &&& r.mask := (beq_iff_eq.1 hc).trans (beq_iff_eq.1 hw).symm
  apply BitVec.eq_of_getLsbD_eq
  intro p hp
  cases hm : r.mask.getLsbD p with
  | false => exact hoperands p hp hm
  | true => simpa [hm] using congrArg (fun v => v.getLsbD p) hmasked

/-- A word decodes to the command whose word `c` has the same operand bits exactly when it selects the command's row
(R72, R73). -/
theorem decodeWord_eq_iff_row {i : Instr} {c w : Word} {k : Nat} {r : CommandRow} (henc : encode i = .command c)
    (hop : opcode i = some k) (hr : commandRows[k]? = some r)
    (hoperands : ∀ p < 32, r.mask.getLsbD p = false → c.getLsbD p = w.getLsbD p) :
    decodeWord w = i ↔ w &&& r.mask = r.value := by
  have hc : r.selects c = true := selects_of_encode henc hop hr
  rw [decodeWord_eq_iff (wellFormed_and_row_of_opcode hop).1, henc, Encoding.command.injEq]
  constructor
  · rintro rfl
    exact beq_iff_eq.1 hc
  · exact fun hw => eq_of_selects hc (beq_iff_eq.2 hw) hoperands

/-- A row without operands has no operand bit (R72). -/
theorem operands_none (c w : Word) :
    ∀ p < 32, (0xFFFFFFFF#32).getLsbD p = false → c.getLsbD p = w.getLsbD p := by
  have hfull : ∀ p < 32, (0xFFFFFFFF#32).getLsbD p = true := by decide
  exact fun p hp hm => absurd (hfull p hp) (by simp [hm])

/-- The operand bits of a row with CH (R71, R72). -/
theorem operands_ch (op : BitVec 4) (w : Word) :
    ∀ p < 32, (0xFFFFFFCF#32).getLsbD p = false →
      (commandWord op (fieldCh w) 0#3 0#13).getLsbD p = w.getLsbD p := by
  have hplace : ∀ p < 32, (0xFFFFFFCF#32).getLsbD p = false → 4 ≤ p ∧ p < 6 := by decide
  intro p hp hm
  have := hplace p hp hm
  grind [getLsbD_commandWord, fieldCh]

/-- The operand bits of the row with CLL (R71, R72). -/
theorem operands_cll (op : BitVec 4) (w : Word) :
    ∀ p < 32, (0xFFFFF8FF#32).getLsbD p = false →
      (commandWord op 0#2 (fieldCll w) 0#13).getLsbD p = w.getLsbD p := by
  have hplace : ∀ p < 32, (0xFFFFF8FF#32).getLsbD p = false → 8 ≤ p ∧ p < 11 := by decide
  intro p hp hm
  have := hplace p hp hm
  grind [getLsbD_commandWord, fieldCll]

/-- The operand bits of the row with CH and COUNT (R71, R72). -/
theorem operands_ch_count (op : BitVec 4) (w : Word) :
    ∀ p < 32, (0xE000FFCF#32).getLsbD p = false →
      (commandWord op (fieldCh w) 0#3 (fieldCount w)).getLsbD p = w.getLsbD p := by
  have hplace : ∀ p < 32, (0xE000FFCF#32).getLsbD p = false → 4 ≤ p ∧ p < 6 ∨ 16 ≤ p ∧ p < 29 := by decide
  intro p hp hm
  have := hplace p hp hm
  grind [getLsbD_commandWord, fieldCh, fieldCount]

/-- Settles O3: row by row; a word that decodes to ILLEGAL decodes to no row's command, so it selects no row. -/
theorem decodeFollowsMatchAndMask : Obligations.DecodeFollowsMatchAndMask := by
  unfold Obligations.DecodeFollowsMatchAndMask
  intro w
  have hnop : decodeWord w = .nop ↔ w &&& 0xFFFFFFFF#32 = 0x00000000#32 :=
    decodeWord_eq_iff_row (k := 0) rfl rfl rfl (operands_none _ w)
  have hrlgr : decodeWord w = .rlgrDecode (fieldCh w) (fieldCount w) ↔ w &&& 0xE000FFCF#32 = 0x00000001#32 :=
    decodeWord_eq_iff_row (k := 1) rfl rfl rfl (operands_ch_count 1#4 w)
  have hnx : decodeWord w = .dwtInvNx (fieldCh w) ↔ w &&& 0xFFFFFFCF#32 = 0x00000002#32 :=
    decodeWord_eq_iff_row (k := 2) rfl rfl rfl (operands_ch 2#4 w)
  have hx : decodeWord w = .dwtInvX (fieldCh w) ↔ w &&& 0xFFFFFFCF#32 = 0x00000003#32 :=
    decodeWord_eq_iff_row (k := 3) rfl rfl rfl (operands_ch 3#4 w)
  have hycbcr : decodeWord w = .ycbcr2rgb ↔ w &&& 0xFFFFFFFF#32 = 0x00000004#32 :=
    decodeWord_eq_iff_row (k := 4) rfl rfl rfl (operands_none _ w)
  have hycocg : decodeWord w = .ycocg2rgb (fieldCll w) ↔ w &&& 0xFFFFF8FF#32 = 0x00000005#32 :=
    decodeWord_eq_iff_row (k := 5) rfl rfl rfl (operands_cll 5#4 w)
  have hclear : decodeWord w = .clear (fieldCh w) ↔ w &&& 0xFFFFFFCF#32 = 0x00000006#32 :=
    decodeWord_eq_iff_row (k := 6) rfl rfl rfl (operands_ch 6#4 w)
  have hreset : decodeWord w = .softReset ↔ w &&& 0xFFFFFFFF#32 = 0x00000007#32 :=
    decodeWord_eq_iff_row (k := 7) rfl rfl rfl (operands_none _ w)
  refine ⟨hnop, hrlgr, hnx, hx, hycbcr, hycocg, hclear, hreset, fun hillegal => ?_, decodeWord_of_isReserved⟩
  simp only [hillegal, reduceCtorEq, false_iff] at hnop hrlgr hnx hx hycbcr hycocg hclear hreset
  simp [isReserved, commandRows, CommandRow.selects, hnop, hrlgr, hnx, hx, hycbcr, hycocg, hclear, hreset]

/-! ## Command words as bytes -/

/-- The four bytes of a word, the lowest first, are the word (20_memory.md R52). -/
theorem wordOfBytes_extractLsb' (w : Word) :
    wordOfBytes (w.extractLsb' 0 8) (w.extractLsb' 8 8) (w.extractLsb' 16 8) (w.extractLsb' 24 8) = w := by
  ext p hp
  grind [wordOfBytes]

/-- The four lowest bytes of a word's value are its four bytes (R52). -/
theorem littleEndian_four (w : Word) :
    littleEndian 4 w.toNat = [w.extractLsb' 0 8, w.extractLsb' 8 8, w.extractLsb' 16 8, w.extractLsb' 24 8] := by
  have hbyte (k : Nat) : BitVec.ofNat 8 (w.toNat / 2 ^ k) = w.extractLsb' k 8 := by
    rw [← Nat.shiftRight_eq_div_pow]
    rfl
  simp only [littleEndian, Nat.div_div_eq_div_mul, ← hbyte]
  norm_num

/-- Settles O5: the bytes, put together, are the word. -/
theorem commandBytesDecodeAsWord : Obligations.CommandBytesDecodeAsWord := by
  unfold Obligations.CommandBytesDecodeAsWord
  have hbytes (w : Word) :
      decodeBytes [w.extractLsb' 0 8, w.extractLsb' 8 8, w.extractLsb' 16 8, w.extractLsb' 24 8] =
        .ok (decodeWord w) :=
    congrArg (fun v => Except.ok (decodeWord v)) (wordOfBytes_extractLsb' w)
  refine ⟨hbytes, fun w => ?_, fun bs hlength => ?_⟩
  · have hvalue : w.toNat % 2 ^ 32 = w.toNat := Nat.mod_eq_of_lt w.isLt
    have hfour : max 4 ((32 + 7) / 8) = 4 := rfl
    rw [decodeTableWord, hvalue, hfour, littleEndian_four, hbytes]
  · unfold decodeBytes
    split
    · exact absurd rfl hlength
    · rfl

/-- Settles O4: each word is a literal, and the decode procedure is run on it. -/
theorem sampleWordsDecode : Obligations.SampleWordsDecode := by
  unfold Obligations.SampleWordsDecode
  decide

/-! ## The assembler -/

/-- A command word as its fields, each shifted to its place (30_encoding.md R71, R77). -/
theorem commandWord_eq_or (op : BitVec 4) (ch : BitVec 2) (cll : BitVec 3) (count : BitVec 13) :
    commandWord op ch cll count =
      op.setWidth 32 ||| ch.setWidth 32 <<< 4 ||| cll.setWidth 32 <<< 8 ||| count.setWidth 32 <<< 16 := by
  apply BitVec.eq_of_getLsbD_eq
  intro p hp
  rw [getLsbD_commandWord]
  simp only [BitVec.getLsbD_or, BitVec.getLsbD_shiftLeft, BitVec.getLsbD_setWidth]
  grind

/-- The word of a channel number that fits CH (R77). -/
theorem commandWord_ch (op : BitVec 4) {c : Nat} (hc : c ≤ 3) :
    commandWord op (BitVec.ofNat 2 c) 0#3 0#13 = op.setWidth 32 ||| BitVec.ofNat 32 c <<< 4 := by
  rw [commandWord_eq_or, BitVec.setWidth_ofNat_of_le_of_lt (by decide) (by omega)]
  simp

/-- The word of a level that fits CLL (R77). -/
theorem commandWord_cll (op : BitVec 4) {l : Nat} (hl : l ≤ 7) :
    commandWord op 0#2 (BitVec.ofNat 3 l) 0#13 = op.setWidth 32 ||| BitVec.ofNat 32 l <<< 8 := by
  rw [commandWord_eq_or, BitVec.setWidth_ofNat_of_le_of_lt (w := 3) (by decide) (by omega)]
  simp

/-- The word of a channel number and a coefficient count that fit CH and COUNT (R77). -/
theorem commandWord_ch_count (op : BitVec 4) {c n : Nat} (hc : c ≤ 3) (hn : n ≤ 8191) :
    commandWord op (BitVec.ofNat 2 c) 0#3 (BitVec.ofNat 13 n) =
      op.setWidth 32 ||| BitVec.ofNat 32 c <<< 4 ||| BitVec.ofNat 32 n <<< 16 := by
  rw [commandWord_eq_or, BitVec.setWidth_ofNat_of_le_of_lt (by decide) (by omega),
    BitVec.setWidth_ofNat_of_le_of_lt (w := 13) (by decide) (by omega)]
  simp

/-- The turns of a run of writes: those inside the window (20_memory.md R50). -/
theorem filterMap_turn_writes (n : Nat) (v : Word) (offset : Nat → Nat) (js : List Nat) :
    (js.map fun j => HostEvent.write n (offset j) v).filterMap HostEvent.turn =
      (js.filter fun j => offset j < 0x40000).map fun j => .access ⟨true, BitVec.ofNat 18 (offset j), n, v⟩ := by
  induction js with
  | nil => rfl
  | cons j js ih =>
    rw [List.map_cons, List.filterMap_cons, ih, List.filter_cons]
    by_cases hj : offset j < 0x40000 <;> simp [HostEvent.turn, hj]

/-- Settles O6: within its bound an operand is its field, and past it the assembler's test fails; each write of a fill
is a turn inside the window and none outside. -/
theorem assemblerWordsAndRejections : Obligations.AssemblerWordsAndRejections := by
  unfold Obligations.AssemblerWordsAndRejections
  have built {p : Prop} [Decidable p] {word formula : Word} (hfits : p) (h : word = formula) :
      (if p then some word else none) = some formula := by rw [if_pos hfits, h]
  refine ⟨fun c n hc hn => built ⟨hc, hn⟩ (commandWord_ch_count 1#4 hc hn), fun c n hbad => if_neg (by omega),
    fun c hc => ⟨?nx, ?x, ?clear⟩, fun c hbad => ⟨if_neg ?_, if_neg ?_, if_neg ?_⟩,
    fun l hl => built hl (commandWord_cll 5#4 hl), fun l hbad => if_neg (by omega), fun off k v => ?fill32,
    fun off k v => ?fill16⟩
  case nx => exact built hc (commandWord_ch 2#4 hc)
  case x => exact built hc (commandWord_ch 3#4 hc)
  case clear => exact built hc (commandWord_ch 6#4 hc)
  case fill32 => exact filterMap_turn_writes 4 v (fun j => off + 4 * j) (List.range k)
  case fill16 => exact filterMap_turn_writes 2 v (fun j => off + 2 * j) (List.range k)
  all_goals exact Nat.not_le.2 hbad

end Sys2Proof

/-! SUPPORT. `run X` of a host program (30_encoding.md R78): acceptance, polls of STATUS, completion, the last poll. -/

namespace Sys2Proof.Machine

/-! ## Completion with any memory -/

/-- `t` is a state in which the command of `s` has completed, with or without an error: what `run` can rely on,
whatever the buffers hold (44_control.md R181). -/
structure Completed (s t : State) : Prop where
  busy : t.busy = false
  done : t.done = true
  lastop : t.lastop = s.lastop
  turns : t.turns = s.turns

theorem completed_finish {s u : State} (hlastop : u.lastop = s.lastop) (hturns : u.turns = s.turns) :
    Completed s (finish u) :=
  ⟨rfl, rfl, hlastop, hturns⟩

theorem completed_raiseCmdError (e : CmdError) (s : State) : Completed s (raiseCmdError e s) :=
  completed_finish rfl rfl

/-- RLGR_DECODE's effect keeps LASTOP and the schedule. -/
theorem rlgrEffect_lastop_turns (x : Nat × Nat × Nat) (s : State) :
    (rlgrEffect x s).lastop = s.lastop ∧ (rlgrEffect x s).turns = s.turns := by
  obtain ⟨c, n, len⟩ := x
  unfold rlgrEffect
  dsimp only
  split <;> exact ⟨rfl, rfl⟩

/-- A checked command completes when its effect keeps LASTOP and the schedule. -/
theorem completed_runChecked {α : Type} (operands : Except CmdError α) {run : α → State → State} {s : State}
    (hrun : ∀ x, (run x s).lastop = s.lastop ∧ (run x s).turns = s.turns) :
    ∃ t, runChecked operands run s = .next t ∧ Completed s t := by
  rcases runChecked_cases operands run s with ⟨e, -, h⟩ | ⟨x, -, h⟩
  · exact ⟨_, h, completed_raiseCmdError e s⟩
  · exact ⟨_, h, completed_finish (hrun x).1 (hrun x).2⟩

/-- Every command but SOFT_RESET completes, also with a memory that is in no canonical form; a host access has no
command word (R181). -/
theorem exec_decodeWord_completed {w : Word} (hw : w ≠ 7#32) (s : State) :
    ∃ t, exec (decodeWord w) s = .next t ∧ Completed s t := by
  rw [exec_eq_execWith]
  cases hi : decodeWord w with
  | nop => exact ⟨_, rfl, completed_finish rfl rfl⟩
  | rlgrDecode ch count => exact completed_runChecked _ (rlgrEffect_lastop_turns · s)
  | dwtInvNx ch => exact completed_runChecked _ fun _ => ⟨rfl, rfl⟩
  | dwtInvX ch => exact completed_runChecked _ fun _ => ⟨rfl, rfl⟩
  | ycbcr2rgb => exact ⟨_, rfl, completed_finish rfl rfl⟩
  | ycocg2rgb cll => exact completed_runChecked _ fun _ => ⟨rfl, rfl⟩
  | clear ch => exact completed_runChecked _ fun _ => ⟨rfl, rfl⟩
  | softReset => exact absurd (eq_seven_of_decodeWord_softReset hi) hw
  | illegal w' => exact ⟨_, rfl, completed_raiseCmdError .illegalCmd s⟩
  | hostRead | hostWrite => cases hi ▸ encodeOfDecodedWordIsWord w

/-! ## The steps of `run` -/

/-- The write of a command word to CMD of an idle block is its acceptance (R180). -/
theorem step_commandWrite {s : State} {w : Word} {rest : List Turn} (hidle : s.busy = false) (hw : w ≠ 7#32)
    (hturns : s.turns = .access (commandWrite w) :: rest) :
    ∃ t, step s = .next t ∧ t.busy = true ∧ t.eng = some w ∧ t.lastop = w.extractLsb' 0 4 ∧
      t.turns = rest := by
  have hcmd : classify params { s with turns := rest } 0x004 4 true = .ok (.reg .cmd) :=
    classify_register (by decide) (by decide) (.inl hidle) fun _ => rfl
  have haccepted : hostWriteWith params 0x004#18 4 w { s with turns := rest } =
      { refreshIrq (accept w { s with turns := rest }) with resp := .done } := by
    rw [hostWriteWith, show (0x004#18).toNat = 0x004 from rfl, hcmd]
    rfl
  rw [accept_command w _ hw] at haccepted
  exact ⟨_, (stepBy_access hturns exec).trans (congrArg Host.Outcome.next haccepted), rfl, rfl, rfl, rfl⟩

/-- A read of STATUS returns it, whether the block is busy or idle (20_memory.md R60, R62). -/
theorem step_statusRead {s : State} {rest : List Turn} (hturns : s.turns = statusRead :: rest) :
    step s = .next { s with turns := rest, resp := .data (statusWord s) } :=
  (stepBy_access hturns exec).trans (exec_hostRead_register (by decide) (by decide) (.inr rfl))

/-- Any number of reads of STATUS use up their turns and change the response alone. -/
theorem runSteps_statusReads {n : Nat} {s : State} {rest : List Turn} (k : Nat)
    (hturns : s.turns = List.replicate n statusRead ++ rest) :
    ∃ resp, runSteps (n + k) s = runSteps k { s with turns := rest, resp := resp } := by
  induction n generalizing s with
  | zero => exact ⟨s.resp, by rw [Nat.zero_add]; cases s; cases hturns; rfl⟩
  | succ n ih =>
    have hstep := step_statusRead (rest := List.replicate n statusRead ++ rest) hturns
    obtain ⟨resp, hrun⟩ := ih (s := { s with turns := _, resp := .data (statusWord s) }) rfl
    exact ⟨resp, by rw [Nat.add_right_comm, runSteps_succ_of_next hstep, hrun]⟩

/-- The engine's turn of a block that holds a command word completes the command. -/
theorem step_engine_completed {s : State} {w : Word} {rest : List Turn} (hw : w ≠ 7#32) (hbusy : s.busy = true)
    (heng : s.eng = some w) (hturns : s.turns = .engine :: rest) :
    ∃ t, step s = .next t ∧ Completed { s with turns := rest } t := by
  obtain ⟨t, ht, hcompleted⟩ := exec_decodeWord_completed hw { s with turns := rest }
  have hengine : engineStepBy exec { s with turns := rest } = exec (decodeWord w) { s with turns := rest } :=
    engineStepBy_latched heng
  exact ⟨t, (stepBy_engine hturns hbusy exec).trans (hengine.trans ht), hcompleted⟩

/-- Settles O14: acceptance, the polls, the completion and the last read of STATUS, one after the other. -/
theorem runOfCommandEndsAtCompletion : Obligations.RunOfCommandEndsAtCompletion := by
  unfold Obligations.RunOfCommandEndsAtCompletion
  intro s w polls hidle hw hturns
  rw [run_turns] at hturns
  obtain ⟨accepted, hwrite, hbusy, heng, hlastop, hleft⟩ := step_commandWrite hidle hw hturns
  obtain ⟨resp, hpolls⟩ := runSteps_statusReads 2 hleft
  obtain ⟨completed, hengine, hcompleted⟩ := step_engine_completed
    (s := { accepted with turns := [.engine, statusRead], resp := resp }) hw hbusy heng rfl
  have hread := step_statusRead hcompleted.turns
  refine ⟨{ completed with turns := [], resp := .data (statusWord completed) }, ?_, hcompleted.busy, hcompleted.done,
    rfl, hcompleted.lastop.trans hlastop, rfl⟩
  calc runSteps (polls + 3) s
      = runSteps (polls + 2) accepted := runSteps_succ_of_next hwrite
    _ = runSteps 2 { accepted with turns := [.engine, statusRead], resp := resp } := hpolls
    _ = runSteps 1 completed := runSteps_succ_of_next hengine
    _ = .next { completed with turns := [], resp := .data (statusWord completed) } := runSteps_succ_of_next hread

end Sys2Proof.Machine

/-! SUPPORT. The buffers and the writable registers behind the host port (40_host_bus.md R91, R92): the bytes of a bus
data word, what an accepted read returns of the buffer bytes, and what an accepted write stores in a buffer or a
register. -/

namespace Sys2Proof.Machine

open Sys2Proof.Terms

/-! ## The bytes of a bus data word -/

/-- Bit `i` of a bus data word is bit `i % 8` of byte `i / 8`, low byte first, and 0 past the bytes (R91). -/
theorem getLsbD_busWord (bs : List Byte) {i : Nat} (hi : i < 32) :
    (busWord bs).getLsbD i = (bs[i / 8]?.getD 0#8).getLsbD (i % 8) := by
  induction bs generalizing i with
  | nil => simp [busWord]
  | cons b bs ih =>
    simp only [busWord, BitVec.getLsbD_or, BitVec.getLsbD_setWidth, BitVec.getLsbD_shiftLeft, hi, decide_true,
      Bool.true_and]
    by_cases hlow : i < 8
    · simp [hlow, Nat.div_eq_of_lt hlow, Nat.mod_eq_of_lt hlow]
    · have hdiv : i / 8 = (i - 8) / 8 + 1 := by omega
      have hmod : i % 8 = (i - 8) % 8 := by omega
      rw [hdiv, hmod, List.getElem?_cons_succ, ← ih (by omega), BitVec.getLsbD_of_ge b i (by omega)]
      simp [hlow]

/-- Each byte of a bus data word stands at its place, low byte first (20_memory.md R52). -/
theorem busWord_extractLsb' {bs : List Byte} {j : Nat} {b : Byte} (hj : j < 4) (hb : bs[j]? = some b) :
    (busWord bs).extractLsb' (8 * j) 8 = b := by
  apply BitVec.eq_of_getLsbD_eq
  intro i hi
  have hdiv : (8 * j + i) / 8 = j := by omega
  have hmod : (8 * j + i) % 8 = i := by omega
  rw [BitVec.getLsbD_extractLsb', getLsbD_busWord bs (by omega), hdiv, hmod, hb]
  simp [hi]

/-- Above its bytes a bus data word holds zeros (00_scope.md R8, 40_host_bus.md R91). -/
theorem busWord_toNat_lt (bs : List Byte) : (busWord bs).toNat < 2 ^ (8 * bs.length) := by
  refine Nat.lt_pow_two_of_testBit _ fun i hi => ?_
  rw [BitVec.testBit_toNat]
  by_cases h32 : i < 32
  · have hpast : bs[i / 8]? = none := List.getElem?_eq_none (by omega)
    simp [getLsbD_busWord bs h32, hpast]
  · exact BitVec.getLsbD_of_ge _ _ (by omega)

/-- The bytes a write takes of a bus data word are its low bits (R92). -/
theorem busWord_busBytes (n : Nat) (v : Word) :
    busWord (busBytes n v) = BitVec.ofNat 32 (v.toNat % 2 ^ (8 * n)) := by
  apply BitVec.eq_of_getLsbD_eq
  intro i hi
  rw [getLsbD_busWord _ hi, BitVec.getLsbD_ofNat, Nat.testBit_mod_two_pow, BitVec.testBit_toNat]
  by_cases hbyte : i / 8 < n
  · have hbit : 8 * (i / 8) + i % 8 = i := by omega
    have hlow : i < 8 * n := by omega
    simp [busBytes_getElem? n v _ hbyte, hbit, hlow, hi, Nat.mod_lt]
  · have hpast : (busBytes n v)[i / 8]? = none := List.getElem?_eq_none (by simpa using hbyte)
    have hhigh : ¬ i < 8 * n := by omega
    simp [hpast, hhigh]

/-! ## Buffer bytes after a write -/

/-- A written byte is defined and holds what was written (R92). -/
theorem readByte_writeRange_inside {m : List Host.Cell} {a j : Nat} {vs : List Byte} (hj : j < vs.length) :
    readByte (writeRange m a vs) (a + j) = vs[j]? := by
  rw [readByte_writeRange, if_pos (by omega), Nat.add_sub_cancel_left]

/-- No byte outside a written range changes. -/
theorem sameBytesOutside_writeRange (m : List Host.Cell) (a : Nat) (vs : List Byte) :
    SameBytesOutside m (writeRange m a vs) a vs.length := by
  intro x hx
  rw [readByte_writeRange, if_neg hx]

/-- A read of a written range observes the bytes written, whatever it would draw for poisoned ones. -/
theorem observeBytes_writeRange (m : List Host.Cell) (stream a k : Nat) (vs : List Byte) :
    observeBytes (writeRange m a vs) stream a k vs.length = vs := by
  refine List.ext_getElem? fun j => ?_
  by_cases hj : j < vs.length
  · have hwritten : vs[j]? = some vs[j] := List.getElem?_eq_getElem hj
    rw [hwritten]
    exact observeBytes_getElem? _ _ _ _ _ _ _ hj ((readByte_writeRange_inside hj).trans hwritten)
  · rw [List.getElem?_eq_none (by simpa using hj), List.getElem?_eq_none (by omega)]

/-! ## Accesses to the buffers -/

/-- Settles O50: the data is the bus word of the bytes observed, and a defined byte is observed as it is. -/
theorem hostReadOfBuffers : Obligations.HostReadOfBuffers := by
  unfold Obligations.HostReadOfBuffers
  intro s off n hidle hn halign hbuffer hP
  refine ⟨_, _, congrArg Host.Outcome.next (hostReadWith_buffer hP hidle hn halign hbuffer), ?bound, ?bytes⟩
  case bound => simpa using busWord_toNat_lt (observeBytes s.mem s.stream off.toNat s.fresh n)
  case bytes =>
    intro j hj b hb
    exact busWord_extractLsb' (by omega) (observeBytes_getElem? _ _ _ _ _ _ _ hj hb)

/-- A host write of buffer bytes stores the low bytes of the value and recomputes irq (R92). -/
theorem exec_hostWrite_buffer {s : State} {off : Offset} {n : Nat} {v : Word} (hP : params.inBytes % 4 = 0)
    (hidle : s.busy = false) (hn : n = 1 ∨ n = 2 ∨ n = 4) (halign : off.toNat % n = 0)
    (hbuffer : isBufferByte params off.toNat = true) :
    exec (.hostWrite off n v) s =
      .next
        { s with
          mem := writeRange s.mem off.toNat (busBytes n v), resp := .done, irq := s.doneIe && s.doneIp } := by
  refine congrArg Host.Outcome.next ?_
  rw [hostWriteWith, classify_buffer hP hidle hn halign hbuffer]
  rfl

/-- Settles O52: byte `j` of the value is written at offset `j`, and no byte outside the access. -/
theorem hostWriteOfBuffers : Obligations.HostWriteOfBuffers := by
  unfold Obligations.HostWriteOfBuffers
  intro s off n v hidle hn halign hbuffer hP
  refine ⟨_, exec_hostWrite_buffer hP hidle hn halign hbuffer, fun j hj => ?stored, ?outside⟩
  case stored => rw [readByte_writeRange_inside (by simpa using hj), busBytes_getElem? n v j hj]
  case outside => simpa using sameBytesOutside_writeRange s.mem off.toNat (busBytes n v)

/-- Settles O53: the read observes the bytes written, whose bus word is the low bits of the value. -/
theorem bufferReadAfterWrite : Obligations.BufferReadAfterWrite := by
  unfold Obligations.BufferReadAfterWrite
  intro s t off n v hidle hn halign hbuffer hP hwrite
  obtain ⟨hmem, hstillIdle⟩ : t.mem = writeRange s.mem off.toNat (busBytes n v) ∧ t.busy = false := by
    cases (exec_hostWrite_buffer hP hidle hn halign hbuffer).symm.trans hwrite
    exact ⟨rfl, hidle⟩
  have hobserved : observeBytes t.mem t.stream off.toNat t.fresh n = busBytes n v := by
    simpa [hmem] using observeBytes_writeRange s.mem t.stream off.toNat t.fresh (busBytes n v)
  refine ⟨t.fresh + n, congrArg Host.Outcome.next ((hostReadWith_buffer hP hstillIdle hn halign hbuffer).trans ?_)⟩
  rw [hobserved, busWord_busBytes]

/-! ## Writes of the registers -/

/-- A host write of an open, writable register has its effect there and recomputes irq (R92). -/
theorem exec_hostWrite_register {s : State} {off : Offset} {v : Word} (hoff : off.toNat < 0x28)
    (halign : off.toNat % 4 = 0) (hopen : s.busy = false ∨ accessibleWhileBusy (.reg (regAt off.toNat)) = true)
    (hwritable : isReadOnly (.reg (regAt off.toNat)) = false) :
    exec (.hostWrite off 4 v) s = .next { refreshIrq (writeReg (regAt off.toNat) v s) with resp := .done } := by
  refine congrArg Host.Outcome.next ?_
  rw [hostWriteWith, classify_register hoff halign hopen fun _ => hwritable]

/-- A write of IRQ_STAT keeps DONE_IP where bit 0 is 0 and clears it where bit 0 is 1 (10_state.md R32). -/
theorem writeReg_irqStat_doneIp (v : Word) (s : State) :
    writeReg .irqStat v s = { s with doneIp := s.doneIp && !v.getLsbD 0 } := by
  rw [writeReg_irqStat]
  cases v.getLsbD 0 with
  | false => rw [Bool.not_false, Bool.and_true]; rfl
  | true => rw [Bool.not_true, Bool.and_false]; rfl

/-- Settles O54: IN_LEN and KINIT are open while the block is idle, IRQ_EN and IRQ_STAT in every state. -/
theorem hostWriteOfRegisters : Obligations.HostWriteOfRegisters := by
  unfold Obligations.HostWriteOfRegisters
  intro s v
  refine ⟨fun hidle => ⟨?inLen, ?kinit⟩, ?irqEn, ?irqStat⟩
  case inLen | kinit => exact exec_hostWrite_register (by decide) (by decide) (.inl hidle) rfl
  case irqEn => exact exec_hostWrite_register (by decide) (by decide) (.inr rfl) rfl
  case irqStat =>
    rw [exec_hostWrite_register (by decide) (by decide) (.inr rfl) rfl]
    exact congrArg (fun t => Host.Outcome.next { refreshIrq t with resp := .done }) (writeReg_irqStat_doneIp v s)

end Sys2Proof.Machine

/-! SUPPORT. The RLGR stream and its symbols (41_rlgr.md R103 to R111): the bit order, what the readers accept and the
bit writer that they invert. -/

namespace Sys2Proof.Machine

open Sys2Proof.Terms

/-! ## Bit order -/

/-- Bit p of a byte's stream bits is its bit 7 − p (41_rlgr.md R103). -/
theorem bitsOfByte_getElem? (b : Byte) {p : Nat} (hp : p < 8) : (bitsOfByte b)[p]? = some (b.getLsbD (7 - p)) := by
  have h : bitsOfByte b = (List.range 8).map fun p => b.getLsbD (7 - p) := rfl
  simp [h, hp]

/-- The stream takes the bytes one after another, eight bits each (R103). -/
theorem streamBits_getElem? {bytes : List Byte} {p : Nat} {b : Byte} (hb : bytes[p / 8]? = some b) :
    (streamBits bytes)[p]? = some (b.getLsbD (7 - p % 8)) := by
  induction bytes generalizing p with
  | nil => simp at hb
  | cons c bytes ih =>
    rw [streamBits_cons]
    by_cases hp : p < 8
    · obtain rfl : c = b := by simpa [Nat.div_eq_of_lt hp] using hb
      rw [List.getElem?_append_left hp, bitsOfByte_getElem? c hp, Nat.mod_eq_of_lt hp]
    · obtain ⟨p, rfl⟩ : ∃ k, p = k + 8 := ⟨p - 8, by omega⟩
      rw [Nat.add_div_right p (by decide), List.getElem?_cons_succ] at hb
      rw [List.getElem?_append_right (Nat.le_add_left 8 p), Nat.add_mod_right]
      exact ih hb

@[simp] theorem msbBits_length (n v : Nat) : (msbBits n v).length = n := by
  induction n with
  | zero => rfl
  | succ n ih => simp [msbBits, ih]

/-- The bits above the first `n` are not written. -/
theorem msbBits_mod (n v m : Nat) (h : n ≤ m) : msbBits n (v % 2 ^ m) = msbBits n v := by
  induction n with
  | zero => rfl
  | succ n ih =>
    have hn : n < m := h
    simp [msbBits, ih (Nat.le_of_lt hn), Nat.testBit_mod_two_pow, hn]

/-- One bit before an `n`-bit number is its next higher bit. -/
theorem msbBits_succ_add (b : Bool) {n v : Nat} (h : v < 2 ^ n) :
    msbBits (n + 1) (b.toNat * 2 ^ n + v) = b :: msbBits n v := by
  have hlow : (b.toNat * 2 ^ n + v) % 2 ^ n = v := Nat.mul_add_mod_of_lt h
  have hbit : (b.toNat * 2 ^ n + v).testBit n = b := by
    rw [Nat.mul_comm, Nat.testBit_two_pow_mul_add _ h]
    cases b <;> simp
  rw [msbBits, hbit, ← msbBits_mod n _ n le_rfl, hlow]

/-- readbits(n) reads written bits back, the first bit most significant (00_scope.md R10). -/
theorem readBits_msbBits_mod (n v : Nat) (rest : List Bool) :
    readBits n (msbBits n v ++ rest) = some (v % 2 ^ n, rest) := by
  induction n with
  | zero => simp [msbBits, readBits, Nat.mod_one]
  | succ n ih =>
    have hvalue : (v.testBit n).toNat * 2 ^ n + v % 2 ^ n = v % 2 ^ (n + 1) := by
      rw [Nat.mod_pow_succ, Nat.toNat_testBit, Nat.mul_comm, Nat.add_comm]
    simp [msbBits, readBits, ih, hvalue]

theorem readBits_msbBits {n v : Nat} (h : v < 2 ^ n) (rest : List Bool) :
    readBits n (msbBits n v ++ rest) = some (v, rest) := by
  rw [readBits_msbBits_mod, Nat.mod_eq_of_lt h]

/-- Settles O26: the bits of each byte by induction on the bytes, readbits(n) by induction on n. -/
theorem streamIsMostSignificantBitFirst : Obligations.StreamIsMostSignificantBitFirst :=
  ⟨fun bytes => ⟨streamBits_length bytes, fun _ _ hb => streamBits_getElem? hb⟩,
    fun _ _ rest hv => readBits_msbBits hv rest⟩

/-! ## What the readers accept -/

/-- readbits(n) answers exactly on the streams that begin with the `n` bits of its answer. -/
theorem readBits_eq_some_iff {n v : Nat} {bits rest : List Bool} :
    readBits n bits = some (v, rest) ↔ v < 2 ^ n ∧ bits = msbBits n v ++ rest := by
  refine ⟨fun h => ⟨(readBits_spec h).2, ?_⟩, fun ⟨hv, hbits⟩ => hbits ▸ readBits_msbBits hv rest⟩
  induction n generalizing bits v with
  | zero => cases h; rfl
  | succ n ih =>
    cases bits with
    | nil => cases h
    | cons b bits =>
      rw [readBits] at h
      split at h <;> cases h
      next v _ hread => rw [ih hread, msbBits_succ_add b (readBits_spec hread).2, List.cons_append]

/-- The unary reader answers exactly on the streams that begin with its quotient in 0-bits and a 1-bit (R105). -/
theorem readUnary_eq_some_iff {bits rest : List Bool} {q : Nat} :
    readUnary bits = some (q, rest) ↔ bits = List.replicate q false ++ true :: rest := by
  induction bits generalizing q with
  | nil => simp [readUnary]
  | cons b bits ih =>
    cases b with
    | true => cases q <;> simp [readUnary, List.replicate_succ]
    | false =>
      cases q with
      | zero => cases h : readUnary bits <;> simp [readUnary, h]
      | succ q =>
        rw [List.replicate_succ, List.cons_append, List.cons.injEq, ← ih]
        cases h : readUnary bits <;> simp [readUnary, h, Prod.ext_iff]

/-- A stream of 0-bits holds no symbol (R111). -/
theorem readSymbol_zeros (kR kGR : Nat) {bits : List Bool} (h : ∀ b ∈ bits, b = false) :
    readSymbol kR kGR bits = none := by
  have hunary : readUnary bits = none := by
    rw [Option.eq_none_iff_forall_ne_some]
    rintro ⟨q, rest⟩ hq
    have := h true (by simp [readUnary_eq_some_iff.1 hq])
    cases this
  simp [readSymbol, hunary]

/-- A quotient of 0 begins a zero run (R106). -/
theorem readSymbol_zeroRun {kR v : Nat} (kGR : Nat) (hv : v < 2 ^ kR) (rest : List Bool) :
    readSymbol kR kGR (true :: (msbBits kR v ++ rest)) = some (.zeroRun (v + 1), 1 + kR, rest) := by
  simp [readSymbol, readUnary, readBits_msbBits hv]

/-- A quotient above 0 begins a nonzero value (R107). -/
theorem readSymbol_value {kGR rem : Nat} (kR q : Nat) (hrem : rem < 2 ^ kGR) (sign : Bool) (rest : List Bool) :
    readSymbol kR kGR (List.replicate (q + 1) false ++ true :: (msbBits kGR rem ++ sign :: rest)) =
      some (.value (q * 2 ^ kGR + rem) sign, q + 2 + kGR + 1, rest) := by
  have hq : readUnary (List.replicate (q + 1) false ++ true :: (msbBits kGR rem ++ sign :: rest)) =
      some (q + 1, msbBits kGR rem ++ sign :: rest) := readUnary_eq_some_iff.2 rfl
  simp [readSymbol, hq, readBits_msbBits hrem]

/-- Settles O27: the two forms of a symbol, one by each reader lemma. -/
theorem symbolsAreReadAsStated : Obligations.SymbolsAreReadAsStated := by
  refine ⟨fun _ kGR _ rest hv => readSymbol_zeroRun kGR hv rest, fun kR _ q _ sign rest hq hrem => ?_⟩
  obtain ⟨q, rfl⟩ : ∃ k, q = k + 1 := ⟨q - 1, by omega⟩
  exact readSymbol_value kR q hrem sign rest

/-! ## The reader inverts the bit writer -/

/-- A written symbol is read back, whatever follows it. -/
theorem readSymbol_symbolBits {kR : Nat} {sym : Symbol} (hfit : Fits kR sym) (kGR : Nat) (rest : List Bool) :
    readSymbol kR kGR (symbolBits kR kGR sym ++ rest) = some (sym, (symbolBits kR kGR sym).length, rest) := by
  cases sym with
  | zeroRun run =>
    obtain ⟨hpos, hle⟩ := hfit
    have hread := readSymbol_zeroRun (v := run - 1) (kR := kR) kGR (by omega) rest
    rw [Nat.sub_add_cancel hpos] at hread
    simpa [symbolBits, Nat.add_comm] using hread
  | value mag neg =>
    have hread := readSymbol_value kR (mag / 2 ^ kGR) (Nat.mod_lt mag (Nat.two_pow_pos kGR)) neg rest
    rw [Nat.div_add_mod'] at hread
    have hlen : (symbolBits kR kGR (.value mag neg)).length = mag / 2 ^ kGR + 2 + kGR + 1 := by
      simp [symbolBits]; omega
    rw [hlen, ← hread]
    simp [symbolBits]

/-- The symbol reader answers exactly on the streams that begin with a symbol that can be written (R105 to R107). -/
theorem readSymbol_eq_some_iff {kR kGR len : Nat} {bits rest : List Bool} {sym : Symbol} :
    readSymbol kR kGR bits = some (sym, len, rest) ↔
      Fits kR sym ∧ len = (symbolBits kR kGR sym).length ∧ bits = symbolBits kR kGR sym ++ rest := by
  constructor
  · intro h
    suffices hwritten : Fits kR sym ∧ bits = symbolBits kR kGR sym ++ rest by
      obtain ⟨hfit, rfl⟩ := hwritten
      rw [readSymbol_symbolBits hfit] at h
      cases h
      exact ⟨hfit, rfl, rfl⟩
    unfold readSymbol at h
    split at h
    next => cases h
    next run hunary =>
      split at h <;> cases h
      next v hread =>
        obtain ⟨hv, hrun⟩ := readBits_eq_some_iff.1 hread
        exact ⟨⟨Nat.le_add_left 1 v, hv⟩, by rw [readUnary_eq_some_iff.1 hunary, hrun]; rfl⟩
    next q value hunary =>
      split at h
      next => cases h
      next rem signed hread =>
        obtain ⟨hrem, hvalue⟩ := readBits_eq_some_iff.1 hread
        split at h <;> cases h
        next sign =>
          refine ⟨trivial, ?_⟩
          have hmod : (q * 2 ^ kGR + rem) % 2 ^ kGR = rem := Nat.mul_add_mod_of_lt hrem
          have hdiv : (q * 2 ^ kGR + rem) / 2 ^ kGR = q := by
            rw [Nat.mul_comm, Nat.mul_add_div (Nat.two_pow_pos kGR), Nat.div_eq_of_lt hrem, Nat.add_zero]
          rw [readUnary_eq_some_iff.1 hunary, hvalue, symbolBits, hmod, hdiv]
          simp
  · rintro ⟨hfit, rfl, rfl⟩
    exact readSymbol_symbolBits hfit kGR rest

/-- Settles O28: a symbol read from the cut-off stream would be read from the whole symbol too, with the missing bits
left over after it, and the whole symbol leaves none. -/
theorem cutOffSymbolIsNotRead : Obligations.CutOffSymbolIsNotRead := by
  intro kR kGR sym n hfit hn
  rw [Option.eq_none_iff_forall_ne_some]
  rintro ⟨sym', len, rest⟩ hcut
  obtain ⟨hfit', -, htake⟩ := readSymbol_eq_some_iff.1 hcut
  have hwhole : symbolBits kR kGR sym = symbolBits kR kGR sym' ++ (rest ++ (symbolBits kR kGR sym).drop n) := by
    rw [← List.append_assoc, ← htake, List.take_append_drop]
  have hread := readSymbol_symbolBits hfit kGR []
  rw [List.append_nil, hwhole, readSymbol_symbolBits hfit'] at hread
  simp only [Option.some.injEq, Prod.mk.injEq, List.append_eq_nil_iff, List.drop_eq_nil_iff] at hread
  omega

end Sys2Proof.Machine

/-! SUPPORT. The symbols' loop of RLGR_DECODE (41_rlgr.md R104): what it decodes of a written stream, and the bounds of
every decode. -/

namespace Sys2Proof.Machine

open Sys2Proof.Terms

/-! ## The writer's adaptation and coefficients are the decoder's -/

/-- kR rises after either form of symbol (41_rlgr.md R109). -/
theorem nextKr_eq (kR : Nat) (sym : Symbol) : nextKr kR sym = min (kR + 1) 15 := by cases sym <;> rfl

theorem nextKgr_eq_kgrAfter (kGR : Nat) (sym : Symbol) : nextKgr kGR sym = kgrAfter kGR sym := by cases sym <;> rfl

/-- kGR never rises (R108). -/
theorem kgrAfter_le (kGR : Nat) (sym : Symbol) : kgrAfter kGR sym ≤ kGR := by
  cases sym with
  | zeroRun run => exact le_rfl
  | value mag neg => exact Nat.sub_le _ _

/-- A symbol that can be written stands for at least one coefficient. -/
theorem coefsOf_length_pos {kR : Nat} {sym : Symbol} (h : Fits kR sym) : 0 < (coefsOf sym).length := by
  cases sym with
  | zeroRun run => rw [coefsOf, List.length_replicate]; exact h.1
  | value mag neg => cases neg <;> simp [coefsOf]

/-- The two ways to limit a value to 16 bits agree (00_scope.md R13). -/
theorem sat16_eq_saturated (v : Int) : sat16 v = saturated v := by
  unfold sat16 saturated
  omega

/-- Where its slots are left, a symbol emits all it stands for (R106, R107, R113). -/
theorem emitted_eq_coefsOf {room : Nat} {sym : Symbol} (h : (coefsOf sym).length ≤ room) :
    emitted room sym = coefsOf sym := by
  cases sym with
  | zeroRun run =>
    rw [coefsOf, List.length_replicate] at h
    rw [emitted, coefsOf, Nat.min_eq_left h]
  | value mag neg =>
    cases neg <;> simp [emitted, coefsOf, sat16_eq_saturated, saturated] <;> omega

/-- A symbol that can be written emits at most 2^kR coefficients. -/
theorem emitted_length_le_two_pow {kR : Nat} {sym : Symbol} (h : Fits kR sym) (room : Nat) :
    (emitted room sym).length ≤ 2 ^ kR := by
  cases sym with
  | zeroRun run => simpa [emitted] using .inl h.2
  | value mag neg => simpa [emitted] using Nat.one_le_two_pow

/-- A symbol takes at least one bit (R105). -/
theorem symbolBits_length_pos (kR kGR : Nat) (sym : Symbol) : 0 < (symbolBits kR kGR sym).length := by
  cases sym <;> simp [symbolBits]

/-! ## Round trip -/

/-- The loop decodes what was written from any state of it: the written symbols fill the slots, or what is left of the
stream holds no further symbol. -/
theorem decodeSymbols_writeSymbols {syms : List Symbol} {fuel room kR kGR : Nat} {tail : List Bool} (pos : Nat)
    (hfit : AllFit kR syms) (hroom : (syms.flatMap coefsOf).length ≤ room) (hfuel : room ≤ fuel)
    (htail : (syms.flatMap coefsOf).length < room → ∀ b ∈ tail, b = false) :
    decodeSymbols fuel room pos kR kGR (writeSymbols kR kGR syms ++ tail) =
      { coefs := syms.flatMap coefsOf
        pos := pos + (writeSymbols kR kGR syms).length
        kR := syms.foldl (fun k _ => min (k + 1) 15) kR
        kGR := syms.foldl kgrAfter kGR } := by
  induction syms generalizing fuel room pos kR kGR with
  | nil =>
    rcases decodeSymbols_cases fuel room pos kR kGR (writeSymbols kR kGR [] ++ tail) with
      ⟨-, h⟩ | ⟨f, sym, len, rest, d, -, hr, hread, -, -⟩
    · exact h
    · have hzeros := readSymbol_zeros kR kGR (htail (Nat.pos_of_ne_zero hr))
      cases hzeros.symm.trans hread
  | cons sym syms ih =>
    obtain ⟨hsym, hsyms⟩ := hfit
    have hread := readSymbol_symbolBits hsym kGR (writeSymbols (min (kR + 1) 15) (kgrAfter kGR sym) syms ++ tail)
    have hpos := coefsOf_length_pos hsym
    rw [List.flatMap_cons, List.length_append] at hroom htail
    rw [writeSymbols, List.append_assoc]
    rcases decodeSymbols_cases fuel room pos kR kGR (symbolBits kR kGR sym ++
        (writeSymbols (min (kR + 1) 15) (kgrAfter kGR sym) syms ++ tail)) with
      ⟨hend, -⟩ | ⟨f, sym', len, rest, d, rfl, hr, hread', rfl, h⟩
    · rw [hread] at hend
      simp only [reduceCtorEq, or_false] at hend
      omega
    · cases hread.symm.trans hread'
      have hemit : emitted room sym = coefsOf sym := emitted_eq_coefsOf (by omega)
      rw [h, hemit, nextKr_eq, nextKgr_eq_kgrAfter,
        ih _ hsyms (by omega) (by omega) fun hleft => htail (by omega)]
      simp [Nat.add_assoc]

/-- Settles O29: the round trip from the first slot. -/
theorem rlgrDecodeInvertsSymbolWriter : Obligations.RlgrDecodeInvertsSymbolWriter := by
  intro syms count kR kGR tail hfit hcount htail
  rw [decodeSymbols_writeSymbols 0 hfit hcount le_rfl htail]
  exact ⟨rfl, Nat.zero_add _, rfl, rfl⟩

/-! ## Bounds -/

/-- The bounds of what the loop gives from the position `pos` with the parameters kR and kGR and the stream `bits`: a
symbol takes at least one bit and stands for at most 2^15 coefficients. -/
structure WithinBounds (pos kR kGR : Nat) (bits : List Bool) (d : Decoded) : Prop where
  pos_le : d.pos ≤ pos + bits.length
  kR_ge : kR ≤ d.kR
  kR_le : d.kR ≤ 15
  kGR_le : d.kGR ≤ kGR
  coefs_length : d.coefs.length + 2 ^ 15 * pos ≤ 2 ^ 15 * d.pos
  coefs_range : ∀ v ∈ d.coefs, -32768 ≤ v ∧ v ≤ 32767

/-- Where the loop ends, nothing moves. -/
theorem withinBounds_end (pos kGR : Nat) (bits : List Bool) {kR : Nat} (h : kR ≤ 15) :
    WithinBounds pos kR kGR bits ⟨[], pos, kR, kGR⟩ where
  pos_le := Nat.le_add_right _ _
  kR_ge := le_rfl
  kR_le := h
  kGR_le := le_rfl
  coefs_length := by simp
  coefs_range := nofun

/-- A symbol in front of a bounded decode. -/
theorem WithinBounds.symbol {pos kR kGR : Nat} {sym : Symbol} {rest : List Bool} {d : Decoded} (hkR : kR ≤ 15)
    (hfit : Fits kR sym) (room : Nat)
    (h : WithinBounds (pos + (symbolBits kR kGR sym).length) (min (kR + 1) 15) (kgrAfter kGR sym) rest d) :
    WithinBounds pos kR kGR (symbolBits kR kGR sym ++ rest) { d with coefs := emitted room sym ++ d.coefs } where
  pos_le := by rw [List.length_append, ← Nat.add_assoc]; exact h.pos_le
  kR_ge := (Nat.le_min.2 ⟨Nat.le_succ kR, hkR⟩).trans h.kR_ge
  kR_le := h.kR_le
  kGR_le := h.kGR_le.trans (kgrAfter_le kGR sym)
  coefs_length := by
    have hrun : (emitted room sym).length ≤ 2 ^ 15 :=
      (emitted_length_le_two_pow hfit room).trans (Nat.pow_le_pow_right (by decide) hkR)
    have hbits := symbolBits_length_pos kR kGR sym
    have htail := h.coefs_length
    rw [List.length_append]
    dsimp only
    omega
  coefs_range v hv := (List.mem_append.1 hv).elim emitted_range (h.coefs_range v)

theorem decodeSymbols_withinBounds (fuel room pos kGR : Nat) (bits : List Bool) {kR : Nat} (hkR : kR ≤ 15) :
    WithinBounds pos kR kGR bits (decodeSymbols fuel room pos kR kGR bits) := by
  induction fuel generalizing room pos kR kGR bits with
  | zero => exact withinBounds_end pos kGR bits hkR
  | succ fuel ih =>
    rcases decodeSymbols_cases (fuel + 1) room pos kR kGR bits with
      ⟨-, h⟩ | ⟨f, sym, len, rest, d, hf, -, hread, rfl, h⟩
    · exact h ▸ withinBounds_end pos kGR bits hkR
    · cases hf
      obtain ⟨hfit, rfl, rfl⟩ := readSymbol_eq_some_iff.1 hread
      rw [h, nextKr_eq, nextKgr_eq_kgrAfter]
      exact .symbol hkR hfit room (ih _ _ _ _ (Nat.min_le_right _ _))

/-- A decode emits at most COUNT coefficients (R113). -/
theorem decodeStream_length_le (count kR kGR : Nat) (bytes : List Byte) :
    (decodeStream count kR kGR bytes).coefs.length ≤ count :=
  decodeSymbols_length_le count count 0 kR kGR (streamBits bytes)

theorem decodeStream_withinBounds (count kGR : Nat) (bytes : List Byte) {kR : Nat} (hkR : kR ≤ 15) :
    WithinBounds 0 kR kGR (streamBits bytes) (decodeStream count kR kGR bytes) :=
  decodeSymbols_withinBounds count count 0 kGR (streamBits bytes) hkR

/-- The position is within the 8·L bits of the input (41_rlgr.md R102). -/
theorem decodeStream_pos_le (count kGR : Nat) (bytes : List Byte) {kR : Nat} (hkR : kR ≤ 15) :
    (decodeStream count kR kGR bytes).pos ≤ 8 * bytes.length := by
  simpa using (decodeStream_withinBounds count kGR bytes hkR).pos_le

/-- Settles O30: the bounds of the loop from position 0. -/
theorem rlgrDecodeBounds : Obligations.RlgrDecodeBounds := by
  intro count kR kGR bytes hkR _
  have h := decodeStream_withinBounds count kGR bytes hkR
  exact ⟨decodeStream_length_le count kR kGR bytes, decodeStream_pos_le count kGR bytes hkR, h.kR_ge, h.kR_le,
    h.kGR_le, h.coefs_length, h.coefs_range⟩

end Sys2Proof.Machine

/-! SUPPORT. The command RLGR_DECODE (41_rlgr.md R100 to R115): its effect on COEF and the result registers, and what
it reads of IN. -/

namespace Sys2Proof.Machine

open Sys2Proof.Terms

/-! ## The completion of a legal command -/

/-- With legal operands RLGR_DECODE completes with its effect (41_rlgr.md R101). -/
theorem exec_rlgrDecode_legal {ch : BitVec 2} {count : BitVec 13} {s : State} (hch : ch ≠ 3#2)
    (hcount : count.toNat ≤ 4096) (hlen : s.inLen.toNat ≤ params.inBytes) :
    exec (.rlgrDecode ch count) s = .next (finish (rlgrEffect (ch.toNat, count.toNat, s.inLen.toNat) s)) :=
  runChecked_ok (rlgrOperands_ok_iff.2 ⟨⟨hch, hcount, hlen⟩, rfl⟩)

/-- The next state of a decode `d` of `n` elements into channel `c`: the completion, the elements with zeros up to `n`
and the result registers (R112, R114). -/
def decodedInto (c n : Nat) (d : Decoded) (s : State) : State :=
  { completedWith (storeCoefs s.mem c (zeroFill n d.coefs)) s with
    rlgrBits := BitVec.ofNat 20 d.pos, rlgrEmit := BitVec.ofNat 13 d.coefs.length
    rlgrKr := BitVec.ofNat 4 d.kR, rlgrKgr := BitVec.ofNat 4 d.kGR }

/-- On defined input the effect is the decode of the bytes (R104). -/
theorem finish_rlgrEffect_of_loadIn {s : State} {len : Nat} {bytes : List Byte} (h : loadIn s.mem len = some bytes)
    (c n : Nat) :
    finish (rlgrEffect (c, n, len) s) = decodedInto c n (decodeStream n s.krInit.toNat s.kgrInit.toNat bytes) s := by
  simp [rlgrEffect, h, finish, refreshIrq, decodedInto, completedWith]

/-- The elements after a decode: those of its symbols, then zeros (R112). -/
theorem coefAt_storeCoefs_zeroFill {n i : Nat} {coefs : List Int} (hlen : coefs.length ≤ n)
    (hrange : ∀ v ∈ coefs, -32768 ≤ v ∧ v ≤ 32767) (hi : i < n) (m : List Host.Cell) (c : Nat) :
    coefAt (storeCoefs m c (zeroFill n coefs)) c i = some (coefs.getD i 0) := by
  have hwrap : wrap16 (coefs.getD i 0) = coefs.getD i 0 := by
    rw [List.getD_eq_getElem?_getD]
    cases hv : coefs[i]? with
    | none => rfl
    | some v =>
      obtain ⟨hlow, hhigh⟩ := hrange v (List.mem_of_getElem? hv)
      exact wrap16_of_range hlow hhigh
  rw [coefAt_storeCoefs _ _ _ _ (by rw [zeroFill_length hlen]; exact hi), zeroFill_getElem? hlen hi, Option.map_some,
    hwrap]

/-- A decode writes the first `n` elements of its channel and nothing else. -/
theorem sameBytesOutside_storeCoefs_zeroFill {n : Nat} {coefs : List Int} (hlen : coefs.length ≤ n)
    (m : List Host.Cell) (c : Nat) :
    SameBytesOutside m (storeCoefs m c (zeroFill n coefs)) (0x20000 + 0x2000 * c) (2 * n) := by
  have h := sameBytesOutside_writeRange m (coefBase c) (elementsBytes (zeroFill n coefs))
  rwa [elementsBytes_length, zeroFill_length hlen] at h

/-- A register field holds a value that fits it. -/
theorem toNat_ofNat_eq {w n : Nat} (h : n < 2 ^ w) : (BitVec.ofNat w n).toNat = n := by
  rw [BitVec.toNat_ofNat, Nat.mod_eq_of_lt h]

/-- Settles O23: the fields of the decode fit their registers by its bounds. -/
theorem rlgrDecodeEffect : Obligations.RlgrDecodeEffect := by
  intro ch count s bytes hch hcount hlen hwf hbytes hin
  have hload := (loadIn_eq_some_iff hwf s.inLen.toNat bytes).2 ⟨hbytes, hin⟩
  have hkR : s.krInit.toNat ≤ 15 := Nat.le_of_lt_succ s.krInit.isLt
  have hkGR : s.kgrInit.toNat < 16 := s.kgrInit.isLt
  have hbounds := decodeStream_withinBounds count.toNat s.kgrInit.toNat bytes hkR
  have hpos := decodeStream_pos_le count.toNat s.kgrInit.toNat bytes hkR
  have hcoefs := decodeStream_length_le count.toNat s.krInit.toNat s.kgrInit.toNat bytes
  have hinBytes : params.inBytes = 65536 := rfl
  refine ⟨_, exec_rlgrDecode_legal hch hcount hlen, ?_⟩
  rw [finish_rlgrEffect_of_loadIn hload]
  refine ⟨rfl, ?bits, ?emit, ?kr, ?kgr, fun i hi => ?elements, sameBytesOutside_storeCoefs_zeroFill hcoefs s.mem _⟩
  case bits => exact toNat_ofNat_eq (by omega)
  case emit => exact toNat_ofNat_eq (by omega)
  case kr => exact toNat_ofNat_eq (Nat.lt_succ_of_le hbounds.kR_le)
  case kgr => exact toNat_ofNat_eq (Nat.lt_of_le_of_lt hbounds.kGR_le hkGR)
  case elements => exact coefAt_storeCoefs_zeroFill hcoefs hbounds.coefs_range hi s.mem _

/-! ## Empty input -/

/-- A decode of no bytes holds no symbol (41_rlgr.md R115). -/
theorem decodeStream_nil (count kR kGR : Nat) : decodeStream count kR kGR [] = ⟨[], 0, kR, kGR⟩ := by
  cases count <;> rfl

/-- Settles O25. -/
theorem rlgrDecodeOfEmptyInput : Obligations.RlgrDecodeOfEmptyInput := by
  intro ch count s hch hcount hempty
  have hload : loadIn s.mem s.inLen.toNat = some [] := by simp [hempty, loadIn, readRange]
  have hcoefs : ([] : List Int).length ≤ count.toNat := Nat.zero_le _
  refine ⟨storeCoefs s.mem ch.toNat (zeroFill count.toNat []), ?next, fun i hi => ?elements,
    sameBytesOutside_storeCoefs_zeroFill hcoefs s.mem _⟩
  case next =>
    rw [exec_rlgrDecode_legal hch hcount (by simp [hempty]), finish_rlgrEffect_of_loadIn hload, decodeStream_nil]
    simp [decodedInto]
  case elements => exact coefAt_storeCoefs_zeroFill hcoefs nofun hi s.mem _

/-! ## What the command reads -/

/-- The bytes loaded from IN[0..len−1] are those of IN[0..len−1] alone, poisoned or not (41_rlgr.md R102). -/
theorem loadIn_congr {m m' : List Host.Cell} (hm : Memory.wf m = true) (hm' : Memory.wf m' = true) {len : Nat}
    (h : ∀ k < len, inAt m' k = inAt m k) : loadIn m' len = loadIn m len := by
  ext1 bytes
  rw [loadIn_eq_some_iff hm', loadIn_eq_some_iff hm]
  refine and_congr_right fun _ => forall_congr' fun k => forall_congr' fun hk => ?_
  rw [h k hk]

/-- `t` and `u` are equal but for the memory, where they hold the same elements 0 to n − 1 of channel `c`. -/
def SameResults (c n : Nat) (t u : State) : Prop :=
  u = { t with mem := u.mem } ∧ ∀ i < n, coefAt u.mem c i = coefAt t.mem c i

/-- Two memories that load the same input give the same results. Where the input is poisoned, the free values of the
result registers are equal too, since the draws are (log 25). -/
theorem rlgrEffect_sameResults {s : State} {m : List Host.Cell} {len : Nat} (h : loadIn m len = loadIn s.mem len)
    (c n : Nat) :
    SameResults c n (finish (rlgrEffect (c, n, len) s)) (finish (rlgrEffect (c, n, len) { s with mem := m })) := by
  cases hload : loadIn s.mem len with
  | none =>
    simp only [rlgrEffect, h, hload]
    refine ⟨rfl, fun i hi => ?_⟩
    simp [coefAt_poisonCoefs _ _ _ _ hi]
  | some bytes =>
    rw [finish_rlgrEffect_of_loadIn hload, finish_rlgrEffect_of_loadIn (s := { s with mem := m }) (h.trans hload)]
    refine ⟨rfl, fun i hi => ?_⟩
    have hlen : i < (zeroFill n (decodeStream n s.krInit.toNat s.kgrInit.toNat bytes).coefs).length := by
      rwa [zeroFill_length (decodeStream_length_le n s.krInit.toNat s.kgrInit.toNat bytes)]
    exact (coefAt_storeCoefs m c _ i hlen).trans (coefAt_storeCoefs s.mem c _ i hlen).symm

/-- Settles O31: both runs load the same input. -/
theorem rlgrDecodeReadsOnlyItsInput : Obligations.RlgrDecodeReadsOnlyItsInput := by
  intro ch count s m hwf hwf' hch hcount hlen hsame
  obtain ⟨hregs, helements⟩ := rlgrEffect_sameResults (loadIn_congr hwf hwf' hsame) ch.toNat count.toNat
  refine ⟨_, _, exec_rlgrDecode_legal hch hcount hlen, exec_rlgrDecode_legal hch hcount hlen, fun _ => hregs, ?_,
    helements⟩
  rw [hregs]

end Sys2Proof.Machine

/-! SUPPORT. The default 1-D inverse liftings (42_dwt.md R131, R134, R141): their samples, their range, and what they
give on constant bands. -/

namespace Sys2Proof.Machine

open Sys2Proof.Terms

/-! ## LIFT_NX sample by sample -/

/-- The shift by one place is the floor of a half (00_scope.md R12). -/
theorem asr_one (v : Int) : asr v 1 = v.fdiv 2 := by
  rw [asr, pow_one, Int.fdiv_eq_ediv_of_nonneg _ (by decide)]

theorem nxEvens_length {lo hi : List Int} (h : lo.length = hi.length) (hprev : Int) :
    (nxEvens hprev lo hi).length = hi.length := by
  induction hi generalizing lo hprev with
  | nil => simp [nxEvens]
  | cons h0 hi ih =>
    obtain ⟨l, lo, rfl⟩ := List.exists_cons_of_length_eq_add_one h
    simpa [nxEvens] using ih (by simpa using h) h0

/-- The high sample before hi[n] is element n of the high band with `hprev` in front (R134). -/
theorem nxEvens_getD {lo hi : List Int} (h : lo.length = hi.length) (hprev : Int) {n : Nat} (hn : n < hi.length) :
    (nxEvens hprev lo hi).getD n 0 =
      sat16 (lo.getD n 0 - asr ((hprev :: hi).getD n 0 + hi.getD n 0 + 1) 1) := by
  induction hi generalizing lo hprev n with
  | nil => simp at hn
  | cons h0 hi ih =>
    obtain ⟨l, lo, rfl⟩ := List.exists_cons_of_length_eq_add_one h
    cases n with
    | zero => rfl
    | succ n => exact ih (by simpa using h) h0 (by simpa using hn)

/-- The even samples `evens` with the odd ones between them (R134). -/
structure NxInterleaved (evens hi out : List Int) : Prop where
  length : out.length = 2 * hi.length
  even : ∀ n < hi.length, out.getD (2 * n) 0 = evens.getD n 0
  odd : ∀ n, n + 1 < hi.length →
    out.getD (2 * n + 1) 0 = sat16 (hi.getD n 0 * 2 + asr (evens.getD n 0 + evens.getD (n + 1) 0) 1)
  last : 0 < hi.length → out.getD (2 * hi.length - 1) 0 =
    sat16 (hi.getD (hi.length - 1) 0 * 2 + evens.getD (hi.length - 1) 0)

/-- A pair of samples in front: the even sample `e`, then the odd one between it and `f`. -/
theorem NxInterleaved.cons {e f h0 : Int} {evens hi out : List Int} (h : NxInterleaved (f :: evens) hi out)
    (hpos : 0 < hi.length) :
    NxInterleaved (e :: f :: evens) (h0 :: hi) (e :: sat16 (h0 * 2 + asr (e + f) 1) :: out) := by
  obtain ⟨h1, hi, rfl⟩ := List.exists_cons_of_length_pos hpos
  refine ⟨by simp [h.length]; omega, fun n hn => ?_, fun n hn => ?_, fun _ => h.last hpos⟩
  · cases n with
    | zero => rfl
    | succ n => exact h.even n (by simpa using hn)
  · cases n with
    | zero => rfl
    | succ n => exact h.odd n (by simpa using hn)

theorem nxInterleave_interleaved {evens hi : List Int} (h : evens.length = hi.length) :
    NxInterleaved evens hi (nxInterleave evens hi) := by
  induction hi generalizing evens with
  | nil =>
    obtain rfl := List.eq_nil_of_length_eq_zero h
    exact ⟨rfl, by simp, by simp, by simp⟩
  | cons h0 hi ih =>
    obtain ⟨e, evens, rfl⟩ := List.exists_cons_of_length_eq_add_one h
    have htail : evens.length = hi.length := by simpa using h
    cases hi with
    | nil =>
      obtain rfl := List.eq_nil_of_length_eq_zero htail
      exact ⟨rfl, by simp [nxInterleave], by simp, by simp [nxInterleave]⟩
    | cons h1 hi =>
      obtain ⟨f, evens, rfl⟩ := List.exists_cons_of_length_eq_add_one htail
      exact (ih htail).cons (by simp)

/-- Settles O35: the even samples have the high band with its first sample repeated in front. -/
theorem liftNxSamples : Obligations.LiftNxSamples := by
  intro lo hi s hs hlo hhi
  obtain ⟨h0, hi, rfl⟩ := List.exists_cons_of_length_pos (hhi ▸ hs)
  subst hhi
  obtain ⟨hlength, heven, hodd, hlast⟩ := nxInterleave_interleaved (nxEvens_length hlo h0)
  have hout : liftNx lo (h0 :: hi) = nxInterleave (nxEvens h0 lo (h0 :: hi)) (h0 :: hi) := rfl
  rw [hout]
  refine ⟨hlength, fun n hn => ?_, fun n hn => ?_, ?_⟩
  · rw [heven n hn, nxEvens_getD hlo h0 hn, sat16_eq_saturated, asr_one]
    cases n <;> rfl
  · rw [hodd n hn, ← heven n (by omega), ← heven (n + 1) hn, sat16_eq_saturated, asr_one, Nat.mul_add_one]
  · rw [hlast hs, ← heven _ (by omega), sat16_eq_saturated, Nat.mul_sub_one]

/-! ## LIFT_X sample by sample -/

/-- The samples of R141 for the bands `lo` and `hi`, of which the first is `x0`. -/
structure XLifted (x0 : Int) (lo hi out : List Int) : Prop where
  length : out.length = lo.length + hi.length
  first : out.getD 0 0 = x0
  even : ∀ j, 0 < j → j < hi.length →
    out.getD (2 * j) 0 = sat16 (lo.getD j 0 - div2t (hi.getD (j - 1) 0 + hi.getD j 0))
  odd : ∀ j < hi.length,
    out.getD (2 * j + 1) 0 = sat16 (div2t (out.getD (2 * j) 0 + out.getD (2 * j + 2) 0) + 2 * hi.getD j 0)
  tailOne : lo.length = hi.length + 1 →
    out.getD (2 * hi.length) 0 = sat16 (lo.getD hi.length 0 - hi.getD (hi.length - 1) 0)
  tailTwo : lo.length = hi.length + 2 →
    out.getD (2 * hi.length) 0 = sat16 (lo.getD hi.length 0 - div2t (hi.getD (hi.length - 1) 0)) ∧
    out.getD (2 * hi.length + 1) 0 = sat16 (div2t (out.getD (2 * hi.length) 0 + lo.getD (hi.length + 1) 0))

/-- A turn of the loop of R141: the samples X0 and X1 in front of those from X2 on. -/
theorem XLifted.cons {x2 l h0 h1 : Int} {lo hi out : List Int} (h : XLifted x2 (l :: lo) (h1 :: hi) out)
    (hx2 : x2 = sat16 (l - div2t (h0 + h1))) (x0 l0 : Int) :
    XLifted x0 (l0 :: l :: lo) (h0 :: h1 :: hi) (x0 :: sat16 (div2t (x0 + x2) + 2 * h0) :: out) := by
  refine ⟨by simp [h.length]; omega, rfl, fun j hpos hj => ?_, fun j hj => ?_, fun hl => ?_, fun hl => ?_⟩
  · obtain ⟨j, rfl⟩ := Nat.exists_eq_add_one.2 hpos
    cases j with
    | zero => exact h.first.trans hx2
    | succ j => exact h.even (j + 1) (by omega) (by simpa using hj)
  · cases j with
    | zero => rw [← h.first]; rfl
    | succ j => exact h.odd j (by simpa using hj)
  · exact h.tailOne (by simpa using hl)
  · exact h.tailTwo (by simpa using hl)

/-- The loop of R141 from the running samples `x0` and `h0` on; `l0` is the low sample that gave `x0`. -/
theorem xSamples_lifted (x0 h0 l0 : Int) {lo hi : List Int}
    (h : lo.length = hi.length + 1 ∨ lo.length = hi.length + 2) :
    XLifted x0 (l0 :: lo) (h0 :: hi) (xSamples x0 h0 lo hi) := by
  induction hi generalizing x0 h0 l0 lo with
  | nil =>
    rcases h with h | h
    · obtain ⟨l, rfl⟩ := List.length_eq_one_iff.1 h
      exact ⟨rfl, rfl, by simp; omega, by simp [xSamples, add_comm], by simp [xSamples], by simp⟩
    · obtain ⟨l, m, rfl⟩ := List.length_eq_two.1 h
      exact ⟨rfl, rfl, by simp; omega, by simp [xSamples, add_comm], by simp, by simp [xSamples]⟩
  | cons h1 hi ih =>
    obtain ⟨l, lo, rfl⟩ : ∃ l lo', lo = l :: lo' := List.exists_cons_of_length_pos (by omega)
    have htail : lo.length = hi.length + 1 ∨ lo.length = hi.length + 2 := by simpa using h
    exact (ih _ h1 l htail).cons rfl x0 l0

/-- Settles O36: the loop from the first samples of the bands on. -/
theorem liftXSamples : Obligations.LiftXSamples := by
  intro lo hi nL nH hpos hhi hlo hcase
  subst hhi hlo
  obtain ⟨h0, hi, rfl⟩ := List.exists_cons_of_length_pos hpos
  obtain ⟨l0, lo, rfl⟩ : ∃ l lo', lo = l :: lo' := List.exists_cons_of_length_pos (by omega)
  have hlifted := xSamples_lifted (sat16 (l0 - h0)) h0 l0 (lo := lo) (hi := hi) (by simpa using hcase)
  have hout : liftX (l0 :: lo) (h0 :: hi) = xSamples (sat16 (l0 - h0)) h0 lo hi := rfl
  simp only [← sat16_eq_saturated, hout]
  exact ⟨hlifted.length, hlifted.first, hlifted.even, hlifted.odd, hlifted.tailOne, hlifted.tailTwo⟩

/-! ## Range -/

/-- The signed 16-bit range of R131. -/
def InSixteenBits (v : Int) : Prop := -32768 ≤ v ∧ v ≤ 32767

theorem inSixteenBits_sat16 (v : Int) : InSixteenBits (sat16 v) := sat16_range v

theorem inSixteenBits_zero : InSixteenBits 0 := ⟨by decide, by decide⟩

theorem nxEvens_range {hprev : Int} {lo hi : List Int} : ∀ v ∈ nxEvens hprev lo hi, InSixteenBits v := by
  induction hi generalizing hprev lo with
  | nil => simp [nxEvens]
  | cons h0 hi ih =>
    cases lo with
    | nil => simp [nxEvens]
    | cons l lo =>
      rw [nxEvens, List.forall_mem_cons]
      exact ⟨inSixteenBits_sat16 _, ih⟩

theorem nxInterleave_range {evens hi : List Int} (h : ∀ v ∈ evens, InSixteenBits v) :
    ∀ v ∈ nxInterleave evens hi, InSixteenBits v := by
  fun_induction nxInterleave evens hi with
  | case1 e f evens h0 hi ih =>
    obtain ⟨he, hevens⟩ := List.forall_mem_cons.1 h
    exact List.forall_mem_cons.2 ⟨he, List.forall_mem_cons.2 ⟨inSixteenBits_sat16 _, ih hevens⟩⟩
  | case2 e h0 hi =>
    exact List.forall_mem_cons.2 ⟨h e (by simp), List.forall_mem_singleton.2 (inSixteenBits_sat16 _)⟩
  | case3 => simp

theorem liftNx_range (lo hi : List Int) : ∀ v ∈ liftNx lo hi, InSixteenBits v := by
  cases hi with
  | nil => simp [liftNx]
  | cons h0 hi => exact nxInterleave_range nxEvens_range

theorem xSamples_range {x0 : Int} (h : InSixteenBits x0) (h0 : Int) (lo hi : List Int) :
    ∀ v ∈ xSamples x0 h0 lo hi, InSixteenBits v := by
  fun_induction xSamples x0 h0 lo hi with
  | case1 x0 h0 l lo h1 hi x2 x1 ih =>
    exact List.forall_mem_cons.2 ⟨h, List.forall_mem_cons.2 ⟨inSixteenBits_sat16 _, ih (inSixteenBits_sat16 _)⟩⟩
  | case2 x2 h0 l x0 => simp [h, x0, inSixteenBits_sat16]
  | case3 x2 h0 l m x0 => simp [h, x0, inSixteenBits_sat16]
  | case4 => simp

theorem liftX_range (lo hi : List Int) : ∀ v ∈ liftX lo hi, InSixteenBits v := by
  cases lo with
  | nil => simp [liftX]
  | cons l0 lo =>
    cases hi with
    | nil => simp [liftX]
    | cons h0 hi => exact xSamples_range (inSixteenBits_sat16 _) h0 lo hi

/-! ## Constant bands -/

/-- `f` takes a constant low band and a zero high band to a constant (42_dwt.md R144). -/
def KeepsConstant (f : List Int → List Int → List Int) (nL nH : Nat) (k : Int) : Prop :=
  f (List.replicate nL k) (List.replicate nH 0) = List.replicate (nL + nH) k

section
variable {k : Int} (hk : InSixteenBits k)
include hk

theorem sat16_of_inSixteenBits : sat16 k = k := sat16_of_range hk.1 hk.2

theorem nxEvens_constant (s : Nat) :
    nxEvens 0 (List.replicate s k) (List.replicate s 0) = List.replicate s k := by
  induction s with
  | zero => rfl
  | succ s ih => simp [List.replicate_succ, nxEvens, ih, asr, sat16_of_inSixteenBits hk]

theorem nxInterleave_constant (s : Nat) :
    nxInterleave (List.replicate s k) (List.replicate s 0) = List.replicate (s + s) k := by
  have hmean : asr (k + k) 1 = k := by rw [asr]; omega
  induction s with
  | zero => rfl
  | succ s ih =>
    cases s with
    | zero => simp [List.replicate_succ, nxInterleave, sat16_of_inSixteenBits hk]
    | succ s =>
      have hlen : s + 1 + 1 + (s + 1 + 1) = (s + 1 + (s + 1)) + 1 + 1 := by omega
      rw [hlen, List.replicate_succ (n := s + 1 + (s + 1) + 1), List.replicate_succ (n := s + 1 + (s + 1)), ← ih]
      simp [List.replicate_succ, nxInterleave, hmean, sat16_of_inSixteenBits hk]

theorem liftNx_keepsConstant (s : Nat) : KeepsConstant liftNx s s k := by
  cases s with
  | zero => rfl
  | succ s =>
    have hout : liftNx (List.replicate (s + 1) k) (List.replicate (s + 1) 0) =
      nxInterleave (nxEvens 0 (List.replicate (s + 1) k) (List.replicate (s + 1) 0)) (List.replicate (s + 1) 0) := rfl
    rw [KeepsConstant, hout, nxEvens_constant hk, nxInterleave_constant hk]

theorem xSamples_constant {nL nH : Nat} (h : nL = nH + 1 ∨ nL = nH + 2) :
    xSamples k 0 (List.replicate nL k) (List.replicate nH 0) = List.replicate (nL + nH + 2) k := by
  have hmean : div2t (k + k) = k := by rw [div2t, ← two_mul, Int.mul_tdiv_cancel_left _ (by decide)]
  have hzero : div2t 0 = 0 := rfl
  induction nH generalizing nL with
  | zero => rcases h with rfl | rfl <;> simp [List.replicate_succ, xSamples, hmean, hzero, sat16_of_inSixteenBits hk]
  | succ nH ih =>
    obtain ⟨nL, rfl⟩ := Nat.exists_eq_add_one.2 (show 0 < nL by omega)
    have hlen : nL + 1 + (nH + 1) + 2 = (nL + nH + 2) + 1 + 1 := by omega
    rw [hlen, List.replicate_succ (n := nL + nH + 2 + 1), List.replicate_succ (n := nL + nH + 2), ← ih (by omega)]
    simp [List.replicate_succ, xSamples, hmean, hzero, sat16_of_inSixteenBits hk]

theorem liftX_keepsConstant {nL nH : Nat} (hpos : 0 < nH) (h : nL = nH + 1 ∨ nL = nH + 2) :
    KeepsConstant liftX nL nH k := by
  obtain ⟨nH, rfl⟩ := Nat.exists_eq_add_one.2 hpos
  obtain ⟨nL, rfl⟩ := Nat.exists_eq_add_one.2 (show 0 < nL by omega)
  have hout : liftX (List.replicate (nL + 1) k) (List.replicate (nH + 1) 0) =
    xSamples (sat16 (k - 0)) 0 (List.replicate nL k) (List.replicate nH 0) := rfl
  have hlen : nL + 1 + (nH + 1) = nL + nH + 2 := by omega
  rw [KeepsConstant, hout, sub_zero, sat16_of_inSixteenBits hk, xSamples_constant hk (by omega), hlen]

end

end Sys2Proof.Machine

/-! SUPPORT. The 2-D level step (42_dwt.md R132, R133) sample by sample, and the two transforms (R136, R142) on constant
bands. -/

namespace Sys2Proof.Machine

open Sys2Proof.Terms

/-! ## Rows of TEMP -/

/-- Row `r` of the band of `w` columns at offset `o` (42_dwt.md R132). -/
def bandRow (B : List Int) (o w r : Nat) : List Int := (List.range w).map fun u => B.getD (o + r * w + u) 0

/-- The bands of a level in rows, from a part of B that holds them all. -/
theorem rowsOf_drop {B : List Int} {o w n : Nat} (h : o + n * w ≤ B.length) :
    rowsOf w n (B.drop o) = (List.range n).map (bandRow B o w) := by
  induction n generalizing o with
  | zero => rfl
  | succ n ih =>
    rw [Nat.succ_mul] at h
    have hhead : (B.drop o).take w = bandRow B o w 0 := by
      refine List.ext_getElem (by simp [bandRow]; omega) fun u hu _ => ?_
      have hlt : o + u < B.length := by simp at hu; omega
      simp [bandRow, hlt]
    have htail : bandRow B (o + w) w = bandRow B o w ∘ Nat.succ := by
      funext r
      simp only [bandRow, Function.comp, Nat.succ_mul]
      ac_rfl
    rw [rowsOf, List.drop_drop, hhead, ih (by omega), htail, List.range_succ_eq_map, List.map_cons, List.map_map]

/-- Row `r` of TEMP: the row of the LL and HL bands (R133). -/
def lowRow (f : List Int → List Int → List Int) (b nL nH : Nat) (B : List Int) (r : Nat) : List Int :=
  f (bandRow B (b + 2 * nH * nL + nH * nH) nL r) (bandRow B b nH r)

/-- Row nL + `r` of TEMP: the row of the LH and HH bands (R133). -/
def highRow (f : List Int → List Int → List Int) (b nL nH : Nat) (B : List Int) (r : Nat) : List Int :=
  f (bandRow B (b + nH * nL) nL r) (bandRow B (b + 2 * nH * nL) nH r)

/-- Column `x` of the output of a level (R133). -/
def levelColumn (f : List Int → List Int → List Int) (b nL nH : Nat) (B : List Int) (x : Nat) : List Int :=
  f ((List.range nL).map fun r => (lowRow f b nL nH B r).getD x 0)
    ((List.range nH).map fun r => (highRow f b nL nH B r).getD x 0)

section
variable {f : List Int → List Int → List Int} {b nL nH : Nat} {B : List Int}
  (h : b + (nL + nH) * (nL + nH) ≤ B.length)
include h

theorem horizontalPass_drop :
    horizontalPass f nL nH (B.drop b) =
      (List.range nL).map (lowRow f b nL nH B) ++ (List.range nH).map (highRow f b nL nH B) := by
  have hsquare : b + (2 * nH * nL + nH * nH + nL * nL) ≤ B.length := by
    rwa [show 2 * nH * nL + nH * nH + nL * nL = (nL + nH) * (nL + nH) by ring]
  have hdouble : 2 * nH * nL = nH * nL + nH * nL := by ring
  have hcomm : nL * nH = nH * nL := Nat.mul_comm nL nH
  simp only [horizontalPass, List.drop_drop]
  rw [rowsOf_drop (by omega), rowsOf_drop (by omega), rowsOf_drop (by omega), rowsOf_drop (by omega),
    List.zipWith_map, List.zipWith_map, List.zipWith_self, List.zipWith_self, ← Nat.add_assoc]
  rfl

theorem verticalPass_horizontalPass :
    verticalPass f nL nH (horizontalPass f nL nH (B.drop b)) =
      (List.range (nL + nH)).map (levelColumn f b nL nH B) := by
  rw [horizontalPass_drop h, verticalPass]
  refine List.map_congr_left fun x _ => ?_
  simp [columnOf, levelColumn, List.take_left', List.drop_left', Function.comp_def]

/-- A level's output, row by row, in its place in B. -/
theorem level_eq :
    level f b nL nH B = B.take b ++
      ((List.range (nL + nH)).flatMap fun y =>
        (List.range (nL + nH)).map fun x => (levelColumn f b nL nH B x).getD y 0) ++
      B.drop (b + (nL + nH) * (nL + nH)) := by
  simp only [level, verticalPass_horizontalPass h, columnOf, List.map_map, Function.comp_def]

end

/-! ## Samples of a level -/

/-- Element (y, x) of rows of one width, put one after another (R132). -/
theorem getElem?_flatMap_range {g : Nat → List Int} {w t y x : Nat} (hg : ∀ y, (g y).length = w) (hy : y < t)
    (hx : x < w) : ((List.range t).flatMap g)[y * w + x]? = (g y)[x]? := by
  induction t with
  | zero => omega
  | succ t ih =>
    have hlen : ((List.range t).flatMap g).length = t * w := by
      simp [List.length_flatMap, hg]
    rw [List.range_succ, List.flatMap_append, List.flatMap_singleton]
    rcases Nat.lt_succ_iff_lt_or_eq.1 hy with hlt | rfl
    · have hnext : (y + 1) * w ≤ t * w := Nat.mul_le_mul_right w hlt
      rw [Nat.succ_mul] at hnext
      rw [List.getElem?_append_left (by omega), ih hlt]
    · rw [List.getElem?_append_right (by omega), hlen, Nat.add_sub_cancel_left]

section
variable (f : List Int → List Int → List Int) {b nL nH : Nat} {B : List Int}
  (h : b + (nL + nH) * (nL + nH) ≤ B.length)
include h

/-- Sample (y, x) of a level's output. A missing sample of `f` reads as 0 (log 24). -/
theorem level_getElem?_inside {y x : Nat} (hy : y < nL + nH) (hx : x < nL + nH) :
    (level f b nL nH B)[b + y * (nL + nH) + x]? = some ((levelColumn f b nL nH B x).getD y 0) := by
  have hnext : (y + 1) * (nL + nH) ≤ (nL + nH) * (nL + nH) := Nat.mul_le_mul_right _ hy
  rw [Nat.succ_mul] at hnext
  have htake : (B.take b).length = b := by simp; omega
  rw [level_eq h, Nat.add_assoc, List.append_assoc, List.getElem?_append_right (by omega), htake,
    Nat.add_sub_cancel_left, List.getElem?_append_left (by simp [List.length_flatMap]; omega),
    getElem?_flatMap_range (by simp) hy hx]
  simp [hx]

/-- A level changes no element before or after its output. -/
theorem level_getElem?_outside {i : Nat} (hi : i < b ∨ b + (nL + nH) * (nL + nH) ≤ i) :
    (level f b nL nH B)[i]? = B[i]? := by
  have htake : (B.take b).length = b := by simp; omega
  rw [level_eq h]
  rcases hi with hi | hi
  · rw [List.append_assoc, List.getElem?_append_left (by omega), List.getElem?_take_of_lt hi]
  · rw [List.getElem?_append_right (by simp [List.length_flatMap]; omega), List.getElem?_drop]
    congr 1
    simp [List.length_flatMap]
    omega

end

/-- Settles O34. -/
theorem levelStepSamples : Obligations.LevelStepSamples := by
  intro f b nL nH B _ h
  exact ⟨level_length f b nL nH B h, fun i hi => level_getElem?_outside f h hi,
    fun y x hy hx => level_getElem?_inside f h hy hx⟩

/-! ## Constant bands -/

/-- A tile whose first `n` elements are 0 and whose others are `k`. -/
def stepTile (n : Nat) (k : Int) : List Int := List.replicate n 0 ++ List.replicate (4096 - n) k

theorem stepTile_length {n : Nat} (h : n ≤ 4096) (k : Int) : (stepTile n k).length = 4096 := by
  simp [stepTile]; omega

theorem stepTile_zero (k : Int) : stepTile 0 k = List.replicate 4096 k := rfl

theorem stepTile_of_zero {n : Nat} (h : n ≤ 4096) : stepTile n 0 = List.replicate 4096 0 := by
  rw [stepTile, List.replicate_append_replicate, Nat.add_sub_cancel' h]

theorem stepTile_getElem? {n i : Nat} (k : Int) (hi : i < 4096) :
    (stepTile n k)[i]? = some (if i < n then 0 else k) := by
  unfold stepTile
  split
  · rw [List.getElem?_append_left (by simpa), List.getElem?_replicate_of_lt (by assumption)]
  · rw [List.getElem?_append_right (by simp; omega), List.getElem?_replicate_of_lt (by simp; omega)]

theorem map_range_eq_replicate {g : Nat → Int} {n : Nat} {v : Int} (h : ∀ i < n, g i = v) :
    (List.range n).map g = List.replicate n v :=
  List.eq_replicate_iff.2 ⟨by simp, List.forall_mem_map.2 fun i hi => h i (List.mem_range.1 hi)⟩

/-- A row of a band of a tile that is constant there. -/
theorem bandRow_stepTile {n o w rows r : Nat} {k v : Int} (hr : r < rows) (hend : o + rows * w ≤ 4096)
    (hv : ∀ i, o ≤ i → i < o + rows * w → (if i < n then 0 else k) = v) :
    bandRow (stepTile n k) o w r = List.replicate w v := by
  have hnext : (r + 1) * w ≤ rows * w := Nat.mul_le_mul_right w hr
  rw [Nat.succ_mul] at hnext
  refine map_range_eq_replicate fun u hu => ?_
  rw [List.getD_eq_getElem?_getD, stepTile_getElem? k (by omega), Option.getD_some]
  exact hv _ (by omega) (by omega)

section
variable {f : List Int → List Int → List Int} {b nL nH : Nat} {k : Int}
  (hside : b + (nL + nH) * (nL + nH) = 4096) (hk : KeepsConstant f nL nH k) (hzero : KeepsConstant f nL nH 0)
include hside hk hzero

/-- The first nL rows of TEMP are constant and the other rows are zero, so every column of the output is constant. -/
theorem levelColumn_stepTile {x : Nat} (hx : x < nL + nH) :
    levelColumn f b nL nH (stepTile (b + 2 * nH * nL + nH * nH) k) x = List.replicate (nL + nH) k := by
  have hsquare : b + 2 * nH * nL + nH * nH + nL * nL = 4096 := by rw [← hside]; ring
  have hdouble : 2 * nH * nL = nH * nL + nH * nL := by ring
  have hcomm : nL * nH = nH * nL := Nat.mul_comm nL nH
  have hlow : ∀ r < nL, (lowRow f b nL nH (stepTile (b + 2 * nH * nL + nH * nH) k) r).getD x 0 = k := fun r hr => by
    rw [lowRow, bandRow_stepTile (v := k) hr (by omega) fun i _ _ => if_neg (by omega),
      bandRow_stepTile (v := 0) hr (by omega) fun i _ _ => if_pos (by omega), hk, List.getD_replicate _ hx]
  have hhigh : ∀ r < nH, (highRow f b nL nH (stepTile (b + 2 * nH * nL + nH * nH) k) r).getD x 0 = 0 := fun r hr => by
    rw [highRow, bandRow_stepTile (v := 0) hr (by omega) fun i _ _ => if_pos (by omega),
      bandRow_stepTile (v := 0) hr (by omega) fun i _ _ => if_pos (by omega), hzero, List.getD_replicate _ hx]
  rw [levelColumn, map_range_eq_replicate hlow, map_range_eq_replicate hhigh, hk]

/-- A level takes a constant LL band and zero HL, LH and HH bands to a constant (42_dwt.md R144 (b)). -/
theorem level_stepTile : level f b nL nH (stepTile (b + 2 * nH * nL + nH * nH) k) = stepTile b k := by
  have hsquare : b + 2 * nH * nL + nH * nH + nL * nL = 4096 := by rw [← hside]; ring
  have hlen : (stepTile (b + 2 * nH * nL + nH * nH) k).length = 4096 := stepTile_length (by omega) k
  have hbefore : (stepTile (b + 2 * nH * nL + nH * nH) k).take b = List.replicate b 0 := by
    rw [stepTile, List.take_append_of_le_length (by simp; omega), List.take_replicate, Nat.min_eq_left (by omega)]
  have hafter : (stepTile (b + 2 * nH * nL + nH * nH) k).drop 4096 = [] := List.drop_eq_nil_iff.2 hlen.le
  have houtput : ((List.range (nL + nH)).flatMap fun y => (List.range (nL + nH)).map fun x =>
      (levelColumn f b nL nH (stepTile (b + 2 * nH * nL + nH * nH) k) x).getD y 0) = List.replicate (4096 - b) k := by
    refine List.eq_replicate_iff.2 ⟨by simp [List.length_flatMap]; omega, fun v hv => ?_⟩
    obtain ⟨y, hy, hv⟩ := List.mem_flatMap.1 hv
    obtain ⟨x, hx, rfl⟩ := List.mem_map.1 hv
    rw [levelColumn_stepTile hside hk hzero (List.mem_range.1 hx), List.getD_replicate _ (List.mem_range.1 hy)]
  rw [level_eq (by omega), hbefore, houtput, hside, hafter, List.append_nil, stepTile]

end

section
variable {f : List Int → List Int → List Int} {k : Int}

theorem dwtNx_stepTile (hk : ∀ s, KeepsConstant f s s k) (hzero : ∀ s, KeepsConstant f s s 0) :
    dwtNx f (stepTile 4032 k) = List.replicate 4096 k := by
  have h3 : level f 3840 8 8 (stepTile 4032 k) = stepTile 3840 k := level_stepTile rfl (hk 8) (hzero 8)
  have h2 : level f 3072 16 16 (stepTile 3840 k) = stepTile 3072 k := level_stepTile rfl (hk 16) (hzero 16)
  have h1 : level f 0 32 32 (stepTile 3072 k) = stepTile 0 k := level_stepTile rfl (hk 32) (hzero 32)
  rw [dwtNx, h3, h2, h1, stepTile_zero]

theorem dwtX_stepTile
    (hk : ∀ nL nH, 0 < nH → nL = nH + 1 ∨ nL = nH + 2 → KeepsConstant f nL nH k)
    (hzero : ∀ nL nH, 0 < nH → nL = nH + 1 ∨ nL = nH + 2 → KeepsConstant f nL nH 0) :
    dwtX f (stepTile 4015 k) = List.replicate 4096 k := by
  have h3 : level f 3807 9 8 (stepTile 4015 k) = stepTile 3807 k :=
    level_stepTile rfl (hk 9 8 (by decide) (.inl rfl)) (hzero 9 8 (by decide) (.inl rfl))
  have h2 : level f 3007 17 16 (stepTile 3807 k) = stepTile 3007 k :=
    level_stepTile rfl (hk 17 16 (by decide) (.inl rfl)) (hzero 17 16 (by decide) (.inl rfl))
  have h1 : level f 0 33 31 (stepTile 3007 k) = stepTile 0 k :=
    level_stepTile rfl (hk 33 31 (by decide) (.inr rfl)) (hzero 33 31 (by decide) (.inr rfl))
  rw [dwtX, h3, h2, h1, stepTile_zero]

end

/-- Settles O37: the zero tile is a constant tile, with a zero LL3. -/
theorem dwtOfZeroIsZero : Obligations.DwtOfZeroIsZero := by
  refine ⟨fun f hf => ?nx, fun f hf => ?x, fun s => ?liftNx, fun nL nH hpos hcase => ?liftX⟩
  case nx =>
    have hzero : ∀ s, KeepsConstant f s s 0 := fun s => by rw [KeepsConstant, hf s, two_mul]
    have htile := dwtNx_stepTile hzero hzero
    rwa [stepTile_of_zero (by omega)] at htile
  case x =>
    have htile := dwtX_stepTile hf hf
    rwa [stepTile_of_zero (by omega)] at htile
  case liftNx => rw [two_mul]; exact liftNx_keepsConstant inSixteenBits_zero s
  case liftX => exact liftX_keepsConstant inSixteenBits_zero hpos hcase

/-! ## Range -/

/-- A level whose output is all of B gives samples of its lifting (42_dwt.md R131). -/
theorem level_range {f : List Int → List Int → List Int} {nL nH : Nat} {B : List Int}
    (hf : ∀ lo hi, ∀ v ∈ f lo hi, InSixteenBits v) (hlen : B.length = (nL + nH) * (nL + nH)) :
    ∀ v ∈ level f 0 nL nH B, InSixteenBits v := by
  intro v hv
  have hafter : B.drop (0 + (nL + nH) * (nL + nH)) = [] := List.drop_eq_nil_iff.2 (by omega)
  rw [level_eq (by omega), List.take_zero, List.nil_append, hafter, List.append_nil] at hv
  obtain ⟨y, -, hv⟩ := List.mem_flatMap.1 hv
  obtain ⟨x, -, rfl⟩ := List.mem_map.1 hv
  rw [List.getD_eq_getElem?_getD]
  cases hsample : (levelColumn f 0 nL nH B x)[y]? with
  | none => exact inSixteenBits_zero
  | some v => exact hf _ _ v (List.mem_of_getElem? hsample)

section
variable {f : List Int → List Int → List Int} (hf : ∀ lo hi, ∀ v ∈ f lo hi, InSixteenBits v) {B : List Int}
  (hlen : B.length = 4096)
include hf hlen

theorem dwtNx_range : ∀ v ∈ dwtNx f B, InSixteenBits v := by
  have h3 : (level f 3840 8 8 B).length = 4096 := by rw [level_length] <;> omega
  exact level_range hf (by rw [level_length] <;> omega)

theorem dwtX_range : ∀ v ∈ dwtX f B, InSixteenBits v := by
  have h3 : (level f 3807 9 8 B).length = 4096 := by rw [level_length] <;> omega
  exact level_range hf (by rw [level_length] <;> omega)

end

/-- Settles O39. -/
theorem dwtStaysInSixteenBits : Obligations.DwtStaysInSixteenBits :=
  ⟨fun lo hi => List.forall_mem_append.2 ⟨liftNx_range lo hi, liftX_range lo hi⟩,
    fun _ hlen => List.forall_mem_append.2 ⟨dwtNx_range liftNx_range hlen, dwtX_range liftX_range hlen⟩⟩

end Sys2Proof.Machine

/-! SUPPORT. The commands DWT_INV_NX and DWT_INV_X (42_dwt.md R130, R137, R143, R145): what they leave in their channel
and in TEMP, and that they change nothing else. -/

namespace Sys2Proof.Machine

open Sys2Proof.Terms

/-! ## The completion of a DWT command -/

theorem exec_dwtInvNx (ch : BitVec 2) (s : State) :
    exec (.dwtInvNx ch) s = runChecked (channelOf ch) (dwtEffect (dwtNx liftNx)) s := rfl

theorem exec_dwtInvX (ch : BitVec 2) (s : State) :
    exec (.dwtInvX ch) s = runChecked (channelOf ch) (dwtEffect (dwtX liftX)) s := rfl

/-- A completion without error after which channel `c` holds `elements`, TEMP has 4096 elements and nothing else is
changed (42_dwt.md R130). -/
def CompletesWithElements (c : Nat) (elements : Nat → Option Int) (s : State)
    (outcome : Host.Outcome State Fault Refusal) : Prop :=
  ∃ t, outcome = .next t ∧
    t = { completedWith t.mem s with temp := t.temp, fresh := t.fresh } ∧ t.temp.length = 4096 ∧
    (∀ i < 4096, coefAt t.mem c i = elements i) ∧
    SameBytesOutside s.mem t.mem (0x20000 + 0x2000 * c) 8192

/-- What a DWT command does besides its effect on the memory. -/
theorem completesWithElements_of_mem {f : List Int → List Int} {ch : BitVec 2} {s : State}
    {elements : Nat → Option Int} (hch : ch ≠ 3#2)
    (helements : ∀ i < 4096, coefAt (dwtEffect f ch.toNat s).mem ch.toNat i = elements i)
    (houtside : SameBytesOutside s.mem (dwtEffect f ch.toNat s).mem (coefBase ch.toNat) 8192) :
    CompletesWithElements ch.toNat elements s (runChecked (channelOf ch) (dwtEffect f) s) := by
  refine ⟨_, runChecked_ok (channelOf_legal hch), ?_, ?_, helements, houtside⟩
  · simp only [finish_eq, completedWith, dwtEffect]
  · rw [finish_temp, dwtEffect, freeTemp_length]

/-! ## A defined channel -/

/-- A channel loads as its elements. -/
theorem loadCoefs_of_coefAt {m : List Host.Cell} (hwf : Memory.wf m = true) {c : Nat} {B : List Int}
    (hlen : B.length = 4096) (h : ∀ i < 4096, coefAt m c i = B[i]?) : loadCoefs m c = some B := by
  obtain ⟨B', hload⟩ := Option.isSome_iff_exists.1 <| loadCoefs_isSome hwf fun i hi => by
    rw [h i hi, List.getElem?_eq_getElem (by omega)]; rfl
  obtain ⟨hlen', h'⟩ := loadCoefs_eq_some hwf hload
  rw [hload]
  refine congrArg some (List.ext_getElem? fun i => ?_)
  rcases Nat.lt_or_ge i 4096 with hi | hi
  · rw [← h' i hi, h i hi]
  · rw [List.getElem?_eq_none (by omega), List.getElem?_eq_none (by omega)]

/-- A transform of a defined channel to 4096 samples in 16 bits leaves these samples there (R130). -/
theorem dwt_completes_of_defined {f : List Int → List Int} {ch : BitVec 2} {s : State} {B : List Int} (hch : ch ≠ 3#2)
    (hload : loadCoefs s.mem ch.toNat = some B) (hlen : (f B).length = 4096) (hrange : ∀ v ∈ f B, InSixteenBits v) :
    CompletesWithElements ch.toNat (fun i => (f B)[i]?) s (runChecked (channelOf ch) (dwtEffect f) s) := by
  have hmem : (dwtEffect f ch.toNat s).mem = storeCoefs s.mem ch.toNat (f B) := by simp [dwtEffect, hload]
  refine completesWithElements_of_mem hch (fun i hi => ?elements) ?outside
  case elements =>
    have hi' : i < (f B).length := by omega
    obtain ⟨hlow, hhigh⟩ := hrange _ (List.getElem_mem hi')
    rw [hmem, coefAt_storeCoefs _ _ _ _ hi', List.getElem?_eq_getElem hi', Option.map_some, wrap16_of_range hlow hhigh]
  case outside =>
    have houtside := sameBytesOutside_writeRange s.mem (coefBase ch.toNat) (elementsBytes (f B))
    rw [elementsBytes_length, hlen] at houtside
    rwa [hmem]

section
variable {ch : BitVec 2} {s : State} {B : List Int} (hch : ch ≠ 3#2) (hwf : Memory.wf s.mem = true)
  (hlen : B.length = 4096) (hB : ∀ i < 4096, coefAt s.mem ch.toNat i = B[i]?)
include hch hwf hlen hB

theorem exec_dwtInvNx_completes :
    CompletesWithElements ch.toNat (fun i => (dwtNx liftNx B)[i]?) s (exec (.dwtInvNx ch) s) :=
  dwt_completes_of_defined hch (loadCoefs_of_coefAt hwf hlen hB) (dwtNx_length liftNx hlen)
    (dwtNx_range liftNx_range hlen)

theorem exec_dwtInvX_completes :
    CompletesWithElements ch.toNat (fun i => (dwtX liftX B)[i]?) s (exec (.dwtInvX ch) s) :=
  dwt_completes_of_defined hch (loadCoefs_of_coefAt hwf hlen hB) (dwtX_length liftX hlen)
    (dwtX_range liftX_range hlen)

end

/-- Settles O32: no sample of a transform leaves the 16 bits of an element. -/
theorem dwtCommandsEffect : Obligations.DwtCommandsEffect := by
  intro ch s B hch hwf hlen hB
  exact ⟨exec_dwtInvNx_completes hch hwf hlen hB, exec_dwtInvX_completes hch hwf hlen hB⟩

/-- The elements of a tile that is zero before its LL3 band. -/
theorem coefAt_stepTile {m : List Host.Cell} {c n : Nat} {k : Int}
    (h : ∀ i < 4096, coefAt m c i = some (if i < n then 0 else k)) :
    ∀ i < 4096, coefAt m c i = (stepTile n k)[i]? := fun i hi => by
  rw [h i hi, stepTile_getElem? k hi]

/-- Settles O38: the transforms keep a constant LL3 band, and the commands write what the transforms give. -/
theorem dwtOfConstantLl3IsConstant : Obligations.DwtOfConstantLl3IsConstant := by
  intro ch s k hch hwf hlow hhigh _ _
  have hk : InSixteenBits k := ⟨hlow, hhigh⟩
  refine ⟨fun h => ?nx, fun h => ?x⟩
  case nx =>
    have htile := dwtNx_stepTile (fun _ => liftNx_keepsConstant hk _) fun _ => liftNx_keepsConstant inSixteenBits_zero _
    obtain ⟨t, hnext, -, -, helements, -⟩ :=
      exec_dwtInvNx_completes hch hwf (stepTile_length (by omega) k) (coefAt_stepTile h)
    exact ⟨t, hnext, fun i hi => by rw [helements i hi, htile]; exact List.getElem?_replicate_of_lt hi⟩
  case x =>
    have htile := dwtX_stepTile (fun _ _ hpos hcase => liftX_keepsConstant hk hpos hcase)
      fun _ _ hpos hcase => liftX_keepsConstant inSixteenBits_zero hpos hcase
    obtain ⟨t, hnext, -, -, helements, -⟩ :=
      exec_dwtInvX_completes hch hwf (stepTile_length (by omega) k) (coefAt_stepTile h)
    exact ⟨t, hnext, fun i hi => by rw [helements i hi, htile]; exact List.getElem?_replicate_of_lt hi⟩

/-! ## A poisoned channel -/

/-- No byte outside a poisoned range changes. -/
theorem sameBytesOutside_poisonRange (m : List Host.Cell) (a n : Nat) :
    SameBytesOutside m (poisonRange m a n) a n := by
  intro x hx
  rw [readByte_poisonRange, if_neg hx]

/-- A transform of a channel with a poisoned element poisons the whole channel (R145). -/
theorem dwt_completes_of_poisoned (f : List Int → List Int) {ch : BitVec 2} {s : State} (hch : ch ≠ 3#2)
    (hload : loadCoefs s.mem ch.toNat = none) :
    CompletesWithElements ch.toNat (fun _ => none) s (runChecked (channelOf ch) (dwtEffect f) s) := by
  have hmem : (dwtEffect f ch.toNat s).mem = poisonCoefs s.mem ch.toNat 4096 := by simp [dwtEffect, hload]
  refine completesWithElements_of_mem hch (fun i hi => ?elements) ?outside
  case elements => rw [hmem, coefAt_poisonCoefs _ _ _ _ hi]
  case outside => rw [hmem]; exact sameBytesOutside_poisonRange s.mem (coefBase ch.toNat) 8192

/-- Settles O33: the two commands differ in their transform alone, and a poisoned channel does not reach it. -/
theorem dwtOfPoisonedChannel : Obligations.DwtOfPoisonedChannel := by
  intro ch s j hch hwf hj hpoisoned i hi
  have hload := loadCoefs_eq_none hwf hj hpoisoned
  rcases List.mem_pair.1 hi with rfl | rfl
  · exact dwt_completes_of_poisoned (dwtNx liftNx) hch hload
  · exact dwt_completes_of_poisoned (dwtX liftX) hch hload

end Sys2Proof.Machine

/-! SUPPORT. The pixel functions of the colour conversions (43_color.md R163, R166): their channels as integers. -/

namespace Sys2Proof.Machine

/-! ## Channels -/

/-- A clipped value fits its channel (00_scope.md R13). -/
theorem channel_clip8_toNat (v : Int) : ((channel (clip8 v)).toNat : Int) = max 0 (min 255 v) := by
  have hclip : clip8 v = max 0 (min 255 v) := by unfold clip8; split_ifs <;> omega
  rw [channel, hclip, BitVec.toNat_ofInt]
  omega

section
variable (r g b : Int)

theorem opaquePixel_r_toNat : ((opaquePixel r g b).r.toNat : Int) = max 0 (min 255 r) := channel_clip8_toNat r

theorem opaquePixel_g_toNat : ((opaquePixel r g b).g.toNat : Int) = max 0 (min 255 g) := channel_clip8_toNat g

theorem opaquePixel_b_toNat : ((opaquePixel r g b).b.toNat : Int) = max 0 (min 255 b) := channel_clip8_toNat b

end

/-! ## YCbCr -/

/-- The shift by the 16 fraction bits of the matrix and the 5 of an element (R163). -/
theorem asr_twentyOne (v : Int) : asr v 21 = v / 2097152 := rfl

/-- Without chroma the matrix plays no part: each channel is the luma's integer part (R163). -/
theorem ycbcr_grey (M : Config.ColorMatrix) (y : Int) :
    ycbcr M y 0 0 = opaquePixel ((y + 4096) / 32) ((y + 4096) / 32) ((y + 4096) / 32) := by
  have hluma : asr ((y + 4096) * 65536) 21 = (y + 4096) / 32 := by rw [asr_twentyOne]; omega
  simp only [ycbcr, mul_zero, add_zero, sub_zero, hluma]

/-- Settles O44: each channel is its shifted sum, clipped. -/
theorem ycbcrFunction : Obligations.YcbcrFunction := by
  intro M y cb cr
  rw [ycbcr_grey]
  exact ⟨opaquePixel_r_toNat _ _ _, opaquePixel_g_toNat _ _ _, opaquePixel_b_toNat _ _ _, rfl,
    opaquePixel_r_toNat _ _ _, rfl, rfl⟩

/-! ## YCoCg -/

/-- The signed reading of a low byte is the balanced remainder (00_scope.md R11). -/
theorem chroma_eq_bmod (e : Int) (cll : Nat) : chroma e cll = Int.bmod (e % 256 * 2 ^ (cll - 1)) 256 :=
  BitVec.toInt_ofInt _

/-- Only the low byte of an element counts (R166). -/
theorem zext8_add_mul (e a : Int) : zext8 (e + 256 * a) = zext8 e := Int.add_mul_emod_self_left e 256 a

theorem chroma_add_mul (e a : Int) (cll : Nat) : chroma (e + 256 * a) cll = chroma e cll := by
  rw [chroma, zext8_add_mul, chroma]

/-- Settles O45: the channels are clipped sums of the luma byte and the two chroma values, each a function of its low
byte. -/
theorem ycocgFunction : Obligations.YcocgFunction := by
  intro e0 e1 e2 cll co cg hco hcg
  rw [← chroma_eq_bmod] at hco hcg
  subst hco hcg
  refine ⟨opaquePixel_r_toNat _ _ _, opaquePixel_g_toNat _ _ _, opaquePixel_b_toNat _ _ _, rfl, fun a b c => ?_⟩
  simp only [ycocg, zext8_add_mul, chroma_add_mul]

end Sys2Proof.Machine

/-! SUPPORT. The commands YCBCR2RGB and YCOCG2RGB (43_color.md R160, R161, R164, R167): what they leave in PIX for
defined and for poisoned channels, that they change nothing else, and that a second conversion changes nothing. -/

namespace Sys2Proof.Machine

open Sys2Proof.Terms

/-! ## The completion of a colour command -/

/-- A colour command completes without error and has no effect besides the one on the memory (R160). -/
theorem finish_colorEffect (fn : Int → Int → Int → Config.Pixel) (s : State) :
    finish (colorEffect fn s) = completedWith (colorEffect fn s).mem s := finish_eq _

theorem execWith_ycbcr2rgb (P : Config.Params) (s : State) :
    execWith P .ycbcr2rgb s = .next (completedWith (colorEffect (ycbcr P.colorMatrix) s).mem s) :=
  congrArg Host.Outcome.next (finish_colorEffect _ s)

theorem execWith_ycocg2rgb (P : Config.Params) {cll : BitVec 3} (hcll : cll ≠ 0#3) (s : State) :
    execWith P (.ycocg2rgb cll) s =
      .next (completedWith (colorEffect (fun e0 e1 e2 => P.ycocgFn e0 e1 e2 cll.toNat) s).mem s) :=
  (runChecked_ok (cllOf_legal hcll)).trans (congrArg Host.Outcome.next (finish_colorEffect _ s))

/-- The two legal colour commands differ in their pixel function alone. -/
theorem execWith_color (P : Config.Params) {cll : BitVec 3} (hcll : cll ≠ 0#3) {i : Instr}
    (hi : i ∈ [Instr.ycbcr2rgb, Instr.ycocg2rgb cll]) :
    ∃ fn, ∀ s, execWith P i s = .next (completedWith (colorEffect fn s).mem s) := by
  rcases List.mem_pair.1 hi with rfl | rfl
  · exact ⟨_, execWith_ycbcr2rgb P⟩
  · exact ⟨_, execWith_ycocg2rgb P hcll⟩

/-! ## The effect on the memory -/

section
variable (fn : Int → Int → Int → Config.Pixel) {s : State}

/-- Three channels that load are converted (R161). -/
theorem colorEffect_of_loaded {as bs cs : List Int} (ha : loadCoefs s.mem 0 = some as)
    (hb : loadCoefs s.mem 1 = some bs) (hc : loadCoefs s.mem 2 = some cs) :
    (colorEffect fn s).mem = storePixels s.mem (convertPlanes fn as bs cs) := by
  simp only [colorEffect, ha, hb, hc]

/-- One channel that does not load poisons PIX (70_reset_and_hazards.md R211, log 7). -/
theorem colorEffect_of_not_loaded {c : Nat} (hc : c < 3) (hload : loadCoefs s.mem c = none) :
    (colorEffect fn s).mem = poisonPixels s.mem := by
  rcases (colorEffect_mem fn s).2 with ⟨_, _, _, h0, h1, h2, -⟩ | ⟨-, hmem⟩
  · interval_cases c
    · cases hload.symm.trans h0
    · cases hload.symm.trans h1
    · cases hload.symm.trans h2
  · exact hmem

variable (hwf : Memory.wf s.mem = true)
include hwf

/-- A colour command keeps the canonical form. -/
theorem wf_colorEffect : Memory.wf (colorEffect fn s).mem = true := by
  rcases (colorEffect_mem fn s).2 with ⟨_, _, _, -, -, -, hmem⟩ | ⟨-, hmem⟩ <;> rw [hmem]
  · exact wf_storePixels _ _ hwf
  · exact wf_poisonPixels _ hwf

/-- A colour command writes PIX and nothing else (R160). -/
theorem sameBytesOutside_colorEffect : SameBytesOutside s.mem (colorEffect fn s).mem 0x30000 16384 := by
  rcases (colorEffect_mem fn s).2 with ⟨as, bs, cs, ha, hb, hc, hmem⟩ | ⟨-, hmem⟩ <;> rw [hmem]
  · have houtside := sameBytesOutside_writeRange s.mem pixBase (pixelsBytes (convertPlanes fn as bs cs))
    rwa [pixelsBytes_length, convertPlanes_length fn (loadCoefs_eq_some hwf ha).1 (loadCoefs_eq_some hwf hb).1
      (loadCoefs_eq_some hwf hc).1] at houtside
  · exact sameBytesOutside_poisonRange s.mem pixBase 16384

/-- On three defined channels every pixel is that of the elements with its index, with full opacity (R161, R168). -/
theorem pixAt_colorEffect (hdefined : ∀ c < 3, ChannelDefined s.mem c) {i : Nat} (hi : i < 4096) {x y z : Int}
    (hx : coefAt s.mem 0 i = some x) (hy : coefAt s.mem 1 i = some y) (hz : coefAt s.mem 2 i = some z) :
    pixAt (colorEffect fn s).mem i = some (fullOpacity (fn x y z)) := by
  have hload (c : Nat) (hc : c < 3) : ∃ es, loadCoefs s.mem c = some es :=
    Option.isSome_iff_exists.1 (loadCoefs_isSome hwf (hdefined c hc))
  obtain ⟨as, ha⟩ := hload 0 (by decide)
  obtain ⟨bs, hb⟩ := hload 1 (by decide)
  obtain ⟨cs, hc⟩ := hload 2 (by decide)
  obtain ⟨halen, has⟩ := loadCoefs_eq_some hwf ha
  obtain ⟨hblen, hbs⟩ := loadCoefs_eq_some hwf hb
  obtain ⟨hclen, hcs⟩ := loadCoefs_eq_some hwf hc
  rw [colorEffect_of_loaded fn ha hb hc,
    pixAt_storePixels _ _ _ (by rw [convertPlanes_length fn halen hblen hclen]; exact hi), convertPlanes_getElem?,
    ← has i hi, ← hbs i hi, ← hcs i hi, hx, hy, hz]

/-- A poisoned element poisons every byte of PIX (R169 (d), log 7). -/
theorem readByte_colorEffect_of_poisoned {c j : Nat} (hc : c < 3) (hj : j < 4096) (hpoisoned : coefAt s.mem c j = none)
    {a : Nat} (hlow : 0x30000 ≤ a) (hhigh : a < 0x34000) : readByte (colorEffect fn s).mem a = none := by
  rw [colorEffect_of_not_loaded fn hc (loadCoefs_eq_none hwf hj hpoisoned), poisonPixels, readByte_poisonRange,
    if_pos ⟨hlow, hhigh⟩]

end

/-- Settles O41: the default matrix's pixels are opaque as they are. -/
theorem ycbcrToRgbEffect : Obligations.YcbcrToRgbEffect := by
  intro s hwf hdefined
  exact ⟨_, (exec_eq_execWith _ s).trans (execWith_ycbcr2rgb params s), rfl,
    fun i hi y cb cr hy hcb hcr => pixAt_colorEffect _ hwf hdefined hi hy hcb hcr,
    sameBytesOutside_colorEffect _ hwf⟩

/-- Settles O42: the default YCoCg function's pixels are opaque as they are. -/
theorem ycocgToRgbEffect : Obligations.YcocgToRgbEffect := by
  intro cll s hcll hwf hdefined
  exact ⟨_, (exec_eq_execWith _ s).trans (execWith_ycocg2rgb params hcll s), rfl,
    fun i hi y co cg hy hco hcg => pixAt_colorEffect _ hwf hdefined hi hy hco hcg,
    sameBytesOutside_colorEffect _ hwf⟩

/-- Settles O43: a poisoned channel does not reach the pixel function. -/
theorem colorOfPoisonedChannel : Obligations.ColorOfPoisonedChannel := by
  intro cll s c j hcll hwf hc hj hpoisoned i hi
  obtain ⟨fn, hexec⟩ := execWith_color params hcll hi
  exact ⟨_, (exec_eq_execWith i s).trans (hexec s), rfl,
    fun a hlow hhigh => readByte_colorEffect_of_poisoned fn hwf hc hj hpoisoned hlow hhigh,
    sameBytesOutside_colorEffect fn hwf⟩

/-! ## Converting twice -/

/-- A range loads from its bytes alone, poisoned or not. -/
theorem readRange_congr {m m' : List Host.Cell} (hm : Memory.wf m = true) (hm' : Memory.wf m' = true) {a n : Nat}
    (h : ∀ k < n, readByte m' (a + k) = readByte m (a + k)) : readRange m' a n = readRange m a n := by
  ext1 bytes
  rw [readRange_eq_some_iff hm', readRange_eq_some_iff hm]
  refine and_congr_right fun _ => forall_congr' fun k => forall_congr' fun hk => ?_
  rw [h k hk]

/-- No channel reaches into PIX, so a channel loads alike from memories that differ in PIX (20_memory.md R51). -/
theorem loadCoefs_congr_of_pix {m m' : List Host.Cell} (hm : Memory.wf m = true) (hm' : Memory.wf m' = true)
    (h : SameBytesOutside m m' 0x30000 16384) {c : Nat} (hc : c < 3) : loadCoefs m' c = loadCoefs m c := by
  refine congrArg (Option.map elementsOf) (readRange_congr hm hm' fun k hk => h _ ?_)
  unfold coefBase
  omega

/-- A second store of the same bytes changes nothing. -/
theorem writeRange_writeRange {m : List Host.Cell} (hm : Memory.wf m = true) (a : Nat) (vs : List Byte) :
    writeRange (writeRange m a vs) a vs = writeRange m a vs := by
  have hwf := wf_writeRange m a vs hm
  refine eq_of_readByte_eq (wf_writeRange _ a vs hwf) hwf fun x => ?_
  simp only [readByte_writeRange]
  split_ifs <;> rfl

/-- A second poisoning changes nothing. -/
theorem poisonRange_poisonRange {m : List Host.Cell} (hm : Memory.wf m = true) (a n : Nat) :
    poisonRange (poisonRange m a n) a n = poisonRange m a n := by
  have hwf := wf_poisonRange m a n hm
  refine eq_of_readByte_eq (wf_poisonRange _ a n hwf) hwf fun x => ?_
  simp only [readByte_poisonRange]
  split_ifs <;> rfl

/-- A conversion of what a conversion left gives the same memory: it loads the same channels (R169 (a)). -/
theorem colorEffect_mem_of_converted {fn : Int → Int → Int → Config.Pixel} {s t : State}
    (hwf : Memory.wf s.mem = true) (ht : t.mem = (colorEffect fn s).mem) : (colorEffect fn t).mem = t.mem := by
  have hload (c : Nat) (hc : c < 3) : loadCoefs t.mem c = loadCoefs s.mem c := by
    rw [ht]
    exact loadCoefs_congr_of_pix hwf (wf_colorEffect fn hwf) (sameBytesOutside_colorEffect fn hwf) hc
  rcases (colorEffect_mem fn s).2 with ⟨as, bs, cs, ha, hb, hc, hmem⟩ | ⟨hnone, hmem⟩
  case inl =>
    rw [colorEffect_of_loaded fn ((hload 0 (by decide)).trans ha) ((hload 1 (by decide)).trans hb)
      ((hload 2 (by decide)).trans hc), ht, hmem]
    exact writeRange_writeRange hwf _ _
  case inr =>
    obtain ⟨c, hc, hcnone⟩ : ∃ c < 3, loadCoefs s.mem c = none := by
      rcases hnone with h | h | h
      · exact ⟨0, by decide, h⟩
      · exact ⟨1, by decide, h⟩
      · exact ⟨2, by decide, h⟩
    rw [colorEffect_of_not_loaded fn hc ((hload c hc).trans hcnone), ht, hmem]
    exact poisonRange_poisonRange hwf _ _

/-- Settles O47: the memory stays by the conversion of a converted one, and a completion of a completed state changes
no register. -/
theorem convertingTwiceIsIdempotent : Obligations.ConvertingTwiceIsIdempotent := by
  intro cll s t u i hi hcll hwf hfirst hsecond
  obtain ⟨fn, hexec⟩ := execWith_color params hcll hi
  rw [exec_eq_execWith, hexec] at hfirst hsecond
  cases hfirst
  cases hsecond
  rw [colorEffect_mem_of_converted (t := completedWith (colorEffect fn s).mem s) hwf rfl]
  rfl

end Sys2Proof.Machine

/-! SUPPORT. The alpha bytes of PIX (43_color.md R168): what each operation can do to them. -/

namespace Sys2Proof.Machine

open Sys2Proof.Terms

/-! ## Alpha bytes of two memories -/

/-- Each alpha byte of PIX is as it was, poisoned or 255. -/
def AlphasKeptOrOpaque (m m' : List Host.Cell) : Prop :=
  ∀ p < 4096, readByte m' (0x30000 + 4 * p + 3) = readByte m (0x30000 + 4 * p + 3) ∨
    readByte m' (0x30000 + 4 * p + 3) = none ∨ readByte m' (0x30000 + 4 * p + 3) = some 255#8

theorem alphasKeptOrOpaque_of_eq {m m' : List Host.Cell} (h : m' = m) : AlphasKeptOrOpaque m m' :=
  fun _ _ => .inl (by rw [h])

/-- A change inside a channel does not reach PIX (20_memory.md R51). -/
theorem alphasKeptOrOpaque_of_channel {m m' : List Host.Cell} {c n : Nat} (hc : c < 3) (hn : n ≤ 4096)
    (h : SameBytesOutside m m' (coefBase c) (2 * n)) : AlphasKeptOrOpaque m m' := fun p _ =>
  .inl (h _ (by unfold coefBase; omega))

/-- A checked command does to the alpha bytes what its effect does: an error changes no memory. -/
theorem alphasKeptOrOpaque_runChecked {α : Type} {operands : Except CmdError α} {run : α → State → State}
    {s t : State} (hrun : ∀ x, operands = .ok x → AlphasKeptOrOpaque s.mem (run x s).mem)
    (h : runChecked operands run s = .next t) : AlphasKeptOrOpaque s.mem t.mem := by
  rcases runChecked_cases operands run s with ⟨e, -, he⟩ | ⟨x, hx, he⟩ <;> cases he.symm.trans h
  · exact alphasKeptOrOpaque_of_eq (raiseCmdError_mem e s)
  · exact hrun x hx

/-! ## Colour commands -/

section
variable (fn : Int → Int → Int → Config.Pixel) {s : State} (hwf : Memory.wf s.mem = true)
include hwf

/-- On defined channels a conversion makes every alpha byte 255, whatever its pixel function gives (R168). -/
theorem readByte_alpha_colorEffect (hdefined : ∀ c < 3, ChannelDefined s.mem c) {p : Nat} (hp : p < 4096) :
    readByte (colorEffect fn s).mem (0x30000 + 4 * p + 3) = some 255#8 := by
  obtain ⟨x, hx⟩ := Option.isSome_iff_exists.1 (hdefined 0 (by decide) p hp)
  obtain ⟨y, hy⟩ := Option.isSome_iff_exists.1 (hdefined 1 (by decide) p hp)
  obtain ⟨z, hz⟩ := Option.isSome_iff_exists.1 (hdefined 2 (by decide) p hp)
  obtain ⟨-, -, -, halpha⟩ := pixAt_eq_some (pixAt_colorEffect fn hwf hdefined hp hx hy hz)
  exact halpha

theorem alphasKeptOrOpaque_colorEffect : AlphasKeptOrOpaque s.mem (colorEffect fn s).mem := by
  intro p hp
  by_cases hdefined : ∀ c < 3, ChannelDefined s.mem c
  · exact .inr (.inr (readByte_alpha_colorEffect fn hwf hdefined hp))
  · obtain ⟨c, hc, j, hj, hpoisoned⟩ : ∃ c < 3, ∃ j < 4096, coefAt s.mem c j = none := by
      simpa [ChannelDefined] using hdefined
    exact .inr (.inl (readByte_colorEffect_of_poisoned fn hwf hc hj hpoisoned (by omega) (by omega)))

end

/-! ## The other operations -/

/-- RLGR_DECODE writes its elements and nothing else (41_rlgr.md R100). -/
theorem sameBytesOutside_rlgrEffect (c n len : Nat) (s : State) :
    SameBytesOutside s.mem (rlgrEffect (c, n, len) s).mem (coefBase c) (2 * n) := by
  unfold rlgrEffect
  dsimp only
  split
  · exact sameBytesOutside_poisonRange s.mem (coefBase c) (2 * n)
  · exact sameBytesOutside_storeCoefs_zeroFill (decodeStream_length_le n _ _ _) s.mem c

/-- Storing a whole channel changes no byte outside it. -/
theorem sameBytesOutside_storeCoefs (m : List Host.Cell) (c : Nat) {vs : List Int} {n : Nat} (hlen : vs.length = n) :
    SameBytesOutside m (storeCoefs m c vs) (coefBase c) (2 * n) := by
  have houtside := sameBytesOutside_writeRange m (coefBase c) (elementsBytes vs)
  rwa [elementsBytes_length, hlen] at houtside

/-- A DWT command writes its channel and nothing else (42_dwt.md R130). -/
theorem sameBytesOutside_dwtEffect {f : List Int → List Int} (hf : ∀ B, B.length = 4096 → (f B).length = 4096)
    (c : Nat) {s : State} (hwf : Memory.wf s.mem = true) :
    SameBytesOutside s.mem (dwtEffect f c s).mem (coefBase c) (2 * 4096) := by
  unfold dwtEffect
  dsimp only
  split
  next => exact sameBytesOutside_poisonRange s.mem (coefBase c) (2 * 4096)
  next B hload => exact sameBytesOutside_storeCoefs s.mem c (hf B (loadCoefs_eq_some hwf hload).1)

/-- A host read writes no buffer byte (20_memory.md R58). -/
theorem hostReadWith_mem (P : Config.Params) (off : Offset) (n : Nat) (s : State) :
    (hostReadWith P off n s).mem = s.mem := by
  rcases hostReadWith_cases P off n s with ⟨c, -, h⟩ | ⟨r, -, h⟩ | ⟨-, h⟩ <;> rw [h]
  rfl

/-- An operation other than a host write keeps each alpha byte, poisons it or makes it 255. -/
theorem alphasKeptOrOpaque_execWith {P : Config.Params} {i : Instr} {s t : State} (hwf : Memory.wf s.mem = true)
    (hi : ∀ off n v, i ≠ .hostWrite off n v) (h : execWith P i s = .next t) : AlphasKeptOrOpaque s.mem t.mem := by
  cases i with
  | nop | softReset | illegal => cases h; exact alphasKeptOrOpaque_of_eq rfl
  | rlgrDecode ch count =>
    refine alphasKeptOrOpaque_runChecked (fun x hx => ?_) h
    obtain ⟨⟨hch, hcount, -⟩, rfl⟩ := rlgrOperands_ok_iff.1 hx
    exact alphasKeptOrOpaque_of_channel (channel_lt hch) hcount (sameBytesOutside_rlgrEffect _ _ _ s)
  | dwtInvNx ch =>
    exact alphasKeptOrOpaque_runChecked (fun c hc => alphasKeptOrOpaque_of_channel (channelOf_ok hc).2.2 le_rfl
      (sameBytesOutside_dwtEffect (fun _ => dwtNx_length P.liftNx) c hwf)) h
  | dwtInvX ch =>
    exact alphasKeptOrOpaque_runChecked (fun c hc => alphasKeptOrOpaque_of_channel (channelOf_ok hc).2.2 le_rfl
      (sameBytesOutside_dwtEffect (fun _ => dwtX_length P.liftX) c hwf)) h
  | ycbcr2rgb => cases h; exact alphasKeptOrOpaque_colorEffect _ hwf
  | ycocg2rgb cll => exact alphasKeptOrOpaque_runChecked (fun _ _ => alphasKeptOrOpaque_colorEffect _ hwf) h
  | clear ch =>
    exact alphasKeptOrOpaque_runChecked (fun c hc => alphasKeptOrOpaque_of_channel (channelOf_ok hc).2.2 le_rfl
      (sameBytesOutside_storeCoefs s.mem c List.length_replicate)) h
  | hostRead off n =>
    cases h
    exact alphasKeptOrOpaque_of_eq (hostReadWith_mem P off n s)
  | hostWrite off n v => exact absurd rfl (hi off n v)

/-- A host write of one byte of PIX of an idle block stores the byte it is given (40_host_bus.md R92). -/
theorem exec_hostWrite_pixByte {s : State} (hidle : s.busy = false) {off : Offset} (hlow : 0x30000 ≤ off.toNat)
    (hhigh : off.toNat < 0x34000) (b : Byte) :
    ∃ t, exec (.hostWrite off 1 (b.setWidth 32)) s = .next t ∧ readByte t.mem off.toNat = some b := by
  have hbuffer : isBufferByte params off.toNat = true := by simp [isBufferByte, hlow, hhigh]
  have hwritten : readByte (writeRange s.mem off.toNat (busBytes 1 (b.setWidth 32))) (off.toNat + 0) = some b := by
    rw [readByte_writeRange_inside (by simp), busBytes]
    simp
  exact ⟨_, exec_hostWrite_buffer (by decide) hidle (.inl rfl) (Nat.mod_one _) hbuffer, hwritten⟩

/-- Settles O46: a conversion forces the alpha bytes; of the other operations only a host write reaches PIX. -/
theorem convertedPixelsAreOpaque : Obligations.ConvertedPixelsAreOpaque := by
  have hconverted (P : Config.Params) (cll : BitVec 3) (s : State) (i : Instr)
      (hi : i ∈ [Instr.ycbcr2rgb, Instr.ycocg2rgb cll]) (hcll : cll ≠ 0#3) (hwf : Memory.wf s.mem = true)
      (hdefined : ∀ c < 3, ChannelDefined s.mem c) :
      ∃ t, execWith P i s = .next t ∧ ∀ p < 4096, readByte t.mem (0x30000 + 4 * p + 3) = some 255#8 := by
    obtain ⟨fn, hexec⟩ := execWith_color P hcll hi
    exact ⟨_, hexec s, fun p hp => readByte_alpha_colorEffect fn hwf hdefined hp⟩
  refine ⟨hconverted, fun cll s i => ?_, fun P s t i hwf hi h => alphasKeptOrOpaque_execWith hwf hi h,
    fun s p alpha hidle hp => ?_⟩
  · rw [exec_eq_execWith]
    exact hconverted params cll s i
  · have hoff : (BitVec.ofNat 18 (0x30000 + 4 * p + 3)).toNat = 0x30000 + 4 * p + 3 := toNat_ofNat_eq (by omega)
    have hwrite := exec_hostWrite_pixByte hidle (off := .ofNat 18 (0x30000 + 4 * p + 3)) (by omega) (by omega) alpha
    rwa [hoff] at hwrite

end Sys2Proof.Machine

/-! SUPPORT. The control commands, acceptance and the engine's turn (44_control.md R180 to R185): what a write of CMD, the
engine's completion of the latched word and NOP, CLEAR, SOFT_RESET and a reserved word do. -/

namespace Sys2Proof.Machine

open Sys2Proof.Terms

/-! ## NOP, CLEAR and the reserved words -/

theorem finish_eq_completedWith (s : State) : finish s = completedWith s.mem s := finish_eq s

theorem raiseCmdError_eq_erroredWith (e : CmdError) (s : State) : raiseCmdError e s = erroredWith (errorCode e) s :=
  raiseCmdError_eq e s

theorem exec_clear (ch : BitVec 2) (s : State) : exec (.clear ch) s = runChecked (channelOf ch) clearEffect s := rfl

theorem exec_illegal (w : Word) (s : State) : exec (.illegal w) s = .next (erroredWith 1#8 s) :=
  congrArg Host.Outcome.next (raiseCmdError_eq_erroredWith .illegalCmd s)

/-- Settles O16: the meaning of NOP is the completion alone. -/
theorem nopOnlyCompletes : Obligations.NopOnlyCompletes := by
  unfold Obligations.NopOnlyCompletes
  exact fun s => congrArg Host.Outcome.next (finish_eq_completedWith s)

/-- The elements of a channel filled with zeros (R183). -/
theorem coefAt_storeCoefs_zeros {n i : Nat} (hi : i < n) (m : List Host.Cell) (c : Nat) :
    coefAt (storeCoefs m c (List.replicate n 0)) c i = some 0 := by
  rw [coefAt_storeCoefs _ _ _ _ (by rwa [List.length_replicate]), List.getElem?_replicate_of_lt hi]
  rfl

/-- Settles O21: a legal CLEAR stores zeros over its whole channel, and CH = 3 fails the operand check. -/
theorem clearEffectHolds : Obligations.ClearEffect := by
  unfold Obligations.ClearEffect
  refine ⟨fun ch s hch => ⟨storeCoefs s.mem ch.toNat (List.replicate 4096 0), ?next, fun i hi => ?zeroed, ?outside⟩,
    fun s => ?badChannel⟩
  case next =>
    rw [exec_clear, runChecked_ok (channelOf_legal hch), finish_eq_completedWith]
    rfl
  case zeroed => exact coefAt_storeCoefs_zeros hi s.mem ch.toNat
  case outside => exact sameBytesOutside_storeCoefs s.mem ch.toNat List.length_replicate
  case badChannel =>
    rw [exec_clear, runChecked_error channelOf_three, raiseCmdError_eq_erroredWith]
    rfl

/-! ## The write of CMD -/

/-- `s` after the host wrote the command word `w`, which is not SOFT_RESET's, to CMD: `w` accepted, the write answered and
irq recomputed (R180, 40_host_bus.md R92). -/
def commandWritten (w : Word) (s : State) : State :=
  { s with
    eng := some w, busy := true, done := false, err := false, errcode := 0#8
    lastop := w.extractLsb' 0 4, irq := s.doneIe && s.doneIp, resp := .done }

/-- Recomputing an irq that is up to date changes nothing. -/
theorem refreshIrq_of_irq {s : State} (h : s.irq = (s.doneIe && s.doneIp)) : refreshIrq s = s := by
  rw [refreshIrq, ← h]

section
variable {s : State} (hidle : s.busy = false)
include hidle

/-- CMD is open while the block is idle, and its write is acceptance (R180). -/
theorem exec_cmdWrite (w : Word) :
    exec (.hostWrite 0x004#18 4 w) s = .next { refreshIrq (accept w s) with resp := .done } :=
  exec_hostWrite_register (by decide) (by decide) (.inl hidle) rfl

theorem exec_cmdWrite_command {w : Word} (hw : w ≠ 7#32) :
    exec (.hostWrite 0x004#18 4 w) s = .next (commandWritten w s) := by
  rw [exec_cmdWrite hidle, accept_command w s hw]
  rfl

/-- The soft reset clears DONE_IE and DONE_IP, so the irq recomputed after the write is its own (R184). -/
theorem exec_cmdWrite_softReset : exec (.hostWrite 0x004#18 4 7#32) s = .next { softReset s with resp := .done } := by
  rw [exec_cmdWrite hidle, accept_softReset, refreshIrq_of_irq rfl]

end

theorem exec_softReset (s : State) : exec .softReset s = .next (softReset s) := rfl

/-- Settles O55: the two cases of acceptance. -/
theorem cmdWriteAccepts : Obligations.CmdWriteAccepts := by
  unfold Obligations.CmdWriteAccepts
  refine fun s w hidle => ⟨exec_cmdWrite_command hidle, ?softReset⟩
  rintro rfl
  exact ⟨softReset s, exec_softReset s, exec_cmdWrite_softReset hidle⟩

/-! ## The turns of a command -/

/-- The turn of a write of CMD is that host write. -/
theorem step_commandWrite_eq {s : State} {w : Word} {rest : List Turn}
    (hturns : s.turns = .access (commandWrite w) :: rest) :
    step s = exec (.hostWrite 0x004#18 4 w) { s with turns := rest } :=
  stepBy_access hturns exec

/-- The engine's turn of a busy block performs what the latched word decodes to (R181). -/
theorem step_engine_eq {s : State} {w : Word} {rest : List Turn} (hbusy : s.busy = true) (heng : s.eng = some w)
    (hturns : s.turns = .engine :: rest) : step s = exec (decodeWord w) { s with turns := rest } :=
  (stepBy_engine hturns hbusy exec).trans (engineStepBy_latched heng)

/-- With no turn left a busy block performs what the latched word decodes to (00_scope.md R15, log 2). -/
theorem step_noTurns_eq {s : State} {w : Word} (hbusy : s.busy = true) (heng : s.eng = some w) (hturns : s.turns = []) :
    step s = exec (decodeWord w) s :=
  (stepBy_noTurns hturns hbusy exec).trans (engineStepBy_latched heng)

theorem runSteps_one (s : State) : runSteps 1 s = step s := by
  unfold runSteps
  cases step s <;> rfl

/-- Settles O7: the engine's turn, the end of the schedule and the host's turn. -/
theorem stepRunsDecodedInstruction : Obligations.StepRunsDecodedInstruction := by
  unfold Obligations.StepRunsDecodedInstruction
  refine fun s i _ => ⟨?engine, ?noTurns, ?access⟩
  case engine =>
    rintro w rest hbusy heng rfl hturns
    exact step_engine_eq hbusy heng hturns
  case noTurns =>
    rintro w hbusy heng rfl hturns
    exact step_noTurns_eq hbusy heng hturns
  case access =>
    rintro t rest rfl hturns
    exact stepBy_access hturns exec

/-- Settles O18: every field is the reset value or kept, and the write of the word of SOFT_RESET is that reset. -/
theorem softResetEffect : Obligations.SoftResetEffect := by
  unfold Obligations.SoftResetEffect
  refine ⟨fun s => ⟨freeTemp s.stream s.fresh, s.fresh + 1, freeTemp_length _ _, exec_softReset s⟩,
    fun s rest hidle hturns => ⟨softReset s, exec_softReset s, ?written⟩⟩
  rw [step_commandWrite_eq hturns, exec_cmdWrite_softReset (s := { s with turns := rest }) hidle]
  rfl

/-- Settles O8: acceptance is the first step, and it leaves the engine's turn next. -/
theorem writtenCommandIsAcceptedThenPerformed : Obligations.WrittenCommandIsAcceptedThenPerformed := by
  unfold Obligations.WrittenCommandIsAcceptedThenPerformed
  intro s w rest hidle hw hturns
  have haccepted : step s = .next (commandWritten w { s with turns := .engine :: rest }) :=
    (step_commandWrite_eq hturns).trans (exec_cmdWrite_command (s := { s with turns := .engine :: rest }) hidle hw)
  refine ⟨haccepted, ?_⟩
  rw [runSteps_succ_of_next haccepted, runSteps_one]
  exact step_engine_eq rfl rfl rfl

/-- SOFT_RESET's word is not reserved (30_encoding.md R72). -/
theorem ne_seven_of_isReserved {w : Word} (hw : isReserved w = true) : w ≠ 7#32 := by
  rintro rfl
  exact absurd hw (by decide)

/-- Settles O17: accepted like any other word, a reserved word is performed as ILLEGAL. -/
theorem reservedWordCompletesWithIllegalCmd : Obligations.ReservedWordCompletesWithIllegalCmd := by
  unfold Obligations.ReservedWordCompletesWithIllegalCmd
  refine ⟨exec_illegal, fun w s rest hw hidle hturns => ?_⟩
  obtain ⟨-, hrun⟩ := writtenCommandIsAcceptedThenPerformed s w rest hidle (ne_seven_of_isReserved hw) hturns
  rw [hrun, decodeWord_of_isReserved hw, exec_illegal]
  rfl

end Sys2Proof.Machine

/-! SUPPORT. Errors, the interrupt and the blocks of a platform (60_exceptions.md R190 to R202): that no run
stops, which failing check of a command is its error, which bus error an access gives, when irq can change, and that the
blocks share nothing. -/

namespace Sys2Proof.Machine

open Sys2Proof.Terms

/-! ## Neither error class stops the block -/

/-- Settles O13, by induction on the number of steps: the invariant gives each step a next state and holds there. -/
theorem runsNeverStop : Obligations.RunsNeverStop := by
  unfold Obligations.RunsNeverStop NeverStops
  intro s h k
  induction k generalizing s with
  | zero => exact ⟨s, rfl⟩
  | succ k ih =>
    obtain ⟨t, ht, hinv⟩ := h.stepWith_next
    rw [runSteps_succ_of_next ((step_eq_stepWith s).trans ht)]
    exact ih t hinv

/-! ## Command errors -/

/-- A checked command whose checks fail completes with the error and has no other effect (R193). -/
theorem runChecked_erroredWith {α : Type} {operands : Except CmdError α} {e : CmdError} (h : operands = .error e)
    (run : α → State → State) (s : State) : runChecked operands run s = .next (erroredWith (errorCode e) s) := by
  rw [runChecked_error h, raiseCmdError_eq_erroredWith]

/-- The channel is checked first (41_rlgr.md R101, 60_exceptions.md R192). -/
theorem rlgrOperands_badChannel (P : Config.Params) (count : BitVec 13) (s : State) :
    rlgrOperands P 3#2 count s = .error .badChannel := rfl

section
variable {ch : BitVec 2} (hch : ch ≠ 3#2) {count : BitVec 13} {P : Config.Params} {s : State}
include hch

/-- The count is checked after the channel. -/
theorem rlgrOperands_badCount (hcount : 4096 < count.toNat) : rlgrOperands P ch count s = .error .badCount := by
  rw [rlgrOperands, channelOf_legal hch, countOf_bad hcount]
  rfl

/-- The input length is checked last. -/
theorem rlgrOperands_badLen (hcount : count.toNat ≤ 4096) (hlen : P.inBytes < s.inLen.toNat) :
    rlgrOperands P ch count s = .error .badLen := by
  rw [rlgrOperands, channelOf_legal hch, countOf_legal hcount, inputLength_bad hlen]
  rfl

end

/-- Settles O22: each command's operand checks in their order; a reserved word has no operand to check. -/
theorem commandErrorsInOrderAndPrecise : Obligations.CommandErrorsInOrderAndPrecise := by
  unfold Obligations.CommandErrorsInOrderAndPrecise
  refine ⟨by decide, fun s => ⟨fun w => exec_illegal w s, fun count => ?rlgrChannel, ?nx, ?x, ?clear,
    fun ch count hch hcount => ?rlgrCount, fun ch count hch hcount hlen => ?rlgrLen, ?ycocg⟩⟩
  case rlgrChannel => exact runChecked_erroredWith (rlgrOperands_badChannel params count s) rlgrEffect s
  case nx => rw [exec_dwtInvNx, runChecked_erroredWith channelOf_three]; rfl
  case x => rw [exec_dwtInvX, runChecked_erroredWith channelOf_three]; rfl
  case clear => exact clearEffectHolds.2 s
  case rlgrCount => exact runChecked_erroredWith (rlgrOperands_badCount hch hcount) rlgrEffect s
  case rlgrLen => exact runChecked_erroredWith (rlgrOperands_badLen hch hcount hlen) rlgrEffect s
  case ycocg =>
    exact runChecked_erroredWith cllOf_zero (fun level => colorEffect fun e0 e1 e2 => params.ycocgFn e0 e1 e2 level) s

/-! ## The registers at their offsets -/

/-- The offset of a register (10_state.md R23). -/
def Reg.offset : Reg → Nat
  | .id => 0x000
  | .cmd => 0x004
  | .status => 0x008
  | .inLen => 0x00C
  | .rlgrBits => 0x010
  | .rlgrEmit => 0x014
  | .rlgrKstate => 0x018
  | .irqEn => 0x01C
  | .irqStat => 0x020
  | .kinit => 0x024

/-- A register other than KINIT is decoded from its own offset alone: KINIT stands for every offset that is left. -/
theorem eq_offset_of_regAt {off : Nat} {r : Reg} (h : regAt off = r) (hr : r ≠ .kinit) : off = r.offset := by
  unfold regAt at h
  split at h <;> subst h
  any_goals rfl
  exact absurd rfl hr

/-- An access that address decoding takes to a register is at the register's offset. -/
theorem eq_offset_of_classify {P : Config.Params} {s : State} {off n : Nat} {write : Bool} {r : Reg}
    (h : classify P s off n write = .ok (.reg r)) (hr : r ≠ .kinit) : off = r.offset := by
  obtain ⟨rg, -, -, -, -, -, -, -, htarget⟩ := classify_ok_iff.1 h
  cases rg with
  | regs => exact eq_offset_of_regAt (Target.reg.inj htarget).symm hr
  | inBuf | coef _ | pix => cases htarget

/-! ## Bus errors -/

/-- The mapped offsets are the registers and the buffer bytes (20_memory.md R51). -/
theorem mapped_iff {off : Nat} : Mapped off ↔ ∃ rg, regionOf params off = some rg := by
  have hreg (h : off < 0x28) : ∃ rg, regionOf params off = some rg := ⟨.regs, if_pos h⟩
  have hbuffer (h : isBufferByte params off = true) : ∃ rg, regionOf params off = some rg :=
    (regionOf_of_isBufferByte h).imp fun _ hrg => hrg.1
  simp only [isBufferByte, Bool.or_eq_true, decide_eq_true_eq] at hbuffer
  constructor
  · unfold Mapped
    rintro (h | h | h | h)
    · exact hreg h
    · exact hbuffer (.inl (.inl h))
    · exact hbuffer (.inl (.inr h))
    · exact hbuffer (.inr h)
  · rintro ⟨rg, hrg⟩
    have hholds := Region.holds_of_regionOf hrg
    unfold Mapped
    cases rg with
    | regs | inBuf | coef _ | pix => simp only [Region.Holds, coefBase] at hholds; omega

/-- What the host may access while BUSY = 1 is at the offsets of ID, STATUS, IRQ_EN and IRQ_STAT (20_memory.md R60). -/
theorem openWhileBusy_of_accessible {rg : Region} {off : Nat} (h : accessibleWhileBusy (targetOf rg off) = true) :
    OpenWhileBusy off := by
  unfold OpenWhileBusy
  cases rg with
  | regs =>
    unfold targetOf at h
    cases hreg : regAt off with
    | id | status | irqEn | irqStat =>
      have hoff := eq_offset_of_regAt hreg (by decide)
      simp only [Reg.offset] at hoff
      omega
    | cmd | inLen | rlgrBits | rlgrEmit | rlgrKstate | kinit => rw [hreg] at h; cases h
  | inBuf | coef _ | pix => cases h

theorem accessible_of_openWhileBusy {off : Nat} (h : OpenWhileBusy off) :
    accessibleWhileBusy (.reg (regAt off)) = true := by
  rcases h with rfl | rfl | rfl | rfl <;> rfl

/-- A read-only register stands at a register's offset and admits no write (10_state.md R23). -/
theorem readOnlyOffset_register {off : Nat} (h : ReadOnlyOffset off) :
    off < 0x28 ∧ off % 4 = 0 ∧ isReadOnly (.reg (regAt off)) = true := by
  rcases h with rfl | rfl | rfl | rfl | rfl <;> exact ⟨by decide, by decide, rfl⟩

section
variable {P : Config.Params} {s : State} {off n : Nat}

theorem classify_unmapped (hrg : regionOf P off = none) (write : Bool) :
    classify P s off n write = .error .unmapped := by
  rw [classify, hrg]

variable {rg : Region} (hrg : regionOf P off = some rg)
include hrg

/-- The two width tests of 40_host_bus.md R90 together. -/
theorem classify_width (hwidth : ¬ WidthAccepted off n) (write : Bool) :
    classify P s off n write = .error .width := by
  unfold WidthAccepted at hwidth
  rw [classify, hrg]
  by_cases hregister : off < 0x10000 ∧ n ≠ 4
  · exact if_pos hregister
  · exact (if_neg hregister).trans (if_pos (by omega))

/-- An accepted width passes both width tests. -/
theorem classify_misaligned (hwidth : WidthAccepted off n) (halign : off % n ≠ 0) (write : Bool) :
    classify P s off n write = .error .misaligned := by
  unfold WidthAccepted at hwidth
  rw [classify, hrg]
  dsimp only
  rw [if_neg (by omega), if_neg (by omega), if_pos halign]

/-- An aligned access of an accepted width lies in one region, so BUSY and the access kind decide (R90, R196). -/
theorem classify_aligned (hP : P.inBytes % 4 = 0) (hwidth : WidthAccepted off n) (halign : off % n = 0)
    (write : Bool) :
    classify P s off n write =
      if s.busy = true ∧ accessibleWhileBusy (targetOf rg off) = false then .error .busy
      else if write = true ∧ isReadOnly (targetOf rg off) = true then .error .readOnly
      else .ok (targetOf rg off) := by
  unfold WidthAccepted at hwidth
  have hn : n = 1 ∨ n = 2 ∨ n = 4 := by omega
  have hword : (off + n - 1) / 4 = off / 4 := by rcases hn with rfl | rfl | rfl <;> omega
  have hlast : regionOf P (off + n - 1) = some rg := (regionOf_congr_word hP hword).trans hrg
  rw [classify, hrg]
  dsimp only
  rw [if_neg (by omega), if_neg (by omega), if_neg (not_not.2 halign), if_neg (not_not.2 hlast)]

end

/-- A 32-bit write of a read-only register that BUSY leaves open (R196, the last cause). -/
theorem classify_readOnly {P : Config.Params} {s : State} {off : Nat} (hP : P.inBytes % 4 = 0)
    (hreadOnly : ReadOnlyOffset off) (hopen : s.busy = false ∨ OpenWhileBusy off) :
    classify P s off 4 true = .error .readOnly := by
  obtain ⟨hoff, halign, hkind⟩ := readOnlyOffset_register hreadOnly
  have hnotBusy : ¬ (s.busy = true ∧ accessibleWhileBusy (targetOf .regs off) = false) := by
    rintro ⟨hbusy, hclosed⟩
    rcases hopen with hidle | hopen
    · exact absurd (hbusy.symm.trans hidle) (by decide)
    · exact absurd ((accessible_of_openWhileBusy hopen).symm.trans hclosed) (by decide)
  rw [classify_aligned (if_pos hoff) hP (.inl rfl) halign, if_neg hnotBusy, if_pos ⟨rfl, hkind⟩]

/-- A read that address decoding refuses gives the BUSERR response and changes nothing of the block (R195). -/
theorem exec_hostRead_busErrored {s : State} {off : Offset} {n : Nat} {c : BusCause}
    (h : classify params s off.toNat n false = .error c) : exec (.hostRead off n) s = .next (busErrored c s) := by
  refine congrArg Host.Outcome.next ?_
  rw [hostReadWith, h]
  rfl

/-- So does a write. -/
theorem exec_hostWrite_busErrored {s : State} {off : Offset} {n : Nat} {c : BusCause}
    (h : classify params s off.toNat n true = .error c) (v : Word) :
    exec (.hostWrite off n v) s = .next (busErrored c s) := by
  refine congrArg Host.Outcome.next ?_
  rw [hostWriteWith, h]
  rfl

/-- Where a read and a write are refused alike, either access gives the BUSERR response. -/
theorem exec_access_busErrored {s : State} {off : Offset} {n : Nat} {v : Word} {c : BusCause}
    (h : ∀ write, classify params s off.toNat n write = .error c) :
    ∀ i ∈ accessesAt off n v, exec i s = .next (busErrored c s) := by
  intro i hi
  rcases List.mem_pair.1 hi with rfl | rfl
  · exact exec_hostRead_busErrored (h false)
  · exact exec_hostWrite_busErrored (h true) v

/-- Settles O48: each cause is the first test of address decoding that the access fails. -/
theorem busErrorsInPriority : Obligations.BusErrorsInPriority := by
  unfold Obligations.BusErrorsInPriority
  intro s off n v hP i hi
  refine ⟨fun hunmapped => ?unmapped, fun hmapped hwidth => ?width, fun hmapped hwidth halign => ?misaligned,
    fun hmapped hwidth halign hbusy hclosed => ?busy, fun hfour hreadOnly hopen => ?readOnly⟩
  case unmapped =>
    have hnone : regionOf params off.toNat = none := Option.eq_none_iff_forall_ne_some.2 fun rg hrg =>
      hunmapped (mapped_iff.2 ⟨rg, hrg⟩)
    exact exec_access_busErrored (classify_unmapped hnone) i hi
  case width =>
    obtain ⟨rg, hrg⟩ := mapped_iff.1 hmapped
    exact exec_access_busErrored (classify_width hrg hwidth) i hi
  case misaligned =>
    obtain ⟨rg, hrg⟩ := mapped_iff.1 hmapped
    exact exec_access_busErrored (classify_misaligned hrg hwidth halign) i hi
  case busy =>
    obtain ⟨rg, hrg⟩ := mapped_iff.1 hmapped
    have hnotOpen : accessibleWhileBusy (targetOf rg off.toNat) = false :=
      Bool.eq_false_iff.2 fun hopen => hclosed (openWhileBusy_of_accessible hopen)
    exact exec_access_busErrored
      (fun write => (classify_aligned hrg hP hwidth halign write).trans (if_pos ⟨hbusy, hnotOpen⟩)) i hi
  case readOnly =>
    subst hfour
    exact exec_hostWrite_busErrored (classify_readOnly hP hreadOnly hopen) v

/-! ## When irq changes -/

/-- The host writes that may change irq: of IRQ_EN, of IRQ_STAT, and of SOFT_RESET's word to CMD (R198). -/
def MayChangeIrq (off : Offset) (v : Word) : Prop :=
  off = 0x01C#18 ∨ off = 0x020#18 ∨ (off = 0x004#18 ∧ v = 7#32)

/-- No other register write reaches DONE_IE or DONE_IP. -/
theorem writeReg_doneIe_doneIp {r : Reg} {v : Word} (hen : r ≠ .irqEn) (hstat : r ≠ .irqStat)
    (hcmd : r = .cmd → v ≠ 7#32) (s : State) :
    (writeReg r v s).doneIe = s.doneIe ∧ (writeReg r v s).doneIp = s.doneIp := by
  cases r with
  | cmd => rw [writeReg, accept_command v s (hcmd rfl)]; exact ⟨rfl, rfl⟩
  | irqEn => exact absurd rfl hen
  | irqStat => exact absurd rfl hstat
  | _ => exact ⟨rfl, rfl⟩

/-- A host write recomputes irq, which changes only where the write reaches DONE_IE or DONE_IP (40_host_bus.md R92). -/
theorem hostWriteWith_irq {s : State} (hirq : s.irq = (s.doneIe && s.doneIp)) {off : Offset} {v : Word}
    (h : ¬ MayChangeIrq off v) (P : Config.Params) (n : Nat) : (hostWriteWith P off n v s).irq = s.irq := by
  rcases hostWriteWith_cases P off n v s with ⟨c, -, he⟩ | ⟨r, hr, he⟩ | ⟨-, he⟩ <;> rw [he]
  · rfl
  · have hen : r ≠ .irqEn := by
      rintro rfl
      exact h (.inl (BitVec.eq_of_toNat_eq (eq_offset_of_classify hr (by decide))))
    have hstat : r ≠ .irqStat := by
      rintro rfl
      exact h (.inr (.inl (BitVec.eq_of_toNat_eq (eq_offset_of_classify hr (by decide)))))
    have hcmd : r = .cmd → v ≠ 7#32 := by
      rintro rfl hv
      exact h (.inr (.inr ⟨eq_four_of_classify_cmd hr, hv⟩))
    obtain ⟨hie, hip⟩ := writeReg_doneIe_doneIp hen hstat hcmd s
    rw [refreshIrq_irq, hie, hip, hirq]
  · exact hirq.symm

@[simp] theorem hostReadWith_irq (P : Config.Params) (off : Offset) (n : Nat) (s : State) :
    (hostReadWith P off n s).irq = s.irq := by
  rcases hostReadWith_cases P off n s with ⟨c, -, h⟩ | ⟨r, -, h⟩ | ⟨-, h⟩ <;> rw [h]
  rfl

/-- A host access of the schedule that changes irq is one of the writes of R198. -/
theorem irq_changed_by_access {P : Config.Params} {a : BusAccess} {s t : State}
    (hirq : s.irq = (s.doneIe && s.doneIp)) (h : execWith P (decodeAccess a) s = .next t) (hchanged : t.irq ≠ s.irq) :
    a.write = true ∧ MayChangeIrq a.off a.v := by
  rw [execWith_decodeAccess] at h
  cases hwrite : a.write with
  | false =>
    rw [hwrite] at h
    cases h
    exact absurd (hostReadWith_irq P a.off a.n s) hchanged
  | true =>
    rw [hwrite] at h
    cases h
    exact ⟨rfl, by_contra fun hother => hchanged (hostWriteWith_irq hirq hother P a.n)⟩

/-- Settles O56: a turn that is no completion, no hard reset and no such write leaves irq as it is. -/
theorem irqChangesOnlyAtItsEvents : Obligations.IrqChangesOnlyAtItsEvents := by
  unfold Obligations.IrqChangesOnlyAtItsEvents
  intro s t h hs hchanged
  rw [step] at hs
  rcases stepBy_cases exec s with ⟨-, -, he⟩ | ⟨hturns, hbusy, -⟩ | ⟨rest, -, -, he⟩ | ⟨rest, hturns, hbusy, -⟩ |
    ⟨a, rest, hturns, he⟩ | ⟨rest, hturns, -⟩
  · cases he.symm.trans hs
    exact absurd rfl hchanged
  · exact .inl ⟨hbusy, .inl hturns⟩
  · cases he.symm.trans hs
    exact absurd rfl hchanged
  · exact .inl ⟨hbusy, .inr ⟨rest, hturns⟩⟩
  · rw [he, exec_eq_execWith] at hs
    obtain ⟨hwrite, hevent⟩ := irq_changed_by_access (s := { s with turns := rest }) h.irq hs hchanged
    exact .inr (.inr ⟨a, rest, hturns, hwrite, hevent⟩)
  · exact .inr (.inl ⟨rest, hturns⟩)

/-! ## The blocks of a platform -/

/-- A step of block `k` that gives a next platform is a step of its state, put back in its place; without such a block
nothing changes. -/
theorem stepInstance_cases {P : Config.Params} {k : Nat} {p q : Platform} (h : stepInstance P k p = .next q) :
    (p[k]? = none ∧ q = p) ∨ ∃ s t, p[k]? = some s ∧ stepWith P s = .next t ∧ q = p.set k t := by
  unfold stepInstance at h
  cases hk : p[k]? with
  | none =>
    rw [hk] at h
    cases h
    exact .inl ⟨rfl, rfl⟩
  | some s =>
    rw [hk] at h
    cases hs : stepWith P s with
    | next t =>
      simp only [hs] at h
      cases h
      exact .inr ⟨s, t, rfl, hs, rfl⟩
    | fault f => simp only [hs] at h; cases h
    | refused r => simp only [hs] at h; cases h

/-- A turn scheduled for block `k` changes no other block. -/
theorem schedule_getElem?_of_ne {j k : Nat} (h : j ≠ k) (t : Turn) (p : Platform) :
    (schedule k t p)[j]? = p[j]? := by
  rw [schedule, List.getElem?_modify_ne _ _ h.symm]

/-- Settles O58: a step puts one state back in its place, and an access is a turn for the block it selects. -/
theorem instancesAreIndependent : Obligations.InstancesAreIndependent := by
  unfold Obligations.InstancesAreIndependent
  refine fun P => ⟨fun p q k h => ?step, fun p addr n v k off hselect j hj => ?access⟩
  case step =>
    rcases stepInstance_cases h with ⟨hnone, rfl⟩ | ⟨s, t, hk, hs, rfl⟩
    · exact ⟨fun _ _ => rfl, fun s hk => absurd (hnone.symm.trans hk) nofun⟩
    · refine ⟨fun j hj => List.getElem?_set_ne hj.symm, fun u hu => ?_⟩
      cases hk.symm.trans hu
      have hlt : k < p.length := (List.getElem?_eq_some_iff.1 hk).1
      exact ⟨t, hs, List.getElem?_set_self hlt⟩
  case access =>
    simp only [memRead, memWrite, hselect]
    exact ⟨schedule_getElem?_of_ne hj _ p, schedule_getElem?_of_ne hj _ p⟩

end Sys2Proof.Machine

/-! SUPPORT. Reset and the idle block (70_reset_and_hazards.md R210, R211, R223): the state a hard reset leaves, what the
host reads then, the step of an idle block, and RLGR_DECODE of an input with a poisoned byte. -/

namespace Sys2Proof.Machine

open Sys2Proof.Terms

/-! ## Reset -/

/-- No register tells a block after a hard reset from one at reset (10_state.md R23, R210). -/
theorem readReg_hardReset (s : State) (r : Reg) : readReg (hardReset s) r = readReg State.reset r := by
  cases r <;> simp only [readReg, statusWord, hardReset, softReset]

/-- The host reads the same in the ten registers after a hard reset as at reset (40_host_bus.md R91). -/
theorem registerOffsets_read_hardReset (P : Config.Params) (s : State) :
    registerOffsets.map (fun off => (hostReadWith P off 4 (hardReset s)).resp) =
      registerOffsets.map fun off => (hostReadWith P off 4 State.reset).resp := by
  rw [registerOffsets_read (hardReset_busy s), registerOffsets_read (s := State.reset) rfl]
  simp only [readReg_hardReset]

/-- Settles O19: the step is the reset itself, whatever command is in flight. -/
theorem hardResetEffect : Obligations.HardResetEffect := by
  unfold Obligations.HardResetEffect
  intro s rest hturns
  obtain ⟨hreads, -⟩ := registersAfterReset
  refine ⟨hardReset { s with turns := rest }, stepBy_hardReset hturns exec, ?fields, fun a => ?poisoned, ?temp,
    (registerOffsets_read_hardReset params _).trans hreads⟩
  case fields => simp only [hardReset, softReset, State.reset]
  case poisoned => rw [hardReset_mem, readByte]
  case temp => rw [hardReset_temp, freeTemp_length]

/-- Settles O11: the memory is empty, no command is latched, no error is recorded. -/
theorem invariantHoldsAtReset : Obligations.InvariantHoldsAtReset where
  memory := wf_reset
  buffers := nofun
  irq := rfl
  engine := rfl
  notSoftReset := nofun
  lastop := nofun
  status := rfl
  errcode := rfl
  temp := List.length_replicate

/-! ## The idle block -/

/-- The engine's turn of an idle block only uses up the turn (R223). -/
theorem step_engine_idle {s : State} {rest : List Turn} (hidle : s.busy = false) (hturns : s.turns = .engine :: rest) :
    step s = .next { s with turns := rest } := by
  simp [step, stepBy, hturns, hidle]

/-- An idle block with no turn left stays as it is (R223, log 2). -/
theorem step_noTurns_idle {s : State} (hidle : s.busy = false) (hturns : s.turns = []) : step s = .next s := by
  simp [step, stepBy, hturns, hidle]

/-- A state that steps to itself stays through every run. -/
theorem runSteps_of_step_self {s : State} (h : step s = .next s) (k : Nat) : runSteps k s = .next s := by
  induction k with
  | zero => rfl
  | succ k ih => rw [runSteps_succ_of_next h, ih]

/-- Settles O9: the two steps of an idle block without a host access or a reset. -/
theorem idleBlockIsQuiescent : Obligations.IdleBlockIsQuiescent := by
  unfold Obligations.IdleBlockIsQuiescent
  intro s hidle
  exact ⟨fun _ hturns => step_engine_idle hidle hturns,
    fun hturns => runSteps_of_step_self (step_noTurns_idle hidle hturns)⟩

/-! ## RLGR_DECODE of a poisoned input -/

/-- An input with a poisoned byte does not load (R211). -/
theorem loadIn_eq_none {m : List Host.Cell} (hwf : Memory.wf m = true) {len k : Nat} (hk : k < len)
    (hpoisoned : inAt m k = none) : loadIn m len = none := by
  cases hload : loadIn m len with
  | none => rfl
  | some bytes =>
    obtain ⟨hlen, hbytes⟩ := (loadIn_eq_some_iff hwf len bytes).1 hload
    have hend : bytes.length ≤ k := List.getElem?_eq_none_iff.1 ((hbytes k hk).symm.trans hpoisoned)
    omega

/-- `s` after RLGR_DECODE of `n` elements into channel `c` from an input that does not load: the completion, the elements
poisoned, the result registers drawn (R211, log 5, log 6). -/
def poisonedInto (c n : Nat) (s : State) : State :=
  { completedWith (poisonCoefs s.mem c n) s with
    rlgrBits := Config.freeBits s.stream s.fresh, rlgrEmit := Config.freeEmit s.stream s.fresh
    rlgrKr := Config.freeKr s.stream s.fresh, rlgrKgr := Config.freeKgr s.stream s.fresh
    fresh := s.fresh + 1 }

theorem finish_rlgrEffect_of_loadIn_none {s : State} {len : Nat} (h : loadIn s.mem len = none) (c n : Nat) :
    finish (rlgrEffect (c, n, len) s) = poisonedInto c n s := by
  simp [rlgrEffect, h, finish_eq_completedWith, poisonedInto, completedWith]

/-- Settles O24: an input with a poisoned byte does not reach the decoder. -/
theorem rlgrDecodeOfPoisonedInput : Obligations.RlgrDecodeOfPoisonedInput := by
  unfold Obligations.RlgrDecodeOfPoisonedInput
  intro ch count s k hch hcount hlen hwf hk hpoisoned
  refine ⟨poisonedInto ch.toNat count.toNat s, ?next, rfl, fun i hi => ?elements, ?outside⟩
  case next =>
    rw [exec_rlgrDecode_legal hch hcount hlen, finish_rlgrEffect_of_loadIn_none (loadIn_eq_none hwf hk hpoisoned)]
  case elements => exact coefAt_poisonCoefs s.mem ch.toNat count.toNat i hi
  case outside => exact sameBytesOutside_poisonRange s.mem (coefBase ch.toNat) (2 * count.toNat)

end Sys2Proof.Machine
